-- ==== Sys2Proof/Word.lean ====
section
/-! DEFINITION. The machine's word: registers, data-memory words, addresses and the pc are all 32 bits wide (R9). -/

namespace Sys2Proof

/-- A vector of `XLEN` = 32 bits (R5, R9). `+` on it is addition modulo 2^32. -/
abbrev Word := BitVec 32

end Sys2Proof
end

