-- ==== Sys2Proof/Config.lean ====
section
/-! DEFINITION. What an implementation fixes (R5) and the values the spec leaves without a meaning (R43). -/

namespace Sys2Proof.Config

/-- `NREGS`, the number of general registers (R5, R20). -/
abbrev numRegs : Nat := 32

/-- `LINK`, the register `jal` writes (R5, R22). -/
abbrev linkReg : Nat := 31

/-- The three sizes the spec leaves open (R5, D4, D5, D6). The machine carries them as a field of its
state that no step changes, so every statement over all states holds for every value of them. -/
structure Params where
  /-- `DMEM_WORDS`: words of data memory. -/
  dmemWords : Nat
  /-- `BTB_ENTRIES`: entries of the predictor table. -/
  btbEntries : Nat
  /-- `RAS_DEPTH`: capacity of the return-address stack; `none` is the unbounded stack. -/
  rasDepth : Option Nat
  deriving DecidableEq, Repr

/-- The ranges R5 gives the parameters. -/
def Params.valid (p : Params) : Bool :=
  decide (1 ≤ p.dmemWords) && decide (p.dmemWords ≤ 2 ^ 30) && decide (1 ≤ p.btbEntries) &&
    match p.rasDepth with
    | some d => decide (1 ≤ d)
    | none => true

/-- The parameter values of `State.reset`. DESIGN CHOICE (unsafe for a claim that rests on them; log entry 3):
the values the spec's own test vectors use (95_test_vectors.md). `State.resetWith` takes any others. -/
def params : Params := { dmemWords := 64, btbEntries := 4, rasDepth := some 8 }

/-- The 32-bit latches of a dynamic instance that hold no meaningful value at creation (R43). -/
inductive Latch where
  | pcSnap | result | addr | sdata | link | fall | btarget
  deriving DecidableEq, Repr

/-- FREE VALUE (log entry 6): what a latch of the instance with the given `seq` holds before the stage that
sets it. R43: "no meaningful value". Nothing can be proved of it. -/
opaque unsetLatch : Latch → Nat → Word

/-- FREE VALUE (log entry 6): what `I.pred` holds before the decode stage of a `ble` sets it (R43). -/
opaque unsetPred : Nat → Bool

end Sys2Proof.Config
end

