-- ==== Sys2Proof/Syntax.lean ====
section
/-! DEFINITION. The thirteen static instructions as decoded records (R41, R80, R81). -/

namespace Sys2Proof

/-- The static instruction: its `op` is the constructor, its operand fields are the arguments, in the order of
R81. `imm` is the 32-bit value already sign-extended, `target` the 32-bit byte address (R41). A register index is a number:
a record decoded from a word has it below 32, one built by other means need not (R24, R247). -/
inductive Instr where
  /-- `nop` (R135). -/
  | nop
  /-- `add $rd, $rs, $rt` (R131). -/
  | add (rd rs rt : Nat)
  /-- `xor $rd, $rs, $rt` (R134). -/
  | xor (rd rs rt : Nat)
  /-- `slt $rd, $rs, $rt` (R133). -/
  | slt (rd rs rt : Nat)
  /-- `jr $rs` (R153). -/
  | jr (rs : Nat)
  /-- `j target` (R151). -/
  | j (target : Word)
  /-- `jal target` (R152). -/
  | jal (target : Word)
  /-- `ble $rs, $rt, imm` (R156). -/
  | ble (rs rt : Nat) (imm : Word)
  /-- `addi $rt, $rs, imm` (R132). -/
  | addi (rt rs : Nat) (imm : Word)
  /-- `lw $rt, imm($rs)` (R141). -/
  | lw (rt rs : Nat) (imm : Word)
  /-- `sw $rt, imm($rs)` (R142). -/
  | sw (rt rs : Nat) (imm : Word)
  /-- `call target` (R154). -/
  | call (target : Word)
  /-- `return` (R155). -/
  | ret
  deriving DecidableEq, Repr

end Sys2Proof
end

