-- ==== Sys2Proof/WellFormed.lean ====
section
/-! DEFINITION. Which records have a 32-bit word: the field ranges of R41, R87, R88 and R97. A record outside them is
still run when it is loaded as a record (log entries 8 and 22). -/

namespace Sys2Proof

/-- A register field is 5 bits (R83, R84, R97). -/
def regFits (r : Nat) : Bool := decide (r < Config.numRegs)

/-- An immediate is the sign extension of a 16-bit field (R87). -/
def immFits (imm : Word) : Bool := decide ((imm.setWidth 16).signExtend 32 = imm)

/-- A jump target is a byte address of 28 bits and a multiple of 4 (R88). -/
def targetFits (target : Word) : Bool :=
  decide (target.toNat < 2 ^ 28) && decide (target.toNat % 4 = 0)

/-- A record every field of which fits its place in the word (R83 to R88). -/
def Instr.wellFormed : Instr → Bool
  | .nop => true
  | .add rd rs rt => regFits rd && regFits rs && regFits rt
  | .xor rd rs rt => regFits rd && regFits rs && regFits rt
  | .slt rd rs rt => regFits rd && regFits rs && regFits rt
  | .jr rs => regFits rs
  | .j target => targetFits target
  | .jal target => targetFits target
  | .ble rs rt imm => regFits rs && regFits rt && immFits imm
  | .addi rt rs imm => regFits rt && regFits rs && immFits imm
  | .lw rt rs imm => regFits rt && regFits rs && immFits imm
  | .sw rt rs imm => regFits rt && regFits rs && immFits imm
  | .call target => targetFits target
  | .ret => true

end Sys2Proof
end

