-- ==== Sys2Proof/Decode.lean ====
section
/-! DEFINITION. Words to records and back (R82 to R93, R99). The decoder is total: a word that matches no row of
the opcode map is refused by name. -/

namespace Sys2Proof

/-- The bit slice `w[lo+len-1 : lo]` as an unsigned number (R8). -/
def bits (w : Word) (lo len : Nat) : Nat := w.toNat / 2 ^ lo % 2 ^ len

/-- `sext_32` of a 16-bit field (R9, R87). -/
def sext16 (imm16 : Nat) : Word := (BitVec.ofNat 16 imm16).signExtend 32

/-- The byte address of static instruction number `instrIndex`: `zext_32(instr_index) << 2` (R88). -/
def jumpTarget (instrIndex : Nat) : Word := BitVec.ofNat 32 instrIndex <<< 2

/-- What the decoder answers (R92). -/
inductive Decoded where
  | legal (i : Instr)
  /-- The word matches no row of the opcode map (R92, R93). -/
  | illegal
  deriving DecidableEq, Repr

/-- Opcode 0 (R83, R93): the `funct` field selects, and the fields an instruction does not use must be zero. The
all-zero word is `nop` (R86). -/
def decodeSpecial (w : Word) : Decoded :=
  if w = 0 then .legal .nop
  else if bits w 6 5 ≠ 0 then .illegal
  else match bits w 0 6 with
    | 0x20 => .legal (.add (bits w 11 5) (bits w 21 5) (bits w 16 5))
    | 0x26 => .legal (.xor (bits w 11 5) (bits w 21 5) (bits w 16 5))
    | 0x2A => .legal (.slt (bits w 11 5) (bits w 21 5) (bits w 16 5))
    | 0x08 => if bits w 11 10 = 0 then .legal (.jr (bits w 21 5)) else .illegal
    | _ => .illegal

/-- `Decode : Word32 -> StaticInstruction or Illegal`, by the opcode map of R91. -/
def decodeWord (w : Word) : Decoded :=
  match bits w 26 6 with
  | 0x00 => decodeSpecial w
  | 0x02 => .legal (.j (jumpTarget (bits w 0 26)))
  | 0x03 => .legal (.jal (jumpTarget (bits w 0 26)))
  | 0x06 => .legal (.ble (bits w 21 5) (bits w 16 5) (sext16 (bits w 0 16)))
  | 0x08 => .legal (.addi (bits w 16 5) (bits w 21 5) (sext16 (bits w 0 16)))
  | 0x23 => .legal (.lw (bits w 16 5) (bits w 21 5) (sext16 (bits w 0 16)))
  | 0x2B => .legal (.sw (bits w 16 5) (bits w 21 5) (sext16 (bits w 0 16)))
  | 0x3E => .legal (.call (jumpTarget (bits w 0 26)))
  | 0x3F => if bits w 0 26 = 0 then .legal .ret else .illegal
  | _ => .illegal

/-- The R-format word with opcode 0 (R83). -/
def encodeR (rs rt rd funct : Nat) : Word :=
  BitVec.ofNat 32 (rs % 32 * 2 ^ 21 + rt % 32 * 2 ^ 16 + rd % 32 * 2 ^ 11 + funct)

/-- The I-format word (R84), with `imm16 = imm[15:0]` (R99). -/
def encodeI (opcode rs rt : Nat) (imm : Word) : Word :=
  BitVec.ofNat 32 (opcode * 2 ^ 26 + rs % 32 * 2 ^ 21 + rt % 32 * 2 ^ 16 + bits imm 0 16)

/-- The J-format word (R85), with `instr_index = target[27:2]` (R99). -/
def encodeJ (opcode : Nat) (target : Word) : Word :=
  BitVec.ofNat 32 (opcode * 2 ^ 26 + bits target 2 26)

/-- `Encode` (R99), the numbers of R91. -/
def encode : Instr → Word
  | .nop => 0
  | .add rd rs rt => encodeR rs rt rd 0x20
  | .xor rd rs rt => encodeR rs rt rd 0x26
  | .slt rd rs rt => encodeR rs rt rd 0x2A
  | .jr rs => encodeR rs 0 0 0x08
  | .j target => encodeJ 0x02 target
  | .jal target => encodeJ 0x03 target
  | .ble rs rt imm => encodeI 0x06 rs rt imm
  | .addi rt rs imm => encodeI 0x08 rs rt imm
  | .lw rt rs imm => encodeI 0x23 rs rt imm
  | .sw rt rs imm => encodeI 0x2B rs rt imm
  | .call target => encodeJ 0x3E target
  | .ret => encodeJ 0x3F 0

/-- The instruction in the low `nbits` bits of `w`; every bit above them is 0. An instruction is one 32-bit word
and the word has no byte order (R60, R82), so the word itself goes to the decoder. -/
def decodeTableWord (nbits w : Nat) : Option Instr :=
  match decodeWord (BitVec.ofNat 32 (w % 2 ^ nbits)) with
  | .legal i => some i
  | .illegal => none

end Sys2Proof
end

