-- ==== Sys2Proof/Machine/State.lean ====
section
/-! DEFINITION. The state of the machine as plain data (10_state.md), the faults, and the state after reset (R53). -/

namespace Sys2Proof.Machine

/-- One word of data memory: its word index and its value. R60: a model keeps words "and must not introduce a
byte view" (log entry 4). -/
abbrev Cell := Nat × Word

/-- The data memory `dmem` (R38) as the list of its words that are not 0, by rising word index: one canonical
form, so that equal memories are equal lists. An unlisted word reads as `Memory.unlisted`. -/
abbrev Memory := List Cell

/-- What an unlisted word reads as: the reset contents of every word (R53, D12). -/
def Memory.unlisted : Word := 0

/-- Indices strictly rising, and no listed word equal to what an unlisted one reads as. -/
def Memory.wf : Memory → Bool
  | [] => true
  | [(_, v)] => decide (v ≠ Memory.unlisted)
  | (a, v) :: (b, w) :: rest => decide (v ≠ Memory.unlisted) && decide (a < b) && Memory.wf ((b, w) :: rest)

/-- Where a static instruction of `imem` comes from (R39, R80, R82; log entry 5). -/
inductive Slot where
  /-- A 32-bit word that is decoded when it is brought into the window (R92). -/
  | word (w : Word)
  /-- A decoded record with its source text, which no rule uses (R41). -/
  | record (instr : Instr) (text : String)
  deriving DecidableEq, Repr

/-- The stage counter of an instance (R12): the last stage it completed. -/
inductive Stage where
  | PF | F | D | E | M | W
  deriving DecidableEq, Repr

/-- The two kinds of jump intent (R45, R150). -/
inductive JumpKind where
  | masked | direct
  deriving DecidableEq, Repr

/-- A jump intent (R45). -/
structure JumpIntent where
  kind : JumpKind
  target : Word
  taken : Bool
  deriving DecidableEq, Repr

/-- A dynamic instance (R43). `instr` holds the copied fields `op`, `rs`, `rt`, `rd`, `imm`, `target`. -/
structure Instance where
  instr : Instr
  /-- The position of the static instruction in `imem`. -/
  index : Nat
  stage : Stage
  seq : Nat
  pcSnap : Word
  dest : Option Nat
  result : Word
  fwd : Option Word
  cleanup : Bool
  jump : Option JumpIntent
  addr : Word
  sdata : Word
  link : Word
  fall : Word
  btarget : Word
  pred : Bool
  deriving DecidableEq, Repr

/-- An entry of the predictor table (R48). -/
structure BtbEntry where
  valid : Bool
  tag : Word
  target : Word
  taken : Bool
  deriving DecidableEq, Repr

/-- The entry after reset (R53). -/
def BtbEntry.empty : BtbEntry := { valid := false, tag := 0, target := 0, taken := false }

/-- A trace event: the stage completed and the instance's `seq` (R241). -/
structure Event where
  stage : Stage
  seq : Nat
  deriving DecidableEq, Repr

/-- What a stage function that did not raise returned (R11). -/
inductive StageStatus where
  | done | notReady
  deriving DecidableEq, Repr

/-- The wires of one cycle (R46, R47, R49). They carry nothing from one cycle to the next. -/
structure Wires where
  /-- Register indices with a pending write (R46). -/
  awaiting : List Nat
  /-- Register index to forwarded value (R47). -/
  forward : List (Nat × Word)
  stalled : Bool
  jumped : Bool
  /-- The window position of the honoring instance. -/
  cut : Option Nat
  /-- The window after the issue step and before the sweep. -/
  snapshot : List Instance
  /-- This cycle's trace events. -/
  events : List Event
  /-- The model's own wire (log entry 11): the instance whose stage function is being called. -/
  visiting : Option Instance
  /-- The model's own wire (log entry 11): what that stage function returned. -/
  status : StageStatus
  deriving DecidableEq, Repr

/-- The wires between two cycles: all empty (R53). -/
def Wires.idle : Wires :=
  { awaiting := [], forward := [], stalled := false, jumped := false, cut := none, snapshot := []
    events := [], visiting := none, status := .done }

/-- Why a primitive operation raises (R10, R252), before it is known which instance or host call made it. -/
inductive Cause where
  | regZeroWrite
  | regIndexOutOfRange (index : Nat)
  | memIndexOutOfRange (addr : Word)
  | stackUnderflow
  | stackOverflow
  deriving DecidableEq, Repr

/-- The fatal faults, each with the information R252 says is recorded. The engine's `fault` register holds one;
`step` answers it for every state that holds one (R170, R254). Each is safe: the machine stops where the spec says
it stops. -/
inductive Fault where
  /-- Raised at stage W by an instance with destination 0 (R246). Safe. -/
  | regZeroWrite (seq index : Nat)
  /-- Raised at a register port by an index above 31, which only a record built otherwise than from a word
  presents (R247). Safe. -/
  | regIndexOutOfRange (presented : Nat)
  /-- Raised at stage M by `lw` or `sw` (R248). Safe. -/
  | memIndexOutOfRange (ea : Word) (seq index : Nat)
  /-- Raised at stage D by `return` on an empty RAS (R249). Safe. -/
  | stackUnderflow (seq index : Nat)
  /-- Raised at stage D by `call` on a full RAS (R250). Safe. -/
  | stackOverflow (seq index : Nat)
  /-- Raised at the issue step by a word that is no instruction (R251). Safe. -/
  | illegalInstruction (word : Word) (index : Nat)
  deriving DecidableEq, Repr

/-- The code of a fault (R252). -/
def Fault.code : Fault → Nat
  | .regZeroWrite _ _ => 1
  | .regIndexOutOfRange _ => 2
  | .memIndexOutOfRange _ _ _ => 3
  | .stackUnderflow _ _ => 4
  | .stackOverflow _ _ => 5
  | .illegalInstruction _ _ => 6

/-- The reasons for which the model has no next state and the spec names no fault. -/
inductive Refusal where
  /-- Raised by an arm of `exec` whose instruction has no meaning yet. Safe. There is no such arm. -/
  | notModelled (mnemonic : String)
  /-- Raised by every meaning when the visited instance has already completed writeback: `next(W)` is not defined
  (R12), and R174 derives that no instance of a sweep is there. Safe. -/
  | noNextStage
  deriving DecidableEq, Repr

/-- The whole state. Every field is a list, a number, a bit or a word; the inventory names the rule of each. -/
structure State where
  params : Config.Params
  regs : Vector Word 32
  pc : Word
  dmem : Memory
  /-- The return-address stack, newest entry last (R35). -/
  ras : List Word
  btb : List BtbEntry
  /-- The loaded program; its length is `PROG_LEN` (R39). -/
  imem : List Slot
  /-- The in-flight instances, oldest first (R42). -/
  window : List Instance
  stalledPrev : Bool
  cycle : Nat
  nextSeq : Nat
  fault : Option Fault
  trace : List (List Event)
  wires : Wires
  deriving DecidableEq, Repr

/-- What a stage function answers (R11): `Done` with the instance and the state it leaves, `NotReady` with no
effect at all (R113), or a fault. -/
inductive StageResult where
  | done (inst : Instance) (s : State)
  | notReady
  | raise (f : Fault)
  deriving DecidableEq, Repr

/-- The state after reset of a machine with the given sizes: the table of R53. -/
def State.resetWith (p : Config.Params) : State :=
  { params := p
    regs := Vector.replicate 32 0
    pc := 0
    dmem := []
    ras := []
    btb := List.replicate p.btbEntries BtbEntry.empty
    imem := []
    window := []
    stalledPrev := false
    cycle := 0
    nextSeq := 0
    fault := none
    trace := []
    wires := Wires.idle }

/-- The state right after reset (R53, R270), at the sizes of `Config.params` (log entry 3). -/
def State.reset : State := State.resetWith Config.params

end Sys2Proof.Machine
end

