-- ==== Sys2Proof/Machine/Ops.lean ====
section
/-! DEFINITION. The primitives of R10 over registers, memory, RAS, predictor and pc; the stage functions common to
every instruction (R111, R117); the frame that drives an instruction through its stages (R110); and the entry into a
fault (R254). -/

namespace Sys2Proof.Machine

/-! ## Data memory (R61, R71, R72) -/

/-- `unsigned(a) >> 2`: the word of data memory a byte address names (R61), and the instruction index of a pc
(R26). The two low bits are dropped. -/
def wordIndex (a : Word) : Nat := a.toNat / 4

/-- The word with index `k`. -/
def Memory.read : Memory → Nat → Word
  | [], _ => Memory.unlisted
  | (a, v) :: rest, k => if k = a then v else Memory.read rest k

/-- Set the word with index `k`, keeping the canonical form. -/
def Memory.write : Memory → Nat → Word → Memory
  | [], k, v => if v = Memory.unlisted then [] else [(k, v)]
  | (a, w) :: rest, k, v =>
    if k < a then
      if v = Memory.unlisted then (a, w) :: rest else (k, v) :: (a, w) :: rest
    else if k = a then
      if v = Memory.unlisted then rest else (k, v) :: rest
    else (a, w) :: Memory.write rest k v

/-- `MemRead(a, 4)` (R71). -/
def memRead (s : State) (a : Word) : Except Cause Word :=
  if wordIndex a < s.params.dmemWords then .ok (s.dmem.read (wordIndex a))
  else .error (.memIndexOutOfRange a)

/-- `MemWrite(a, 4, v)` (R72). -/
def memWrite (s : State) (a : Word) (v : Word) : Except Cause State :=
  if wordIndex a < s.params.dmemWords then .ok { s with dmem := s.dmem.write (wordIndex a) v }
  else .error (.memIndexOutOfRange a)

/-! ## Registers (R20, R21, R24) -/

/-- The value of register `i` as every reader sees it: register 0 is 0 (R21). -/
def State.reg (s : State) (i : Nat) : Word :=
  if i = 0 then 0 else s.regs.toList.getD i 0

/-- The register file with register `i` set. -/
def State.setReg (s : State) (i : Nat) (v : Word) : State :=
  { s with regs := s.regs.setIfInBounds i v }

/-- `x[i]`, the read port (R10, R24). -/
def regRead (s : State) (i : Nat) : Except Cause Word :=
  if i < Config.numRegs then .ok (s.reg i) else .error (.regIndexOutOfRange i)

/-- `x[i] <- v`, the write port (R10, R21, R24). -/
def regWrite (s : State) (i : Nat) (v : Word) : Except Cause State :=
  if i = 0 then .error .regZeroWrite
  else if i < Config.numRegs then .ok (s.setReg i v)
  else .error (.regIndexOutOfRange i)

/-! ## Return-address stack (R36) -/

/-- The stack holds `RAS_DEPTH` entries. -/
def rasFull (s : State) : Bool :=
  match s.params.rasDepth with
  | some d => decide (d ≤ s.ras.length)
  | none => false

/-- `RasPush(v)` (R36). -/
def rasPush (s : State) (v : Word) : Except Cause State :=
  if rasFull s then .error .stackOverflow else .ok { s with ras := s.ras ++ [v] }

/-- `RasPop()` (R36): the newest entry and the state without it. -/
def rasPop (s : State) : Except Cause (Word × State) :=
  match s.ras.getLast? with
  | none => .error .stackUnderflow
  | some v => .ok (v, { s with ras := s.ras.dropLast })

/-- `RasPeek()` (R36). -/
def rasPeek (s : State) : Except Cause Word :=
  match s.ras.getLast? with
  | none => .error .stackUnderflow
  | some v => .ok v

/-! ## Predictor (R216 to R218) -/

/-- `BtbIndex(p)` (R216). -/
def btbIndex (s : State) (p : Word) : Nat := wordIndex p % s.params.btbEntries

/-- The entry at index `k`. -/
def btbEntry (s : State) (k : Nat) : BtbEntry := s.btb.getD k BtbEntry.empty

/-- `BtbLookup(p)` (R217): the entry on a hit, nothing on a miss. -/
def btbLookup (s : State) (p : Word) : Option BtbEntry :=
  if (btbEntry s (btbIndex s p)).valid && decide ((btbEntry s (btbIndex s p)).tag = p) then
    some (btbEntry s (btbIndex s p))
  else none

/-- `BtbUpdate(p, t, taken)` (R218). -/
def btbUpdate (s : State) (p t : Word) (taken : Bool) : State :=
  if taken || (btbLookup s p).isSome then
    { s with btb := s.btb.set (btbIndex s p) { valid := true, tag := p, target := t, taken := taken } }
  else s

/-! ## The pc (R26, R180, R221) -/

/-- An instruction exists at the pc (R26, R171). -/
def fetchable (s : State) : Bool := decide (wordIndex s.pc < s.imem.length)

/-- `ApplyJump(j)` (R221). -/
def applyJump (s : State) (j : JumpIntent) : State :=
  match j.kind with
  | .direct => { s with pc := j.target }
  | .masked => { s with pc := (s.pc &&& 0xF0000000) ||| (j.target &&& 0x0FFFFFFF) }

/-! ## Instances -/

/-- `SetJump(I, kind, target)` (R150). -/
def Instance.setJump (inst : Instance) (kind : JumpKind) (target : Word) : Instance :=
  { inst with jump := some { kind := kind, target := target, taken := true } }

/-- `NewInstance` (R43, R172). The latches with no meaningful value are free values (log entry 6). -/
def Instance.fresh (i : Instr) (index seq : Nat) : Instance :=
  { instr := i, index := index, stage := .PF, seq := seq
    pcSnap := Config.unsetLatch .pcSnap seq
    dest := none
    result := Config.unsetLatch .result seq
    fwd := none, cleanup := false, jump := none
    addr := Config.unsetLatch .addr seq
    sdata := Config.unsetLatch .sdata seq
    link := Config.unsetLatch .link seq
    fall := Config.unsetLatch .fall seq
    btarget := Config.unsetLatch .btarget seq
    pred := Config.unsetPred seq }

/-- The fault record of a cause raised by an instance (R252). -/
def Cause.toFault (inst : Instance) : Cause → Fault
  | .regZeroWrite => .regZeroWrite inst.seq inst.index
  | .regIndexOutOfRange i => .regIndexOutOfRange i
  | .memIndexOutOfRange a => .memIndexOutOfRange a inst.seq inst.index
  | .stackUnderflow => .stackUnderflow inst.seq inst.index
  | .stackOverflow => .stackOverflow inst.seq inst.index

/-- `next` on the stage counter (R12). -/
def Stage.next : Stage → Option Stage
  | .PF => some .F
  | .F => some .D
  | .D => some .E
  | .E => some .M
  | .M => some .W
  | .W => none

/-! ## Faults (R254, R257) -/

/-- Taking a fault (R254): the `fault` register is set to the record and nothing else of the state changes. The
cycle in progress is abandoned by whoever called; no later cycle is performed (`oneCycle`). There is no handler, no
saved pc and no return (R257): only reset clears the register. -/
def State.raise (s : State) (f : Fault) : State := { s with fault := some f }

/-! ## Driving an instruction (R110) -/

/-- A stage function of an instruction. -/
abbrev StageFn := State → Instance → StageResult

/-- The issue step for instruction `i` (R172): a new instance at the tail of the window. -/
def State.issue (s : State) (i : Instr) : State :=
  { s with
    window := s.window ++ [Instance.fresh i (wordIndex s.pc) s.nextSeq]
    nextSeq := s.nextSeq + 1 }

/-- Put an instance under the sweep, before its stage function is called. -/
def State.visit (s : State) (inst : Instance) : State :=
  { s with wires := { s.wires with visiting := some inst, status := .done } }

/-- What a stage function's answer leaves (R11): on `Done` its state with the instance as it left it; on `NotReady`
nothing but the status (R113); on a fault the fault taken. -/
def State.land (s : State) : StageResult → State
  | .done inst t => t.visit inst
  | .notReady => { s with wires := { s.wires with status := .notReady } }
  | .raise f => s.raise f

/-- A stage with nothing to do (R110). -/
def idleStage : StageFn := fun s inst => .done inst s

/-- `Fetch(I)` (R111). -/
def fetchStage : StageFn := fun s inst => .done { inst with pcSnap := s.pc } s

/-- `Writeback(I)` for every opcode but `lw` (R117). -/
def writebackStage : StageFn := fun s inst =>
  match inst.dest with
  | none => .done inst s
  | some d =>
    match regWrite s d inst.result with
    | .ok t => .done { inst with cleanup := true } t
    | .error c => .raise (c.toFault inst)

/-- `Writeback(I)` for `lw`, which also publishes the loaded value (R117, R141). -/
def writebackPublishing : StageFn := fun s inst =>
  match inst.dest with
  | none => .done inst s
  | some d =>
    match regWrite s d inst.result with
    | .ok t => .done { inst with fwd := some inst.result, cleanup := true } t
    | .error c => .raise (c.toFault inst)

/-- The next of the six steps of an instruction's life (R12, R110): its creation (R172) when no instance is
being visited, else the stage function that follows the visited instance's stage counter. Fetch is the same for
every opcode (R111); the other four stage functions are the instruction's own. -/
def drive (i : Instr) (decode execute memory writeback : StageFn) (s : State) :
    Host.Outcome State Fault Refusal :=
  match s.wires.visiting with
  | none => .next (s.issue i)
  | some inst =>
    match inst.stage with
    | .PF => .next (s.land (fetchStage s inst))
    | .F => .next (s.land (decode s inst))
    | .D => .next (s.land (execute s inst))
    | .E => .next (s.land (memory s inst))
    | .M => .next (s.land (writeback s inst))
    | .W => .refused .noNextStage

end Sys2Proof.Machine
end

