-- ==== Sys2Proof/Machine/Flags.lean ====
section
/-! DEFINITION. Compare results. The machine has no flags, no condition codes and no predicate registers (R29): a
compare writes 1 or 0 to a general register (`slt`) or is consumed inside the instruction (`ble`). -/

namespace Sys2Proof.Machine

/-- `signed(a) < signed(b)` (R130, R133). -/
def signedLess (a b : Word) : Bool := decide (a.toInt < b.toInt)

/-- `signed(a) <= signed(b)` (R156). -/
def signedLessEq (a b : Word) : Bool := decide (a.toInt ≤ b.toInt)

/-- The result of `slt`: 1 or 0 (R133). -/
def sltValue (a b : Word) : Word := if signedLess a b then 1 else 0

end Sys2Proof.Machine
end

