-- ==== Sys2Proof/Machine/Operands.lean ====
section
/-! DEFINITION. The operand forms: a register through the hazard-checked read `Acquire` (R112), the effective address
(R140), the branch target and fall-through address (R89), the return address (R152, R154). -/

namespace Sys2Proof.Machine

/-- What `Acquire` answers (R112); a register read outside the file raises (R24). -/
inductive Acquired where
  | ready (v : Word)
  | notReady
  | raise (c : Cause)
  deriving DecidableEq, Repr

/-- The entry of the forward map for register `r`, if it has one (R47). -/
def forwarded (s : State) (r : Nat) : Option Word := s.wires.forward.lookup r

/-- `Acquire(r)` (R112). -/
def acquire (s : State) (r : Nat) : Acquired :=
  if r ∈ s.wires.awaiting then
    match forwarded s r with
    | some v => .ready v
    | none => .notReady
  else
    match regRead s r with
    | .ok v => .ready v
    | .error c => .raise c

/-- A stage that needs one register (R113). -/
def withReg (s : State) (inst : Instance) (r : Nat) (k : Word → StageResult) : StageResult :=
  match acquire s r with
  | .ready a => k a
  | .notReady => .notReady
  | .raise c => .raise (c.toFault inst)

/-- A stage that needs two registers acquires both before it does anything, and waits if either is not ready
(R113). The first is acquired first, so its fault is the one raised (log entry 8). -/
def withRegs (s : State) (inst : Instance) (r q : Nat) (k : Word → Word → StageResult) : StageResult :=
  match acquire s r, acquire s q with
  | .raise c, _ => .raise (c.toFault inst)
  | _, .raise c => .raise (c.toFault inst)
  | .ready a, .ready b => k a b
  | _, _ => .notReady

/-- `EA = (base + imm) mod 2^32` (R90, R140). -/
def effectiveAddress (base imm : Word) : Word := base + imm

/-- The address of the instruction after the one fetched at `p`: the return address of `jal` and `call` and the
fall-through address of `ble` (R89, R152, R154). -/
def nextAddress (p : Word) : Word := p + 4

/-- `PC + ((immediate + 1) << 2)` (R89). -/
def branchTarget (p imm : Word) : Word := p + ((imm + 1) <<< 2)

end Sys2Proof.Machine
end

