-- ==== Sys2Proof/Machine/Arithmetic.lean ====
section
/-! DEFINITION. `nop`, `add`, `addi`, `slt`, `xor` (41_arithmetic.md). -/

namespace Sys2Proof.Machine

/-- Execute of the ALU shape (R136): the result and the destination are latched. -/
def aluResult (s : State) (inst : Instance) (d : Nat) (v : Word) : StageResult :=
  .done { inst with result := v, dest := some d } s

/-- Memory of the ALU shape (R136): the result is published. -/
def publishResult : StageFn := fun s inst => .done { inst with fwd := some inst.result } s

/-- `nop` (R135): nothing at any stage. -/
def execNop (s : State) : Host.Outcome State Fault Refusal :=
  drive .nop idleStage idleStage idleStage writebackStage s

/-- Execute of `add` (R131). -/
def addExecute (rd rs rt : Nat) : StageFn := fun s inst =>
  withRegs s inst rs rt fun a b => aluResult s inst rd (a + b)

/-- `add` (R131): `x[rd] <- x[rs] + x[rt]`. -/
def execAdd (rd rs rt : Nat) (s : State) : Host.Outcome State Fault Refusal :=
  drive (.add rd rs rt) idleStage (addExecute rd rs rt) publishResult writebackStage s

/-- Execute of `xor` (R134). -/
def xorExecute (rd rs rt : Nat) : StageFn := fun s inst =>
  withRegs s inst rs rt fun a b => aluResult s inst rd (a ^^^ b)

/-- `xor` (R134): `x[rd] <- x[rs] xor x[rt]`. -/
def execXor (rd rs rt : Nat) (s : State) : Host.Outcome State Fault Refusal :=
  drive (.xor rd rs rt) idleStage (xorExecute rd rs rt) publishResult writebackStage s

/-- Execute of `slt` (R133). -/
def sltExecute (rd rs rt : Nat) : StageFn := fun s inst =>
  withRegs s inst rs rt fun a b => aluResult s inst rd (sltValue a b)

/-- `slt` (R133): `x[rd] <- 1 if signed(x[rs]) < signed(x[rt]) else 0`. -/
def execSlt (rd rs rt : Nat) (s : State) : Host.Outcome State Fault Refusal :=
  drive (.slt rd rs rt) idleStage (sltExecute rd rs rt) publishResult writebackStage s

/-- Execute of `addi` (R132): one register is acquired. -/
def addiExecute (rt rs : Nat) (imm : Word) : StageFn := fun s inst =>
  withReg s inst rs fun a => aluResult s inst rt (a + imm)

/-- `addi` (R132): `x[rt] <- x[rs] + imm`. -/
def execAddi (rt rs : Nat) (imm : Word) (s : State) : Host.Outcome State Fault Refusal :=
  drive (.addi rt rs imm) idleStage (addiExecute rt rs imm) publishResult writebackStage s

end Sys2Proof.Machine
end

