-- ==== Sys2Proof/Machine/Control.lean ====
section
/-! DEFINITION. `j`, `jal`, `jr`, `call`, `return`, `ble` (43_control_transfer.md). None of them writes the pc: each
records a jump intent, and the engine honors it (R150, R177). -/

namespace Sys2Proof.Machine

/-- Decode of `j` (R151). -/
def jDecode (target : Word) : StageFn := fun s inst => .done (inst.setJump .masked target) s

/-- `j` (R151). -/
def execJ (target : Word) (s : State) : Host.Outcome State Fault Refusal :=
  drive (.j target) (jDecode target) idleStage idleStage writebackStage s

/-- Decode of `jal` (R152). -/
def jalDecode (target : Word) : StageFn := fun s inst =>
  .done ({ inst with link := nextAddress inst.pcSnap }.setJump .masked target) s

/-- Execute of `jal` (R152): the link value is the result and is published at once. -/
def jalExecute : StageFn := fun s inst =>
  .done { inst with dest := some Config.linkReg, result := inst.link, fwd := some inst.link } s

/-- `jal` (R152): `x[31] <- pc_snap + 4` and a jump. -/
def execJal (target : Word) (s : State) : Host.Outcome State Fault Refusal :=
  drive (.jal target) (jalDecode target) jalExecute idleStage writebackStage s

/-- Decode of `jr` (R153), the only decode stage that acquires a register. With two producers of it in flight the
stall counts R153 quotes from R205 can fail (log entry 19). -/
def jrDecode (rs : Nat) : StageFn := fun s inst =>
  withReg s inst rs fun t => .done (inst.setJump .direct t) s

/-- `jr` (R153). -/
def execJr (rs : Nat) (s : State) : Host.Outcome State Fault Refusal :=
  drive (.jr rs) (jrDecode rs) idleStage idleStage writebackStage s

/-- Decode of `call` (R154). -/
def callDecode (target : Word) : StageFn := fun s inst =>
  match rasPush s (nextAddress inst.pcSnap) with
  | .ok t => .done (inst.setJump .masked target) t
  | .error c => .raise (c.toFault inst)

/-- `call` (R154): the return address is pushed on the RAS, and a jump. -/
def execCall (target : Word) (s : State) : Host.Outcome State Fault Refusal :=
  drive (.call target) (callDecode target) idleStage idleStage writebackStage s

/-- Decode of `return` (R155). -/
def retDecode : StageFn := fun s inst =>
  match rasPop s with
  | .ok (t, u) => .done (inst.setJump .direct t) u
  | .error c => .raise (c.toFault inst)

/-- `return` (R155): a jump to the address popped from the RAS. -/
def execRet (s : State) : Host.Outcome State Fault Refusal :=
  drive .ret retDecode idleStage idleStage writebackStage s

/-- The instance of a `ble` with its two static addresses latched (R156). -/
def bleLatched (imm : Word) (inst : Instance) : Instance :=
  { inst with fall := nextAddress inst.pcSnap, btarget := branchTarget inst.pcSnap imm }

/-- Decode of `ble` (R156): a hit whose outcome bit is set predicts taken; anything else predicts not taken. -/
def bleDecode (imm : Word) : StageFn := fun s inst =>
  match btbLookup s inst.pcSnap with
  | some e =>
    if e.taken then .done ({ bleLatched imm inst with pred := true }.setJump .direct e.target) s
    else .done { bleLatched imm inst with pred := false } s
  | none => .done { bleLatched imm inst with pred := false } s

/-- The correction at execute (R156): nothing when the prediction was right, else a jump to where the program
goes on. -/
def bleCorrected (inst : Instance) (actual : Bool) : Instance :=
  if actual = inst.pred then inst
  else if actual then inst.setJump .direct inst.btarget
  else inst.setJump .direct inst.fall

/-- Execute of `ble` (R156): compare, correct, update the predictor. -/
def bleExecute (rs rt : Nat) : StageFn := fun s inst =>
  withRegs s inst rs rt fun a b =>
    .done (bleCorrected inst (signedLessEq a b)) (btbUpdate s inst.pcSnap inst.btarget (signedLessEq a b))

/-- `ble` (R156): taken when `signed(x[rs]) <= signed(x[rt])`. -/
def execBle (rs rt : Nat) (imm : Word) (s : State) : Host.Outcome State Fault Refusal :=
  drive (.ble rs rt imm) (bleDecode imm) (bleExecute rs rt) idleStage writebackStage s

end Sys2Proof.Machine
end

