-- ==== Sys2Proof/Machine/LoadStore.lean ====
section
/-! DEFINITION. `lw` and `sw` (42_load_store.md). -/

namespace Sys2Proof.Machine

/-- Execute of `lw` (R141): the address and the destination are latched. -/
def lwExecute (rt rs : Nat) (imm : Word) : StageFn := fun s inst =>
  withReg s inst rs fun a => .done { inst with addr := effectiveAddress a imm, dest := some rt } s

/-- Memory of `lw` (R141). -/
def lwMemory : StageFn := fun s inst =>
  match memRead s inst.addr with
  | .ok v => .done { inst with result := v } s
  | .error c => .raise (c.toFault inst)

/-- `lw` (R141): `x[rt] <- dmem[(x[rs] + imm) >> 2]`. -/
def execLw (rt rs : Nat) (imm : Word) (s : State) : Host.Outcome State Fault Refusal :=
  drive (.lw rt rs imm) idleStage (lwExecute rt rs imm) lwMemory writebackPublishing s

/-- Execute of `sw` (R142): the address and the data are latched; there is no destination. -/
def swExecute (rt rs : Nat) (imm : Word) : StageFn := fun s inst =>
  withRegs s inst rs rt fun a v => .done { inst with addr := effectiveAddress a imm, sdata := v } s

/-- Memory of `sw` (R142). -/
def swMemory : StageFn := fun s inst =>
  match memWrite s inst.addr inst.sdata with
  | .ok t => .done inst t
  | .error c => .raise (c.toFault inst)

/-- `sw` (R142): `dmem[(x[rs] + imm) >> 2] <- x[rt]`. -/
def execSw (rt rs : Nat) (imm : Word) (s : State) : Host.Outcome State Fault Refusal :=
  drive (.sw rt rs imm) idleStage (swExecute rt rs imm) swMemory writebackStage s

end Sys2Proof.Machine
end

