-- ==== Sys2Proof/Machine/Engine.lean ====
section
/-! DEFINITION. The pipeline engine: one clock cycle, `Cycle` of R183 (50_pipeline_engine.md), with the steps R171 to
R182 as functions in the order they are taken. -/

namespace Sys2Proof.Machine

/-! ## Termination test and issue (R171, R172) -/

/-- `Cycle` returns true: an instruction exists at the pc or the window is not empty (R171). -/
def hasWork (s : State) : Bool := fetchable s || !s.window.isEmpty

/-- The static instruction in a slot (R92): a word is decoded, a record stands as it is. -/
def slotInstr : Slot → Decoded
  | .word w => decodeWord w
  | .record i _ => .legal i

/-- The bits recorded when a slot holds no instruction (R251). -/
def slotWord : Slot → Word
  | .word w => w
  | .record i _ => encode i

/-- The issue step (R172): nothing when no instruction exists at the pc or the previous cycle stalled; else the
instruction at `index(pc)` is brought into the window by its `exec`, or `IllegalInstruction` is raised (R92). -/
def issueStep (s : State) : Host.Outcome State Fault Refusal :=
  if s.stalledPrev then .next s
  else
    match s.imem[wordIndex s.pc]? with
    | none => .next s
    | some slot =>
      match slotInstr slot with
      | .legal i => exec i s
      | .illegal => .next (s.raise (.illegalInstruction (slotWord slot) (wordIndex s.pc)))

/-- Clearing the hazard state and the per-cycle wires, and taking the snapshot (R173). -/
def State.clearHazards (s : State) : State := { s with wires := { Wires.idle with snapshot := s.window } }

/-! ## The sweep (R174 to R177) -/

/-- The forward map with `d` mapped to `v` (R176). -/
def forwardSet (m : List (Nat × Word)) (d : Nat) (v : Word) : List (Nat × Word) :=
  (d, v) :: m.filter fun e => e.1 != d

/-- The forward map without `d` (R176). -/
def forwardClear (m : List (Nat × Word)) (d : Nat) : List (Nat × Word) :=
  m.filter fun e => e.1 != d

/-- The hazard bookkeeping for an instance that advanced (R176): mark its destination, record its forwarded value,
and clear both if it asked for cleanup. A destination without a forwarded value leaves an older entry of the map as it
is (R183, R201; log entry 19 on R205, R206 and R283). -/
def hazardUpdate (w : Wires) (inst : Instance) : Wires :=
  match inst.dest with
  | none => w
  | some d =>
    if inst.cleanup then
      { w with awaiting := w.awaiting.filter (· != d), forward := forwardClear w.forward d }
    else
      { w with
        awaiting := d :: w.awaiting.filter (· != d)
        forward := match inst.fwd with
          | some v => forwardSet w.forward d v
          | none => w.forward }

/-- Honoring a jump (R177): the first taken intent of the sweep is applied to the pc, its `taken` flag is cleared
and the position of its instance is recorded; every other intent is ignored. -/
def honor (s : State) (k : Nat) (inst : Instance) : State :=
  match inst.jump with
  | none => s
  | some j =>
    if j.taken && !s.wires.jumped then
      let t := applyJump s j
      { t with
        window := t.window.set k { inst with jump := some { j with taken := false } }
        wires := { t.wires with jumped := true, cut := some k } }
    else s

/-- The bookkeeping after the instance at window position `k` advanced (R176): stage counter, trace event, hazard
state, and the instance back in its place in the window; then its jump (R177). -/
def settle (s : State) (k : Nat) (inst : Instance) (next : Stage) : State :=
  let inst' := { inst with stage := next }
  honor
    { s with
      window := s.window.set k inst'
      wires := { hazardUpdate s.wires inst' with
        events := s.wires.events ++ [{ stage := next, seq := inst.seq }]
        visiting := none } }
    k inst'

/-- A stage returned `NotReady` (R175). -/
def State.markStalled (s : State) : State :=
  { s with wires := { s.wires with stalled := true, visiting := none } }

/-- The sweep (R174): from window position `k` on, each instance of the snapshot runs its next stage, until one
stalls (R175) or raises (R254). An instance at stage W has no next stage and no sweep meets one (R174). -/
def sweep : List Instance → Nat → State → Host.Outcome State Fault Refusal
  | [], _, s => .next s
  | inst :: rest, k, s =>
    match exec inst.instr (s.visit inst) with
    | .next t =>
      match t.fault, t.wires.status, t.wires.visiting, inst.stage.next with
      | some _, _, _, _ => .next t
      | none, .notReady, _, _ => .next t.markStalled
      | none, .done, some inst', some next => sweep rest (k + 1) (settle t k inst' next)
      | none, .done, _, _ => .refused .noNextStage
    | .fault f => .fault f
    | .refused r => .refused r

/-! ## After the sweep (R178 to R182) -/

/-- The squash (R178). -/
def State.squash (s : State) : State :=
  match s.wires.jumped, s.wires.cut with
  | true, some k => { s with window := s.window.take (k + 1) }
  | _, _ => s

/-- Retirement (R179). The oldest instance of the snapshot is the head of the window, which no squash removes. -/
def State.retire (s : State) : State :=
  match s.window with
  | [] => s
  | inst :: rest => if inst.stage = .W then { s with window := rest } else s

/-- The sequential pc advance (R180). -/
def State.advancePc (s : State) : State :=
  if !s.wires.jumped && !s.wires.stalled && fetchable s then { s with pc := s.pc + 4 } else s

/-- The stall memory, the trace entry and the cycle counter (R181, R182); the wires cease to exist (R49). -/
def State.endCycle (s : State) : State :=
  { s with
    stalledPrev := s.wires.stalled && !s.wires.jumped
    trace := s.trace ++ [s.wires.events]
    cycle := s.cycle + 1
    wires := Wires.idle }

/-- What follows a sweep in which nothing was raised (R178 to R182). -/
def State.finish (s : State) : State := s.squash.retire.advancePc.endCycle

/-- The rest of a cycle after the issue step (R173 to R182). A fault abandons it (R254). -/
def afterIssue (s : State) : Host.Outcome State Fault Refusal :=
  match s.fault with
  | some _ => .next s
  | none =>
    match sweep s.window 0 s.clearHazards with
    | .next t => .next (if t.fault.isSome then t else t.finish)
    | .fault f => .fault f
    | .refused r => .refused r

/-- `Cycle` (R183). A machine that holds a fault performs no cycle (R170, R254); one with no work changes nothing
(R171). -/
def oneCycle (s : State) : Host.Outcome State Fault Refusal :=
  match s.fault with
  | some f => .fault f
  | none =>
    if hasWork s then
      match issueStep { s with wires := Wires.idle } with
      | .next t => afterIssue t
      | .fault f => .fault f
      | .refused r => .refused r
    else .next s

/-! ## Placing one word (log entry 10) -/

/-- The program with slot `k` set; slots that did not exist below it hold `nop` words. -/
def placeSlot (imem : List Slot) (k : Nat) (slot : Slot) : List Slot :=
  imem.take k ++ List.replicate (k - imem.length) (.word 0) ++ [slot] ++ imem.drop (k + 1)

end Sys2Proof.Machine
end

