-- ==== Sys2Proof/Machine/Step.lean ====
section
/-! DEFINITION. The step of the machine: one clock cycle (R170, R183). -/

namespace Sys2Proof.Machine

/-- One call of `Cycle` (R183). Whether it did work, the boolean it returns, is `hasWork` (R171). -/
def step (s : State) : Host.Outcome State Fault Refusal := oneCycle s

/-- `s` with the instruction whose bits are `w` in the slot the next issue step reads, and free to issue it: no
pending fault and no stall of the previous cycle (log entry 10). -/
def State.withFetchWord (s : State) (nbits w : Nat) : State :=
  { s with
    imem := placeSlot s.imem (wordIndex s.pc) (.word (BitVec.ofNat 32 (w % 2 ^ nbits)))
    stalledPrev := false
    fault := none }

end Sys2Proof.Machine
end

