-- ==== Sys2Proof/Machine/HostPort.lean ====
section
/-! DEFINITION. The host surface (53_host_interface.md): load, step, inspection and mutation, between cycles only
(R236). A rejected access changes nothing, is reported with its cause and does not set the `fault` register (R232).
The predictor, the window, `stalled_prev` and the counters have no write here, the predictor no read (R48, R236). -/

namespace Sys2Proof.Machine

/-- Why the host is refused before anything is done. -/
inductive HostRefusal where
  /-- The program holds words that are no instructions; it is refused as a whole, with every such word and its
  index, in program order (R92, R230). That the report is this list is the model's choice (log entry 21). -/
  | illegalProgram (words : List (Word × Nat))
  /-- A load after the first cycle needs a reset first (R230). -/
  | loadAfterStart
  /-- A program is loaded already; only a reset makes room for another (R70, R270; log entry 14). -/
  | reloadWithoutReset
  /-- `PROG_LEN` would exceed 2^30 (R5). -/
  | programTooLong
  deriving DecidableEq, Repr

/-- What a host operation answers. -/
inductive HostReply (α : Type) where
  | done (a : α)
  /-- The access is rejected and reported; no state changes (R232, D39). -/
  | rejected (c : Cause)
  | refused (r : HostRefusal)
  deriving DecidableEq, Repr

/-- The code under which a rejection is reported (R252). -/
def Cause.code : Cause → Nat
  | .regZeroWrite => 1
  | .regIndexOutOfRange _ => 2
  | .memIndexOutOfRange _ => 3
  | .stackUnderflow => 4
  | .stackOverflow => 5

/-- A primitive's answer as the host sees it (R232). -/
def HostReply.ofPrimitive {α : Type} : Except Cause α → HostReply α
  | .ok a => .done a
  | .error c => .rejected c

/-! ## Reset and load (R230, R270) -/

/-- Reset (R270): every piece of state at its reset value, the instruction store empty. -/
def hostReset (s : State) : State := State.resetWith s.params

/-- No cycle has been attempted since reset (R230; log entry 14). -/
def beforeFirstCycle (s : State) : Bool :=
  decide (s.cycle = 0) && decide (s.nextSeq = 0) && decide (s.fault = none)

/-- Put instructions into the instruction store, if it may be loaded now (R230, R5). -/
def loadSlots (s : State) (imem : List Slot) : HostReply State :=
  if !beforeFirstCycle s then .refused .loadAfterStart
  else if 2 ^ 30 < imem.length then .refused .programTooLong
  else .done { s with imem := imem }

/-- `Load(program)` of a whole program (R230). Over a program that is loaded already it is a reload, which needs a
reset (R70, R270, D8). That it is so before the first cycle too, where R230 alone would allow a second load, is the
model's choice (log entry 14). -/
def loadProgram (s : State) (imem : List Slot) : HostReply State :=
  if beforeFirstCycle s && !s.imem.isEmpty then .refused .reloadWithoutReset
  else loadSlots s imem

/-- The words of a program that are no instructions, with their indices, counting from `k`: all of them, "collected,
and surfaced in batch" (R92, R230). -/
def illegalWords : List Word → Nat → List (Word × Nat)
  | [], _ => []
  | w :: rest, k =>
    match decodeWord w with
    | .legal _ => illegalWords rest (k + 1)
    | .illegal => (w, k) :: illegalWords rest (k + 1)

/-- `Load(program)` of words: each is decoded, and one illegal word refuses the whole program (R92, R230). -/
def hostLoadWords (s : State) (words : List Word) : HostReply State :=
  match illegalWords words 0 with
  | [] => loadProgram s (words.map .word)
  | bad => .refused (.illegalProgram bad)

/-- A load that does not check its words; an illegal one raises at issue (R92, R251). -/
def hostLoadUnchecked (s : State) (words : List Word) : HostReply State := loadProgram s (words.map .word)

/-- `Load(program)` of decoded records with their source text (R41, R80, R230). No field of a record is checked: a
record that no word gives is accepted and run as it stands, so a `j`, `jal` or `call` whose target is not a multiple of
4 (outside R88) can misalign the pc too, beside the ways R62 names. The spec is silent on such a load; this is the
model's choice (DESIGN CHOICE, log entry 22; register indices: log entry 8). -/
def hostLoadRecords (s : State) (records : List (Instr × String)) : HostReply State :=
  loadProgram s (records.map fun r => .record r.1 r.2)

/-- Loading one at a time appends and increments `PROG_LEN` (R230). An illegal word is refused by itself, and what was
appended before it stays loaded: the model's choice, since R230 says what is refused only of a program given whole (log
entry 21). -/
def hostLoadOne (s : State) (slot : Slot) : HostReply State :=
  match slotInstr slot with
  | .legal _ => loadSlots s (s.imem ++ [slot])
  | .illegal => .refused (.illegalProgram [(slotWord slot, s.imem.length)])

/-! ## Step (R231) -/

/-- What `Step()` answers (R171, R231, R254). -/
inductive StepReply where
  /-- True: a cycle was performed. -/
  | worked (s : State)
  /-- False: there was no work, and nothing changed. -/
  | noWork (s : State)
  /-- A fault ended the run in this cycle. -/
  | faulted (f : Fault) (s : State)
  /-- The run had ended with this fault; `Step()` refuses. -/
  | ended (f : Fault)
  /-- The model has no next state (`Refusal.noNextStage`). -/
  | noMeaning (r : Refusal)
  deriving DecidableEq, Repr

/-- `Step()` (R231): `Cycle` and its boolean. -/
def hostStep (s : State) : StepReply :=
  match step s with
  | .next t =>
    match t.fault with
    | some f => .faulted f t
    | none => if hasWork s then .worked t else .noWork t
  | .fault f => .ended f
  | .refused r => .noMeaning r

/-! ## Registers, memory, pc, stack (R232 to R235) -/

/-- `ReadReg(i)` (R232). -/
def hostReadReg (s : State) (i : Nat) : HostReply Word := .ofPrimitive (regRead s i)

/-- `WriteReg(i, v)` (R232). -/
def hostWriteReg (s : State) (i : Nat) (v : Word) : HostReply State := .ofPrimitive (regWrite s i v)

/-- `ReadMem(a)` (R233). -/
def hostReadMem (s : State) (a : Word) : HostReply Word := .ofPrimitive (memRead s a)

/-- `WriteMem(a, v)` (R233). -/
def hostWriteMem (s : State) (a v : Word) : HostReply State := .ofPrimitive (memWrite s a v)

/-- `ReadPc()` (R234). -/
def hostReadPc (s : State) : Word := s.pc

/-- `ReadPcIndex()` (R234). -/
def hostReadPcIndex (s : State) : Nat := wordIndex s.pc

/-- `WritePc(v)` (R234): any value is accepted. -/
def hostWritePc (s : State) (v : Word) : State := { s with pc := v }

/-- `Push(v)` (R235). -/
def hostPush (s : State) (v : Word) : HostReply State := .ofPrimitive (rasPush s v)

/-- `Pop()` (R235). -/
def hostPop (s : State) : HostReply (Word × State) := .ofPrimitive (rasPop s)

/-- `Peek()` (R235). -/
def hostPeek (s : State) : HostReply Word := .ofPrimitive (rasPeek s)

/-! ## The engine's own registers, the window and the trace (R30, R236, R259) -/

/-- `cycle` (R31). -/
def hostReadCycle (s : State) : Nat := s.cycle

/-- `next_seq` (R32, R259). -/
def hostReadNextSeq (s : State) : Nat := s.nextSeq

/-- `stalled_prev` (R30, R33). -/
def hostReadStalledPrev (s : State) : Bool := s.stalledPrev

/-- `fault` (R30, R34). -/
def hostReadFault (s : State) : Option Fault := s.fault

/-- The window as the host sees it: each instance's `seq`, `stage` and `index` (R236). -/
def hostReadWindow (s : State) : List (Nat × Stage × Nat) :=
  s.window.map fun inst => (inst.seq, inst.stage, inst.index)

/-- The trace (R240). -/
def hostReadTrace (s : State) : List (List Event) := s.trace

end Sys2Proof.Machine
end

