-- ==== Sys2Proof/Safety.lean ====
section
/-! DEFINITION. What counts as a good state and a finished run, in the terms the statements use. -/

namespace Sys2Proof.Machine

/-- How many stages an instance has completed (R12). -/
def Stage.rank : Stage → Nat
  | .PF => 0
  | .F => 1
  | .D => 2
  | .E => 3
  | .M => 4
  | .W => 5

/-- The destination register of an instruction (R115). -/
def destOf : Instr → Option Nat
  | .add rd _ _ => some rd
  | .xor rd _ _ => some rd
  | .slt rd _ _ => some rd
  | .addi rt _ _ => some rt
  | .lw rt _ _ => some rt
  | .jal _ => some Config.linkReg
  | .nop => none
  | .jr _ => none
  | .j _ => none
  | .ble _ _ _ => none
  | .sw _ _ _ => none
  | .call _ => none
  | .ret => none

/-- The sweep is about to call a stage function of `inst`, which has completed `stage`. -/
def State.visits (s : State) (inst : Instance) (stage : Stage) : Prop :=
  s.wires.visiting = some inst ∧ inst.stage = stage

/-- Register `r` can be acquired with value `v` now (R112). -/
def State.gives (s : State) (r : Nat) (v : Word) : Prop := acquire s r = .ready v

/-- Between two cycles of a run that goes on (R42, R49, R174, R177): the wires are idle, at most four instances are
left, none has completed writeback, one is left unfetched only behind a stall, and no intent is still to be honored. -/
structure State.BetweenCycles (s : State) : Prop where
  wires_idle : s.wires = Wires.idle
  window_four : s.window.length ≤ 4
  none_retired : ∀ inst ∈ s.window, inst.stage ≠ .W
  fetched : s.stalledPrev = false → ∀ inst ∈ s.window, inst.stage ≠ .PF
  honored : ∀ inst ∈ s.window, ∀ j, inst.jump = some j → j.taken = false

/-- The shape every step keeps: sizes, the canonical form of memory, program order in the window, one trace entry a
cycle. -/
structure State.Inv (s : State) : Prop where
  params_valid : s.params.valid = true
  dmem_wf : Memory.wf s.dmem = true
  dmem_range : ∀ c ∈ s.dmem, c.1 < s.params.dmemWords
  ras_bound : ∀ d, s.params.rasDepth = some d → s.ras.length ≤ d
  btb_length : s.btb.length = s.params.btbEntries
  imem_length : s.imem.length ≤ 2 ^ 30
  window_five : s.window.length ≤ 5
  stages_fall : s.window.Pairwise fun older younger => younger.stage.rank < older.stage.rank
  seqs_rise : s.window.Pairwise fun older younger => older.seq < younger.seq
  seqs_used : ∀ inst ∈ s.window, inst.seq < s.nextSeq
  trace_length : s.trace.length = s.cycle
  between : s.fault = none → s.BetweenCycles

/-- What an instance in flight owes to the program (R41, R43, R89, R111): it is a copy of the instruction at its
index, which is the index of the pc until it is fetched and of its own pc copy from then on; and a `ble` past its
decode stage holds its computed target. -/
structure InstanceOfProgram (s : State) (inst : Instance) : Prop where
  copied : ∃ slot, s.imem[inst.index]? = some slot ∧ slotInstr slot = .legal inst.instr
  unfetched : inst.stage = .PF → inst.index = wordIndex s.pc
  fetched : inst.stage ≠ .PF → inst.index = wordIndex inst.pcSnap
  target : ∀ rs rt imm, inst.instr = .ble rs rt imm → inst.stage ≠ .PF → inst.stage ≠ .F →
    inst.btarget = branchTarget inst.pcSnap imm

/-- A valid predictor entry holds the computed target of the `ble` at its tag (R224). -/
def BtbEntry.sound (imem : List Slot) (e : BtbEntry) : Prop :=
  e.valid = true → ∃ slot rs rt imm, imem[wordIndex e.tag]? = some slot ∧
    slotInstr slot = .legal (.ble rs rt imm) ∧ e.target = branchTarget e.tag imm

/-- The invariant behind R224. -/
structure State.PredictorInv (s : State) : Prop where
  entries : ∀ e ∈ s.btb, e.sound s.imem
  instances : s.fault = none → ∀ inst ∈ s.window, InstanceOfProgram s inst

/-- The invariant behind R188: the pc is the address after the one instance that waits for its decode stage. -/
def State.PcFollowsFetch (s : State) : Prop :=
  s.fault = none → ∀ inst ∈ s.window, inst.stage = .F → s.pc = inst.pcSnap + 4

/-- Every static instruction is a word (R82). -/
def State.programOfWords (s : State) : Prop := ∀ slot ∈ s.imem, ∃ w, slot = .word w

/-- Every instance in flight came from a word: its fields fit, and its destination is its opcode's (R24, R115). -/
def State.inFlightFromWords (s : State) : Prop :=
  ∀ inst ∈ s.window, inst.instr.wellFormed = true ∧ (inst.dest = none ∨ inst.dest = destOf inst.instr)

/-- In the cycle that begins in `s` the sweep comes past the instances `older` with the state `v`: the issue step and
their stages took place and raised nothing (R172 to R177). -/
def State.sweepsPast (s : State) (older : List Instance) (v : State) : Prop :=
  ∃ u, issueStep { s with wires := Wires.idle } = .next u ∧ u.fault = none ∧
    sweep older 0 u.clearHazards = .next v ∧ v.fault = none

/-- A run that has not ended, with nothing in flight (R53, R171). -/
def State.drained (s : State) : Prop := s.fault = none ∧ s.window = [] ∧ s.stalledPrev = false

/-- The instruction at the pc is `i`. -/
def State.at (s : State) (i : Instr) : Prop :=
  ∃ slot, s.imem[wordIndex s.pc]? = some slot ∧ slotInstr slot = .legal i

/-- The program ends after the `n` instructions from the pc on, below the highest address (R28, R287). -/
def State.programEndsAfter (s : State) (n : Nat) : Prop :=
  s.imem.length = wordIndex s.pc + n ∧ wordIndex s.pc + n < 2 ^ 30

/-- `n` steps, stopping at the first that answers no next state. -/
def runSteps : Nat → State → Host.Outcome State Fault Refusal
  | 0, s => .next s
  | n + 1, s =>
    match step s with
    | .next t => runSteps n t
    | .fault f => .fault f
    | .refused r => .refused r

/-- The trace of one instance alone in the pipeline (95_test_vectors.md A8). -/
def loneTrace (seq : Nat) : List (List Event) :=
  [[⟨.F, seq⟩], [⟨.D, seq⟩], [⟨.E, seq⟩], [⟨.M, seq⟩], [⟨.W, seq⟩]]

/-- What five cycles leave besides the instruction's own effect (R187). -/
def State.afterLoneRun (s : State) (pc : Word) : State :=
  { s with
    pc := pc
    cycle := s.cycle + 5
    nextSeq := s.nextSeq + 1
    trace := s.trace ++ loneTrace s.nextSeq
    wires := Wires.idle }

end Sys2Proof.Machine
end

