-- ==== Sys2Proof/Certificates/Slice0/Obligations.lean ====
section
/-! DEFINITION. The statements about the machine, from the numbered rules of spec/. -/

open Sys2Proof Sys2Proof.Machine

/-! ## Encoding (30_encoding.md) -/

/-- R99: every record whose fields are in range is read back from its word. -/
def Obligations.DecodeInvertsEncode : Prop :=
  ∀ i : Instr, i.wellFormed = true → decodeWord (encode i) = .legal i

/-- R41, R83 to R93, R99: a legal word is the word of the record it decodes to, and that record's fields fit their
places; no bit of a legal word is dropped. -/
def Obligations.EncodeInvertsDecode : Prop :=
  ∀ (w : Word) (i : Instr), decodeWord w = .legal i → i.wellFormed = true ∧ encode i = w

/-- R91 and R92: the instruction of a word is told by the match and mask of the opcode map, and a word of no row is
illegal. -/
def Obligations.DecodeFollowsMatchAndMask : Prop :=
  ∀ w : Word,
    (w &&& 0xFFFFFFFF = 0x00000000 → decodeWord w = .legal .nop) ∧
    (w &&& 0xFC0007FF = 0x00000020 → ∃ rd rs rt, decodeWord w = .legal (.add rd rs rt)) ∧
    (w &&& 0xFC0007FF = 0x00000026 → ∃ rd rs rt, decodeWord w = .legal (.xor rd rs rt)) ∧
    (w &&& 0xFC0007FF = 0x0000002A → ∃ rd rs rt, decodeWord w = .legal (.slt rd rs rt)) ∧
    (w &&& 0xFC1FFFFF = 0x00000008 → ∃ rs, decodeWord w = .legal (.jr rs)) ∧
    (w &&& 0xFC000000 = 0x08000000 → ∃ t, decodeWord w = .legal (.j t)) ∧
    (w &&& 0xFC000000 = 0x0C000000 → ∃ t, decodeWord w = .legal (.jal t)) ∧
    (w &&& 0xFC000000 = 0x18000000 → ∃ rs rt imm, decodeWord w = .legal (.ble rs rt imm)) ∧
    (w &&& 0xFC000000 = 0x20000000 → ∃ rt rs imm, decodeWord w = .legal (.addi rt rs imm)) ∧
    (w &&& 0xFC000000 = 0x8C000000 → ∃ rt rs imm, decodeWord w = .legal (.lw rt rs imm)) ∧
    (w &&& 0xFC000000 = 0xAC000000 → ∃ rt rs imm, decodeWord w = .legal (.sw rt rs imm)) ∧
    (w &&& 0xFC000000 = 0xF8000000 → ∃ t, decodeWord w = .legal (.call t)) ∧
    (w &&& 0xFFFFFFFF = 0xFC000000 → decodeWord w = .legal .ret) ∧
    (w ≠ 0x00000000 → w &&& 0xFC0007FF ≠ 0x00000020 → w &&& 0xFC0007FF ≠ 0x00000026 →
      w &&& 0xFC0007FF ≠ 0x0000002A → w &&& 0xFC1FFFFF ≠ 0x00000008 → w &&& 0xFC000000 ≠ 0x08000000 →
      w &&& 0xFC000000 ≠ 0x0C000000 → w &&& 0xFC000000 ≠ 0x18000000 → w &&& 0xFC000000 ≠ 0x20000000 →
      w &&& 0xFC000000 ≠ 0x8C000000 → w &&& 0xFC000000 ≠ 0xAC000000 → w &&& 0xFC000000 ≠ 0xF8000000 →
      w ≠ 0xFC000000 → decodeWord w = .illegal)

/-- Words of 95_test_vectors.md B1, one for every instruction. -/
def Obligations.SampleWordsDecode : Prop :=
  decodeTableWord 32 0x00000000 = some .nop ∧
  decodeTableWord 32 0x00430820 = some (.add 1 2 3) ∧
  decodeTableWord 32 0x00430826 = some (.xor 1 2 3) ∧
  decodeTableWord 32 0x0043082A = some (.slt 1 2 3) ∧
  decodeTableWord 32 0x03E00008 = some (.jr 31) ∧
  decodeTableWord 32 0x08000004 = some (.j 16) ∧
  decodeTableWord 32 0x0C000002 = some (.jal 8) ∧
  decodeTableWord 32 0x1822FFFE = some (.ble 1 2 0xFFFFFFFE) ∧
  decodeTableWord 32 0x2021FFF9 = some (.addi 1 1 0xFFFFFFF9) ∧
  decodeTableWord 32 0x8C410008 = some (.lw 1 2 8) ∧
  decodeTableWord 32 0xAC41FFFC = some (.sw 1 2 0xFFFFFFFC) ∧
  decodeTableWord 32 0xF8000003 = some (.call 12) ∧
  decodeTableWord 32 0xFC000000 = some .ret ∧
  decodeTableWord 32 0x00000060 = none ∧
  decodeTableWord 32 0x00010008 = none ∧
  decodeTableWord 32 0xFC000001 = none

/-! ## Reset and shape (R53, R270, R271; the invariants) -/

/-- R53, for every choice of the open parameters. -/
def Obligations.ResetLeavesTheTableOfValues : Prop :=
  ∀ p : Config.Params,
    (∀ i, (State.resetWith p).reg i = 0) ∧
    (State.resetWith p).pc = 0 ∧
    (∀ k, (State.resetWith p).dmem.read k = 0) ∧
    (State.resetWith p).ras = [] ∧
    (State.resetWith p).btb.length = p.btbEntries ∧
    (∀ e ∈ (State.resetWith p).btb, e.valid = false ∧ e.tag = 0 ∧ e.target = 0 ∧ e.taken = false) ∧
    (State.resetWith p).imem = [] ∧
    (State.resetWith p).window = [] ∧
    (State.resetWith p).stalledPrev = false ∧
    (State.resetWith p).cycle = 0 ∧
    (State.resetWith p).nextSeq = 0 ∧
    (State.resetWith p).fault = none ∧
    (State.resetWith p).trace = [] ∧
    (State.resetWith p).wires.awaiting = [] ∧
    (State.resetWith p).wires.forward = []

/-- R271: a step after reset and before a load answers false and changes nothing (the boolean is `hostStep`'s, log
entry 13). -/
def Obligations.StepBeforeLoadChangesNothing : Prop :=
  ∀ p : Config.Params, step (State.resetWith p) = .next (State.resetWith p) ∧
    hostStep (State.resetWith p) = .noWork (State.resetWith p)

/-- The invariants hold after reset, for every valid choice of the parameters. -/
def Obligations.ResetMeetsTheInvariants : Prop :=
  ∀ p : Config.Params, p.valid = true →
    (State.resetWith p).Inv ∧ (State.resetWith p).PredictorInv ∧ (State.resetWith p).PcFollowsFetch

/-- Every step, with no host edit between steps (log entry 16), keeps the shape: sizes, canonical memory, at most
five instances in strict program order with falling stages (R185, R186), one trace entry a cycle (R182). -/
def Obligations.StepKeepsTheShape : Prop :=
  ∀ s t : State, s.Inv → step s = .next t → t.Inv

/-- R224 (log entry 16: no host edit between steps): every step keeps every valid predictor entry equal to the
computed target of the branch at its tag. -/
def Obligations.StepKeepsPredictorSound : Prop :=
  ∀ s t : State, s.PredictorInv → step s = .next t → t.PredictorInv

/-- R188 (log entry 16: no host edit between steps): every step keeps the pc four above the address of the instance
that waits for its decode stage. -/
def Obligations.StepKeepsPcBehindFetch : Prop :=
  ∀ s t : State, s.Inv → s.PredictorInv → s.PcFollowsFetch → step s = .next t → t.PcFollowsFetch

/-- R39, R70, R286: no step changes the program or the sizes. -/
def Obligations.StepNeverChangesTheProgram : Prop :=
  ∀ s t : State, step s = .next t → t.imem = s.imem ∧ t.params = s.params

/-! ## Registers, memory, RAS, predictor, pc (the primitives of R10) -/

/-- R21: register 0 reads as 0 and every write to it is rejected, by an instruction with a fault, by the host with a
report. -/
def Obligations.RegisterZeroReadsZeroAndRejectsWrites : Prop :=
  ∀ (s : State) (v : Word),
    regRead s 0 = .ok 0 ∧ regWrite s 0 v = .error .regZeroWrite ∧
    hostReadReg s 0 = .done 0 ∧ hostWriteReg s 0 v = .rejected .regZeroWrite

/-- R20, R24: a write to register 1 to 31 is read back and changes no other register; an index above 31 is rejected
by both ports. -/
def Obligations.RegisterWriteThenRead : Prop :=
  (∀ (s : State) (i j : Nat) (v : Word), i ≠ 0 → i < 32 → j < 32 →
    ∃ t, regWrite s i v = .ok t ∧ regRead t j = .ok (if j = i then v else s.reg j) ∧
      t = { s with regs := t.regs }) ∧
  (∀ (s : State) (i : Nat) (v : Word), 32 ≤ i →
    regRead s i = .error (.regIndexOutOfRange i) ∧ regWrite s i v = .error (.regIndexOutOfRange i))

/-- R61: the four addresses of a word are the same to a load and to a store. -/
def Obligations.LowAddressBitsAreDropped : Prop :=
  ∀ (s : State) (a b v : Word), a.toNat / 4 = b.toNat / 4 → a.toNat / 4 < s.params.dmemWords →
    memRead s a = .ok (s.dmem.read (a.toNat / 4)) ∧ memRead s b = memRead s a ∧
    memWrite s a v = .ok { s with dmem := s.dmem.write (a.toNat / 4) v } ∧ memWrite s b v = memWrite s a v

/-- R66, R71, R72 (canonical form: the model's, log entry 4): a store is seen by a later load of the same word and
by no other, keeps the canonical form, and out of range neither load nor store does anything but raise. -/
def Obligations.StoreThenLoad : Prop :=
  (∀ (s : State) (a b v : Word), Memory.wf s.dmem = true →
    a.toNat / 4 < s.params.dmemWords → b.toNat / 4 < s.params.dmemWords →
    ∃ t, memWrite s a v = .ok t ∧ Memory.wf t.dmem = true ∧ t = { s with dmem := t.dmem } ∧
      memRead t b = if b.toNat / 4 = a.toNat / 4 then .ok v else memRead s b) ∧
  (∀ (s : State) (a v : Word), s.params.dmemWords ≤ a.toNat / 4 →
    memRead s a = .error (.memIndexOutOfRange a) ∧ memWrite s a v = .error (.memIndexOutOfRange a))

/-- R36: push, pop and peek are last-in first-out, with a fault at both ends. -/
def Obligations.RasIsLastInFirstOut : Prop :=
  (∀ (s : State) (v : Word), rasFull s = false →
    ∃ t, rasPush s v = .ok t ∧ t.ras = s.ras ++ [v] ∧ rasPop t = .ok (v, s) ∧ rasPeek t = .ok v) ∧
  (∀ (s : State) (v : Word) (d : Nat), s.params.rasDepth = some d → s.ras.length = d →
    rasPush s v = .error .stackOverflow) ∧
  (∀ s : State, s.params.rasDepth = none → rasFull s = false) ∧
  (∀ (s : State) (d : Nat), s.params.rasDepth = some d → s.ras.length < d → rasFull s = false) ∧
  (∀ s : State, s.ras = [] → rasPop s = .error .stackUnderflow ∧ rasPeek s = .error .stackUnderflow)

/-- R216 to R218: what a lookup answers after an update. A taken update makes a hit with the stored target; a
not-taken update keeps an existing entry and its tag, and changes nothing where there is none; every address with
another index is answered as before. -/
def Obligations.PredictorLookupAfterUpdate : Prop :=
  ∀ (s : State) (p q t : Word), 1 ≤ s.params.btbEntries → s.btb.length = s.params.btbEntries →
    btbLookup (btbUpdate s p t true) p = some { valid := true, tag := p, target := t, taken := true } ∧
    (btbLookup s p = none → btbUpdate s p t false = s) ∧
    (btbLookup s p ≠ none →
      btbLookup (btbUpdate s p t false) p = some { valid := true, tag := p, target := t, taken := false }) ∧
    (∀ b, (q.toNat / 4) % s.params.btbEntries ≠ (p.toNat / 4) % s.params.btbEntries →
      btbLookup (btbUpdate s p t b) q = btbLookup s q) ∧
    (q ≠ p → (q.toNat / 4) % s.params.btbEntries = (p.toNat / 4) % s.params.btbEntries →
      btbLookup (btbUpdate s p t true) q = none)

/-- R221: a direct jump sets the pc, a masked one keeps its four upper bits. -/
def Obligations.ApplyJumpDirectAndMasked : Prop :=
  ∀ (s : State) (target : Word) (taken : Bool),
    applyJump s ⟨.direct, target, taken⟩ = { s with pc := target } ∧
    applyJump s ⟨.masked, target, taken⟩ =
      { s with pc := BitVec.ofNat 32 (s.pc.toNat / 2 ^ 28 * 2 ^ 28 + target.toNat % 2 ^ 28) }

/-- R112: the register file when the register is not awaiting, else the forwarded value, else not ready; and R24, R247:
an index above 31 that is not awaiting is presented to the read port and raises (an awaiting one does not reach the
port: log entry 8). -/
def Obligations.AcquireReadsForwardsOrWaits : Prop :=
  ∀ (s : State) (r : Nat),
    (r ∉ s.wires.awaiting → r < 32 → acquire s r = .ready (s.reg r)) ∧
    (∀ v, r ∈ s.wires.awaiting → s.wires.forward.lookup r = some v → acquire s r = .ready v) ∧
    (r ∈ s.wires.awaiting → s.wires.forward.lookup r = none → acquire s r = .notReady) ∧
    (r ∉ s.wires.awaiting → 32 ≤ r → acquire s r = .raise (.regIndexOutOfRange r))

/-! ## The steps common to every instruction (R110, R111, R114, R117, R172) -/

/-- R43, R172: outside a sweep, every instruction's step is its creation (that `exec` is the next step of the
instruction's life is the model's reading of R110 and R172, log entry 1). -/
def Obligations.ExecCreatesTheInstance : Prop :=
  ∀ (i : Instr) (s : State), s.wires.visiting = none →
    ∃ inst, exec i s = .next { s with window := s.window ++ [inst], nextSeq := s.nextSeq + 1 } ∧
      inst.instr = i ∧ inst.index = s.pc.toNat / 4 ∧ inst.stage = .PF ∧ inst.seq = s.nextSeq ∧
      inst.dest = none ∧ inst.fwd = none ∧ inst.cleanup = false ∧ inst.jump = none

/-- R111: the fetch stage of every instruction records the pc and does nothing else. -/
def Obligations.FetchRecordsThePc : Prop :=
  ∀ (i : Instr) (s : State) (inst : Instance), s.visits inst .PF →
    exec i s = .next (s.visit { inst with pcSnap := s.pc })

/-- R114, R119, R135, R151 to R155: the stages at which an instruction has nothing to do, decode of the instructions
that transfer no control among them. -/
def Obligations.IdleStagesAreIdle : Prop :=
  ∀ (rd rs rt : Nat) (imm target : Word) (s : State) (inst : Instance),
    (s.visits inst .F →
      ∀ i ∈ [Instr.nop, .add rd rs rt, .xor rd rs rt, .slt rd rs rt, .addi rt rs imm, .lw rt rs imm, .sw rt rs imm],
        exec i s = .next (s.visit inst)) ∧
    (s.visits inst .D → ∀ i ∈ [Instr.nop, .j target, .jr rs, .call target, .ret],
      exec i s = .next (s.visit inst)) ∧
    (s.visits inst .E →
      ∀ i ∈ [Instr.nop, .j target, .jal target, .jr rs, .call target, .ret, .ble rs rt imm],
        exec i s = .next (s.visit inst)) ∧
    (s.visits inst .M → inst.dest = none →
      ∀ i ∈ [Instr.nop, .j target, .jr rs, .call target, .ret, .ble rs rt imm, .sw rt rs imm],
        exec i s = .next (s.visit inst))

/-- R117, R24, R247 (log entry 2 for the form of the faults): writeback of every instruction. Without a destination
nothing happens; with destination 1 to 31 that register, and nothing else of the machine, takes the result and cleanup
is requested (`lw` also publishes); with destination 0, or one above 31, the fault is taken. -/
def Obligations.WritebackCommitsTheResult : Prop :=
  ∀ (i : Instr) (s : State) (inst : Instance), s.visits inst .M →
    (inst.dest = none → exec i s = .next (s.visit inst)) ∧
    (∀ d, inst.dest = some d → d ≠ 0 → d < 32 → (∀ rt rs imm, i ≠ .lw rt rs imm) →
      exec i s = .next ({ s with regs := s.regs.setIfInBounds d inst.result }.visit { inst with cleanup := true })) ∧
    (∀ d rt rs imm, inst.dest = some d → d ≠ 0 → d < 32 → i = .lw rt rs imm →
      exec i s = .next ({ s with regs := s.regs.setIfInBounds d inst.result }.visit
        { inst with fwd := some inst.result, cleanup := true })) ∧
    (inst.dest = some 0 → exec i s = .next { s with fault := some (.regZeroWrite inst.seq inst.index) }) ∧
    (∀ d, inst.dest = some d → 32 ≤ d → exec i s = .next { s with fault := some (.regIndexOutOfRange d) })

/-! ## The instructions' own stages (R131 to R156) -/

/-- R131 to R134, R136: execute of the arithmetic and compare instructions. -/
def Obligations.AluExecuteComputesTheResult : Prop :=
  ∀ (rd rs rt : Nat) (imm a b : Word) (s : State) (inst : Instance), s.visits inst .D → s.gives rs a →
    (s.gives rt b →
      exec (.add rd rs rt) s =
        .next (s.visit { inst with result := BitVec.ofNat 32 (a.toNat + b.toNat), dest := some rd }) ∧
      exec (.xor rd rs rt) s =
        .next (s.visit { inst with result := BitVec.ofNat 32 (a.toNat ^^^ b.toNat), dest := some rd }) ∧
      exec (.slt rd rs rt) s =
        .next (s.visit { inst with result := if a.toInt < b.toInt then 1 else 0, dest := some rd })) ∧
    exec (.addi rt rs imm) s =
      .next (s.visit { inst with result := BitVec.ofNat 32 (a.toNat + imm.toNat), dest := some rt })

/-- R116, R136: memory of the arithmetic and compare instructions publishes the result. -/
def Obligations.AluMemoryPublishesTheResult : Prop :=
  ∀ (rd rs rt : Nat) (imm : Word) (s : State) (inst : Instance), s.visits inst .E →
    ∀ i ∈ [Instr.add rd rs rt, .xor rd rs rt, .slt rd rs rt, .addi rt rs imm],
      exec i s = .next (s.visit { inst with fwd := some inst.result })

/-- R140 to R142: execute of `lw` and `sw` latches the effective address, `lw` its destination, `sw` its data. -/
def Obligations.LoadAndStoreLatchTheAddress : Prop :=
  ∀ (rt rs : Nat) (imm a v : Word) (s : State) (inst : Instance), s.visits inst .D → s.gives rs a →
    exec (.lw rt rs imm) s =
      .next (s.visit { inst with addr := BitVec.ofNat 32 (a.toNat + imm.toNat), dest := some rt }) ∧
    (s.gives rt v →
      exec (.sw rt rs imm) s =
        .next (s.visit { inst with addr := BitVec.ofNat 32 (a.toNat + imm.toNat), sdata := v }))

/-- R141, R142, R248: memory of `lw` and `sw`, inside data memory and outside it. -/
def Obligations.LoadAndStoreAccessTheWord : Prop :=
  ∀ (rt rs : Nat) (imm : Word) (s : State) (inst : Instance), s.visits inst .E →
    (inst.addr.toNat / 4 < s.params.dmemWords →
      exec (.lw rt rs imm) s = .next (s.visit { inst with result := s.dmem.read (inst.addr.toNat / 4) }) ∧
      (∃ m, exec (.sw rt rs imm) s = .next ({ s with dmem := m }.visit inst) ∧
        (Memory.wf s.dmem = true → ∀ k, m.read k = if k = inst.addr.toNat / 4 then inst.sdata else s.dmem.read k))) ∧
    (s.params.dmemWords ≤ inst.addr.toNat / 4 →
      exec (.lw rt rs imm) s =
        .next { s with fault := some (.memIndexOutOfRange inst.addr inst.seq inst.index) } ∧
      exec (.sw rt rs imm) s =
        .next { s with fault := some (.memIndexOutOfRange inst.addr inst.seq inst.index) })

/-- R150 to R153: decode of `j`, `jal` and `jr` sets the jump intent; `jal` also latches the return address. -/
def Obligations.JumpsSetTheirIntent : Prop :=
  ∀ (rs : Nat) (target a : Word) (s : State) (inst : Instance), s.visits inst .F →
    exec (.j target) s = .next (s.visit { inst with jump := some ⟨.masked, target, true⟩ }) ∧
    exec (.jal target) s =
      .next (s.visit { inst with link := inst.pcSnap + 4, jump := some ⟨.masked, target, true⟩ }) ∧
    (s.gives rs a → exec (.jr rs) s = .next (s.visit { inst with jump := some ⟨.direct, a, true⟩ }))

/-- R152: execute of `jal` makes the return address the result for register 31 and publishes it at once. -/
def Obligations.JalExecutePublishesTheLink : Prop :=
  ∀ (target : Word) (s : State) (inst : Instance), s.visits inst .D →
    exec (.jal target) s =
      .next (s.visit { inst with dest := some 31, result := inst.link, fwd := some inst.link })

/-- R154, R250: decode of `call` pushes the return address and sets the intent, or takes the fault when the RAS is
full. -/
def Obligations.CallPushesTheReturnAddress : Prop :=
  ∀ (target : Word) (s : State) (inst : Instance), s.visits inst .F →
    ((∀ d, s.params.rasDepth = some d → s.ras.length < d) →
      exec (.call target) s = .next ({ s with ras := s.ras ++ [inst.pcSnap + 4] }.visit
        { inst with jump := some ⟨.masked, target, true⟩ })) ∧
    (∀ d, s.params.rasDepth = some d → s.ras.length = d →
      exec (.call target) s = .next { s with fault := some (.stackOverflow inst.seq inst.index) })

/-- R155, R249: decode of `return` pops the newest entry and jumps to it, or takes the fault when the RAS is empty. -/
def Obligations.ReturnPopsTheNewestEntry : Prop :=
  ∀ (s : State) (inst : Instance), s.visits inst .F →
    (∀ older a, s.ras = older ++ [a] →
      exec .ret s = .next ({ s with ras := older }.visit { inst with jump := some ⟨.direct, a, true⟩ })) ∧
    (s.ras = [] → exec .ret s = .next { s with fault := some (.stackUnderflow inst.seq inst.index) })

/-- R89, R156: decode of `ble` latches both addresses, and predicts by the predictor. -/
def Obligations.BranchDecodePredicts : Prop :=
  ∀ (rs rt : Nat) (imm : Word) (s : State) (inst : Instance), s.visits inst .F →
    ∀ fall btarget : Word, fall = inst.pcSnap + 4 →
      btarget = BitVec.ofInt 32 (inst.pcSnap.toInt + (imm.toInt + 1) * 4) →
      (∀ e, btbLookup s inst.pcSnap = some e → e.taken = true →
        exec (.ble rs rt imm) s = .next (s.visit
          { inst with fall := fall, btarget := btarget, pred := true, jump := some ⟨.direct, e.target, true⟩ })) ∧
      ((∀ e, btbLookup s inst.pcSnap = some e → e.taken = false) →
        exec (.ble rs rt imm) s =
          .next (s.visit { inst with fall := fall, btarget := btarget, pred := false }))

/-- R156: execute of `ble` compares signed, corrects a wrong prediction, and updates the predictor in every case. -/
def Obligations.BranchExecuteCorrectsAndUpdates : Prop :=
  ∀ (rs rt : Nat) (imm a b : Word) (s : State) (inst : Instance), s.visits inst .D →
    s.gives rs a → s.gives rt b →
    (a.toInt ≤ b.toInt → inst.pred = true →
      exec (.ble rs rt imm) s = .next ((btbUpdate s inst.pcSnap inst.btarget true).visit inst)) ∧
    (b.toInt < a.toInt → inst.pred = false →
      exec (.ble rs rt imm) s = .next ((btbUpdate s inst.pcSnap inst.btarget false).visit inst)) ∧
    (a.toInt ≤ b.toInt → inst.pred = false →
      exec (.ble rs rt imm) s = .next ((btbUpdate s inst.pcSnap inst.btarget true).visit
        { inst with jump := some ⟨.direct, inst.btarget, true⟩ })) ∧
    (b.toInt < a.toInt → inst.pred = true →
      exec (.ble rs rt imm) s = .next ((btbUpdate s inst.pcSnap inst.btarget false).visit
        { inst with jump := some ⟨.direct, inst.fall, true⟩ }))

/-! ## What no instruction does (R23, R27, R63, R113, R120, R209) -/

/-- R113: a stage that is not ready has changed nothing at all. -/
def Obligations.NotReadyChangesNothing : Prop :=
  ∀ (i : Instr) (s t : State), s.wires.status = .done → exec i s = .next t → t.wires.status = .notReady →
    t = { s with wires := { s.wires with status := .notReady } }

/-- R113, R209, both ways. A stage that is not ready is decode of `jr` or execute of `add`, `xor`, `slt`, `addi`, `lw`,
`sw`, `ble`, for a source register that is not ready; and each of these whose register is not ready answers so, with no
change but the status (of two registers the other must have an index below 32: log entry 8). -/
def Obligations.OnlyAcquiringStagesWait : Prop :=
  (∀ (i : Instr) (s t : State) (inst : Instance), s.wires.visiting = some inst → s.wires.status = .done →
    exec i s = .next t → t.wires.status = .notReady →
    (∃ rs, i = .jr rs ∧ inst.stage = .F ∧ acquire s rs = .notReady) ∨
    (inst.stage = .D ∧ ∃ rd rs rt imm,
      (i ∈ [Instr.addi rt rs imm, .lw rt rs imm] ∧ acquire s rs = .notReady) ∨
      (i ∈ [Instr.add rd rs rt, .xor rd rs rt, .slt rd rs rt, .sw rt rs imm, .ble rs rt imm] ∧
        (acquire s rs = .notReady ∨ acquire s rt = .notReady)))) ∧
  (∀ (rd rs rt : Nat) (imm : Word) (s : State) (inst : Instance),
    (s.visits inst .F → acquire s rs = .notReady →
      exec (.jr rs) s = .next { s with wires := { s.wires with status := .notReady } }) ∧
    (s.visits inst .D → acquire s rs = .notReady → ∀ i ∈ [Instr.addi rt rs imm, .lw rt rs imm],
      exec i s = .next { s with wires := { s.wires with status := .notReady } }) ∧
    (s.visits inst .D →
      acquire s rs = .notReady ∧ rt < 32 ∨ rs < 32 ∧ acquire s rt = .notReady →
      ∀ i ∈ [Instr.add rd rs rt, .xor rd rs rt, .slt rd rs rt, .sw rt rs imm, .ble rs rt imm],
        exec i s = .next { s with wires := { s.wires with status := .notReady } }))

/-- R120, R246, R248 to R250: the faults an instance made from a word can take, each at its stage. That the fault is
answered as a next state with the fault register set and nothing else changed is the model's reading of R254 (log entry
2). -/
def Obligations.FaultsAStageCanRaise : Prop :=
  ∀ (i : Instr) (s t : State) (inst : Instance), i.wellFormed = true → s.wires.visiting = some inst →
    (inst.dest = none ∨ inst.dest = destOf i) → s.fault = none → exec i s = .next t → ∀ f, t.fault = some f →
    t = { s with fault := some f } ∧
    ((inst.stage = .F ∧ (∃ target, i = .call target) ∧ f = .stackOverflow inst.seq inst.index) ∨
     (inst.stage = .F ∧ i = .ret ∧ f = .stackUnderflow inst.seq inst.index) ∨
     (inst.stage = .E ∧ (∃ rt rs imm, i = .lw rt rs imm ∨ i = .sw rt rs imm) ∧
       f = .memIndexOutOfRange inst.addr inst.seq inst.index) ∨
     (inst.stage = .M ∧ destOf i = some 0 ∧ (∀ target, i ≠ .jal target) ∧
       f = .regZeroWrite inst.seq inst.index))

/-- R23, R27, R37, R48, R63: the frame of one stage call. No instruction's stage changes the pc, the program, the
window, the counters, the trace or the stall memory; only writeback changes a register, the destination and no other;
only the memory stage of `sw` changes data memory, the addressed word and no other; only decode of `call` and `return`
changes the RAS; only execute of `ble` changes the predictor. -/
def Obligations.StageCallFrame : Prop :=
  ∀ (i : Instr) (s t : State) (inst : Instance), s.wires.visiting = some inst → exec i s = .next t →
    (t.pc = s.pc ∧ t.imem = s.imem ∧ t.params = s.params ∧ t.window = s.window ∧ t.stalledPrev = s.stalledPrev ∧
      t.cycle = s.cycle ∧ t.nextSeq = s.nextSeq ∧ t.trace = s.trace ∧
      t.wires = { s.wires with visiting := t.wires.visiting, status := t.wires.status }) ∧
    (∀ r, (inst.stage = .M → inst.dest ≠ some r) → t.reg r = s.reg r) ∧
    ((∀ rt rs imm, inst.stage = .E → i ≠ .sw rt rs imm) → t.dmem = s.dmem) ∧
    (∀ rt rs imm, i = .sw rt rs imm → ∀ k, k ≠ inst.addr.toNat / 4 → t.dmem.read k = s.dmem.read k) ∧
    ((inst.stage = .F → (∀ target, i ≠ .call target) ∧ i ≠ .ret) → t.ras = s.ras) ∧
    ((inst.stage = .D → ∀ rs rt imm, i ≠ .ble rs rt imm) → t.btb = s.btb)

/-! ## The engine (R170 to R189) -/

/-- A step runs the decoded instruction: where the word or record at the pc is the instruction `i` and the previous
cycle did not stall, the step is `i`'s `exec` (its creation, R172) followed by the rest of the cycle (R173 to R182),
in which the sweep calls `exec` for the next stage of every instance in flight. -/
def Obligations.StepRunsTheDecodedInstruction : Prop :=
  ∀ (s : State) (i : Instr), s.fault = none → s.stalledPrev = false → s.at i →
    ∃ t inst, exec i { s with wires := Wires.idle } = .next t ∧ step s = afterIssue t ∧
      t = { s with window := s.window ++ [inst], nextSeq := s.nextSeq + 1, wires := Wires.idle } ∧
      inst.instr = i ∧ inst.stage = .PF ∧ inst.seq = s.nextSeq ∧ inst.index = s.pc.toNat / 4

/-- R281, R187: from an idle pipeline the first step fetches the instruction at the pc. -/
def Obligations.FirstStepFetchesTheInstruction : Prop :=
  ∀ (s : State) (i : Instr), s.drained → s.at i →
    ∃ t inst, step s = .next t ∧ t.window = [inst] ∧ inst.instr = i ∧ inst.stage = .F ∧ inst.pcSnap = s.pc ∧
      inst.index = s.pc.toNat / 4 ∧ inst.seq = s.nextSeq ∧
      t = { s with
        window := [inst], pc := s.pc + 4, cycle := s.cycle + 1, nextSeq := s.nextSeq + 1
        trace := s.trace ++ [[⟨.F, s.nextSeq⟩]], wires := Wires.idle }

/-- R171, R182, R231, R240: a step with no work changes nothing and answers false; any other step that ends in no
fault counts one cycle and appends one trace entry. -/
def Obligations.CyclesAndTraceCountTheWork : Prop :=
  ∀ s : State, s.fault = none →
    (s.imem.length ≤ s.pc.toNat / 4 → s.window = [] → step s = .next s ∧ hostStep s = .noWork s) ∧
    ((s.pc.toNat / 4 < s.imem.length ∨ s.window ≠ []) → ∀ t, step s = .next t → t.fault = none →
      hostStep s = .worked t ∧ t.cycle = s.cycle + 1 ∧ ∃ events, t.trace = s.trace ++ [events])

/-- R170, R254: after a fault no cycle is performed; the cycle that raised it is not counted and not traced. That the
raising step answers a next state and the step after it the fault is the model's reading (log entry 2). -/
def Obligations.FaultEndsTheRun : Prop :=
  (∀ (s : State) (f : Fault), s.fault = some f → step s = .fault f ∧ hostStep s = .ended f) ∧
  (∀ (s t : State) (f : Fault), step s = .next t → t.fault = some f →
    s.fault = none ∧ t.cycle = s.cycle ∧ t.trace = s.trace ∧ step t = .fault f)

/-- R251, R253, R254: an illegal word at the pc raises at the issue step, before any stage of that cycle. That the
raising step answers a next state with the fault register set and nothing else changed is the model's reading (log entry
2). -/
def Obligations.IllegalWordRaisesAtIssue : Prop :=
  ∀ (s : State) (w : Word), s.fault = none → s.stalledPrev = false → s.wires = Wires.idle →
    s.imem[s.pc.toNat / 4]? = some (.word w) → decodeWord w = .illegal →
    step s = .next { s with fault := some (.illegalInstruction w (s.pc.toNat / 4)) }

/-- R92, R230: a program with illegal words is refused as a whole, with all of them and their indices (the form of the
report: log entry 21); a program the host could load raises no `IllegalInstruction`, and the load changes nothing but
the program. -/
def Obligations.CheckedProgramsAreLegal : Prop :=
  (∀ (s t : State) (words : List Word), hostLoadWords s words = .done t →
    t = { s with imem := words.map .word } ∧ ∀ slot ∈ t.imem, ∃ i, slotInstr slot = .legal i) ∧
  (∀ (s : State) (words : List Word), (∃ w ∈ words, decodeWord w = .illegal) →
    ∃ bad, hostLoadWords s words = .refused (.illegalProgram bad) ∧
      ∀ w k, (w, k) ∈ bad ↔ words[k]? = some w ∧ decodeWord w = .illegal) ∧
  (∀ s t : State, (∀ slot ∈ s.imem, ∃ i, slotInstr slot = .legal i) → step s = .next t →
    ∀ w k, t.fault ≠ some (.illegalInstruction w k))

/-- R24, R247: with a program of words no step presents a register index above 31, and the program stays one of words
and whatever is in flight from words; a record that was built otherwise and presents one to a port takes the fault, at
decode of `jr` or at execute (writeback: `WritebackCommitsTheResult`). The form of the fault is log entry 2's, the order
of two registers and the index that is awaiting log entry 8's. -/
def Obligations.WordsNeverPresentABadRegister : Prop :=
  (∀ s t : State, s.programOfWords → s.inFlightFromWords → step s = .next t →
    t.programOfWords ∧ t.inFlightFromWords ∧ ∀ i, t.fault ≠ some (.regIndexOutOfRange i)) ∧
  (∀ (rd rs rt : Nat) (imm : Word) (s : State) (inst : Instance),
    (s.visits inst .F → 32 ≤ rs → rs ∉ s.wires.awaiting →
      exec (.jr rs) s = .next { s with fault := some (.regIndexOutOfRange rs) }) ∧
    (s.visits inst .D → 32 ≤ rs → rs ∉ s.wires.awaiting →
      ∀ i ∈ [Instr.addi rt rs imm, .lw rt rs imm, .add rd rs rt, .xor rd rs rt, .slt rd rs rt, .sw rt rs imm,
          .ble rs rt imm],
        exec i s = .next { s with fault := some (.regIndexOutOfRange rs) }) ∧
    (s.visits inst .D → rs < 32 → 32 ≤ rt → rt ∉ s.wires.awaiting →
      ∀ i ∈ [Instr.add rd rs rt, .xor rd rs rt, .slt rd rs rt, .sw rt rs imm, .ble rs rt imm],
        exec i s = .next { s with fault := some (.regIndexOutOfRange rt) }))

/-- R175: the instance that is not ready ends the sweep with the cycle marked stalled; an instance that is done is
entered into the bookkeeping and the sweep goes on with the next younger one. -/
def Obligations.SweepStopsAtTheFirstStall : Prop :=
  ∀ (inst : Instance) (younger : List Instance) (k : Nat) (s t : State),
    exec inst.instr (s.visit inst) = .next t → t.fault = none →
    (t.wires.status = .notReady →
      sweep (inst :: younger) k s =
        .next { t with wires := { t.wires with stalled := true, visiting := none } }) ∧
    (∀ inst' next, t.wires.status = .done → t.wires.visiting = some inst' → inst.stage.next = some next →
      sweep (inst :: younger) k s = sweep younger (k + 1) (settle t k inst' next))

/-- R176 and R177: the bookkeeping after an instance advanced, with or without a jump. Its event is appended and the
hazard state follows its destination, forwarded value and cleanup, whatever its intent; it is back in its place one
stage on, and the first taken intent of the sweep is applied to the pc, cleared and its position recorded, as for every
jump and every corrected `ble`; nothing else of the machine changes. -/
def Obligations.BookkeepingOfAnAdvance : Prop :=
  ∀ (s : State) (k : Nat) (inst : Instance) (next : Stage),
    settle s k inst next = { s with
      pc := (settle s k inst next).pc
      window := (settle s k inst next).window
      wires := { s.wires with
        awaiting := (settle s k inst next).wires.awaiting
        forward := (settle s k inst next).wires.forward
        jumped := (settle s k inst next).wires.jumped
        cut := (settle s k inst next).wires.cut
        events := s.wires.events ++ [⟨next, inst.seq⟩]
        visiting := none } } ∧
    (inst.dest = none → (settle s k inst next).wires.awaiting = s.wires.awaiting ∧
      (settle s k inst next).wires.forward = s.wires.forward) ∧
    (∀ d r, inst.dest = some d → inst.cleanup = false →
      (r ∈ (settle s k inst next).wires.awaiting ↔ r = d ∨ r ∈ s.wires.awaiting) ∧
      forwarded (settle s k inst next) r =
        if r = d ∧ inst.fwd.isSome then inst.fwd else forwarded s r) ∧
    (∀ d r, inst.dest = some d → inst.cleanup = true →
      (r ∈ (settle s k inst next).wires.awaiting ↔ r ≠ d ∧ r ∈ s.wires.awaiting) ∧
      forwarded (settle s k inst next) r = if r = d then none else forwarded s r) ∧
    ((∀ j, inst.jump = some j → j.taken = true → s.wires.jumped = true) →
      (settle s k inst next).window = s.window.set k { inst with stage := next } ∧
      (settle s k inst next).pc = s.pc ∧ (settle s k inst next).wires.jumped = s.wires.jumped ∧
      (settle s k inst next).wires.cut = s.wires.cut) ∧
    (∀ j, inst.jump = some j → j.taken = true → s.wires.jumped = false →
      (settle s k inst next).window =
        s.window.set k { inst with stage := next, jump := some { j with taken := false } } ∧
      (settle s k inst next).pc = (applyJump s j).pc ∧ (settle s k inst next).wires.jumped = true ∧
      (settle s k inst next).wires.cut = some k)

/-- R177: the first taken intent of a sweep is applied to the pc and cleared, and its position recorded; any later
one is ignored. -/
def Obligations.FirstTakenIntentIsHonored : Prop :=
  ∀ (s : State) (k : Nat) (inst : Instance) (j : JumpIntent), inst.jump = some j →
    (j.taken = true → s.wires.jumped = false →
      honor s k inst =
        { s with
          pc := (applyJump s j).pc
          window := s.window.set k { inst with jump := some { j with taken := false } }
          wires := { s.wires with jumped := true, cut := some k } }) ∧
    (s.wires.jumped = true → honor s k inst = s) ∧ (j.taken = false → honor s k inst = s)

/-- R178 to R182: squash, retirement, pc advance, stall memory, trace and cycle counter at the end of a cycle. -/
def Obligations.EndOfCycle : Prop :=
  ∀ (s : State) (k : Nat) (oldest : Instance) (rest : List Instance),
    s.wires.cut = (if s.wires.jumped then some k else none) → s.window = oldest :: rest →
    let kept := if s.wires.jumped then oldest :: rest.take k else oldest :: rest
    s.finish.window = (if oldest.stage = .W then kept.tail else kept) ∧
    s.finish.pc = (if s.wires.jumped = false ∧ s.wires.stalled = false ∧ s.pc.toNat / 4 < s.imem.length
      then BitVec.ofNat 32 (s.pc.toNat + 4) else s.pc) ∧
    s.finish.stalledPrev = (s.wires.stalled && !s.wires.jumped) ∧
    s.finish.trace = s.trace ++ [s.wires.events] ∧ s.finish.cycle = s.cycle + 1 ∧
    s.finish.wires = Wires.idle ∧ s.finish.regs = s.regs ∧ s.finish.dmem = s.dmem ∧ s.finish.ras = s.ras ∧
    s.finish.btb = s.btb ∧ s.finish.nextSeq = s.nextSeq

/-! ## Whole steps -/

/-- R23, R37, R63, R68, R208, R220: what a whole step can change, and which instance in flight changed it. A step that
ends in a fault is included: what the older instances did before the raise stands (R254). -/
def Obligations.StepChangesOnlyThroughItsInstances : Prop :=
  ∀ s t : State, step s = .next t →
    (∀ r, t.reg r ≠ s.reg r → ∃ inst ∈ s.window, inst.stage = .M ∧ inst.dest = some r) ∧
    (∀ k, t.dmem.read k ≠ s.dmem.read k →
      ∃ inst ∈ s.window, inst.stage = .E ∧ inst.addr.toNat / 4 = k ∧ ∃ rt rs imm, inst.instr = .sw rt rs imm) ∧
    (t.ras ≠ s.ras →
      ∃ inst ∈ s.window, inst.stage = .F ∧ (inst.instr = .ret ∨ ∃ target, inst.instr = .call target)) ∧
    (t.btb ≠ s.btb →
      ∃ inst ∈ s.window, inst.stage = .D ∧ ∃ rs rt imm, inst.instr = .ble rs rt imm)

/-- R131 to R134, R187: an arithmetic or compare instruction alone in the pipeline retires in five cycles with its
result in its destination, one event a cycle, and nothing else of the machine changed but pc and counters. -/
def Obligations.LoneAluInstructionRetires : Prop :=
  ∀ (s : State) (rd rs rt : Nat) (imm : Word), s.drained → s.programEndsAfter 1 →
    rd ≠ 0 → rd < 32 → rs < 32 → rt < 32 →
    (s.at (.add rd rs rt) →
      runSteps 5 s = .next ((s.setReg rd (s.reg rs + s.reg rt)).afterLoneRun (s.pc + 4))) ∧
    (s.at (.xor rd rs rt) →
      runSteps 5 s = .next ((s.setReg rd (s.reg rs ^^^ s.reg rt)).afterLoneRun (s.pc + 4))) ∧
    (s.at (.slt rd rs rt) →
      runSteps 5 s = .next ((s.setReg rd
        (if (s.reg rs).toInt < (s.reg rt).toInt then 1 else 0)).afterLoneRun (s.pc + 4))) ∧
    (s.at (.addi rd rs imm) →
      runSteps 5 s = .next ((s.setReg rd (s.reg rs + imm)).afterLoneRun (s.pc + 4)))

/-- R141, R142, R135: `lw`, `sw` and `nop` alone in the pipeline. -/
def Obligations.LoneMemoryInstructionRetires : Prop :=
  ∀ s : State, s.drained → s.programEndsAfter 1 →
    (s.at .nop → runSteps 5 s = .next (s.afterLoneRun (s.pc + 4))) ∧
    ∀ (rt rs : Nat) (imm : Word), rt < 32 → rs < 32 →
      (s.reg rs + imm).toNat / 4 < s.params.dmemWords →
      (s.at (.lw rt rs imm) → rt ≠ 0 →
        runSteps 5 s = .next ((s.setReg rt (s.dmem.read ((s.reg rs + imm).toNat / 4))).afterLoneRun (s.pc + 4))) ∧
      (s.at (.sw rt rs imm) →
        runSteps 5 s = .next ({ s with
          dmem := s.dmem.write ((s.reg rs + imm).toNat / 4) (s.reg rt) }.afterLoneRun (s.pc + 4)))

/-- R151 to R155, R160: a jump out of the program, alone in the pipeline at its end: the pc is the target, `jal`
leaves the return address in register 31, `call` on the RAS, `return` takes it from there. -/
def Obligations.LoneJumpRetires : Prop :=
  ∀ (s : State) (rs : Nat) (target a : Word) (older : List Word), s.drained → s.programEndsAfter 1 →
    s.pc.toNat / 4 + 1 < 2 ^ 26 → s.imem.length ≤ target.toNat / 4 → target.toNat < 2 ^ 28 →
    s.imem.length ≤ a.toNat / 4 →
    (s.at (.j target) → runSteps 5 s = .next (s.afterLoneRun target)) ∧
    (s.at (.jal target) → runSteps 5 s = .next ((s.setReg 31 (s.pc + 4)).afterLoneRun target)) ∧
    (s.at (.jr rs) → rs < 32 → s.reg rs = a → runSteps 5 s = .next (s.afterLoneRun a)) ∧
    (s.at (.call target) → rasFull s = false →
      runSteps 5 s = .next ({ s with ras := s.ras ++ [s.pc + 4] }.afterLoneRun target)) ∧
    (s.at .ret → s.ras = older ++ [a] →
      runSteps 5 s = .next ({ s with ras := older }.afterLoneRun a))

/-- R246, R254: an arithmetic instruction with destination 0, alone in the pipeline, completes four cycles and then
takes the fault; the run is over. -/
def Obligations.LoneWriteToRegisterZeroFaults : Prop :=
  ∀ (s : State) (rs rt : Nat), s.drained → s.programEndsAfter 1 → rs < 32 → rt < 32 →
    s.at (.add 0 rs rt) →
    ∃ t, runSteps 5 s = .next t ∧ t.fault = some (.regZeroWrite s.nextSeq (s.pc.toNat / 4)) ∧
      t.cycle = s.cycle + 4 ∧ runSteps 6 s = .fault (.regZeroWrite s.nextSeq (s.pc.toNat / 4))

/-- R187, R291: a program of N `nop`s from an idle pipeline takes exactly N + 4 cycles, after which a step finds no
work. -/
def Obligations.NopsTakeNPlusFourCycles : Prop :=
  ∀ (s : State) (n : Nat), s.drained → s.pc = 0 → 1 ≤ n → n < 2 ^ 30 → s.imem = List.replicate n (.word 0) →
    ∃ t, runSteps (n + 4) s = .next t ∧ t.drained ∧ t.cycle = s.cycle + n + 4 ∧ t.nextSeq = s.nextSeq + n ∧
      t.pc = BitVec.ofNat 32 (4 * n) ∧ t.regs = s.regs ∧ t.dmem = s.dmem ∧ hasWork t = false

/-- R205 (DOC0: "must stall exactly one cycle"): a load followed at once by an `add` of its register takes seven
cycles, one more than N + 4, and the `add` has the loaded value. -/
def Obligations.LoadUseStallsOneCycle : Prop :=
  ∀ (s : State) (rt rs rd : Nat) (imm : Word) (slot : Slot), s.drained → s.programEndsAfter 2 →
    s.at (.lw rt rs imm) → s.imem[s.pc.toNat / 4 + 1]? = some slot → slotInstr slot = .legal (.add rd rt rt) →
    rt ≠ 0 → rt < 32 → rs < 32 → rd ≠ 0 → rd < 32 → (s.reg rs + imm).toNat / 4 < s.params.dmemWords →
    ∃ t, runSteps 7 s = .next t ∧ t.drained ∧ t.cycle = s.cycle + 7 ∧ hasWork t = false ∧
      t.regs = ((s.setReg rt (s.dmem.read ((s.reg rs + imm).toNat / 4))).setReg rd
        (s.dmem.read ((s.reg rs + imm).toNat / 4) + s.dmem.read ((s.reg rs + imm).toNat / 4))).regs

/-- R203, R205: two dependent `add`s take six cycles, and the second computes with the first one's result. -/
def Obligations.BackToBackAddsDoNotStall : Prop :=
  ∀ (s : State) (r rs rt rd : Nat) (slot : Slot), s.drained → s.programEndsAfter 2 →
    s.at (.add r rs rt) → s.imem[s.pc.toNat / 4 + 1]? = some slot → slotInstr slot = .legal (.add rd r r) →
    r ≠ 0 → r < 32 → rs < 32 → rt < 32 → rd ≠ 0 → rd < 32 →
    ∃ t, runSteps 6 s = .next t ∧ t.drained ∧ t.cycle = s.cycle + 6 ∧ hasWork t = false ∧
      t.regs = ((s.setReg r (s.reg rs + s.reg rt)).setReg rd
        ((s.reg rs + s.reg rt) + (s.reg rs + s.reg rt))).regs

/-- R285: the `return` behind a `ble` that was wrongly predicted not taken pops the RAS although it is squashed in
the same cycle, and its own jump is ignored (R177, R178). Older instances go on, what the issue step brings in behind is
squashed too. Cycle 6 of program P5 is such a step. -/
def Obligations.WrongPathReturnPopsTheRas : Prop :=
  ∀ (s v : State) (older : List Instance) (branch follower : Instance) (rs rt : Nat) (imm a b c : Word)
    (rest : List Word),
    s.Inv → s.fault = none → s.stalledPrev = false → s.window = older ++ [branch, follower] →
    branch.stage = .D → branch.instr = .ble rs rt imm → branch.pred = false →
    follower.stage = .F → follower.instr = .ret → s.ras = rest ++ [c] →
    s.sweepsPast older v → v.gives rs a → v.gives rt b → a.toInt ≤ b.toInt →
    ∃ t kept inst, step s = .next t ∧ t.fault = none ∧ t.ras = rest ∧ t.pc = branch.btarget ∧
      t.stalledPrev = false ∧ t.window = kept ++ [inst] ∧ inst.seq = branch.seq ∧ inst.stage = .E ∧
      kept.map (·.seq) = (older.filter fun o => o.stage ≠ .M).map (·.seq)

/-- R181, R189: a `jr` whose register is not ready in the cycle in which the `ble` before it corrects a wrong not-taken
prediction stalls and is squashed, and the stall is forgotten. Older instances go on, what the issue step brings in
behind is squashed too. Cycle 4 of program P7 is such a step. -/
def Obligations.StallForgottenWhenSquashed : Prop :=
  ∀ (s v : State) (older : List Instance) (branch follower : Instance) (rs rt r : Nat) (imm a b : Word),
    s.Inv → s.fault = none → s.stalledPrev = false → s.window = older ++ [branch, follower] →
    branch.stage = .D → branch.instr = .ble rs rt imm → branch.pred = false → branch.dest = none →
    follower.stage = .F → follower.instr = .jr r →
    s.sweepsPast older v → v.gives rs a → v.gives rt b → a.toInt ≤ b.toInt → acquire v r = .notReady →
    ∃ t kept inst events, step s = .next t ∧ t.fault = none ∧ t.pc = branch.btarget ∧ t.stalledPrev = false ∧
      t.window = kept ++ [inst] ∧ inst.seq = branch.seq ∧ inst.stage = .E ∧
      kept.map (·.seq) = (older.filter fun o => o.stage ≠ .M).map (·.seq) ∧
      t.trace = s.trace ++ [events] ∧ ∀ e ∈ events, e.seq ≠ follower.seq

/-! ## The host surface (R230 to R236, R270) -/

/-- R232 to R235, D39 (the reply type is the model's, log entry 15): a host access either does what the pipeline's own
primitive does, and changes nothing else, or is rejected with its cause; a rejection carries no state, so nothing
changes. -/
def Obligations.HostAccessors : Prop :=
  ∀ (s : State) (i : Nat) (a v : Word),
    (i < 32 → hostReadReg s i = .done (if i = 0 then 0 else s.reg i)) ∧
    (i ≠ 0 → i < 32 → hostWriteReg s i v = .done { s with regs := s.regs.setIfInBounds i v }) ∧
    hostWriteReg s 0 v = .rejected .regZeroWrite ∧
    (32 ≤ i → hostReadReg s i = .rejected (.regIndexOutOfRange i) ∧
      hostWriteReg s i v = .rejected (.regIndexOutOfRange i)) ∧
    (a.toNat / 4 < s.params.dmemWords → hostReadMem s a = .done (s.dmem.read (a.toNat / 4)) ∧
      hostWriteMem s a v = .done { s with dmem := s.dmem.write (a.toNat / 4) v }) ∧
    (s.params.dmemWords ≤ a.toNat / 4 → hostReadMem s a = .rejected (.memIndexOutOfRange a) ∧
      hostWriteMem s a v = .rejected (.memIndexOutOfRange a)) ∧
    hostReadPc s = s.pc ∧ hostReadPcIndex s = s.pc.toNat / 4 ∧ hostWritePc s v = { s with pc := v } ∧
    (∀ older, s.ras = older ++ [a] → hostPop s = .done (a, { s with ras := older }) ∧ hostPeek s = .done a) ∧
    (s.ras = [] → hostPop s = .rejected .stackUnderflow ∧ hostPeek s = .rejected .stackUnderflow) ∧
    (rasFull s = false → hostPush s v = .done { s with ras := s.ras ++ [v] }) ∧
    (rasFull s = true → hostPush s v = .rejected .stackOverflow)

/-- R70, R230, R257, R270: reset is the only way to clear a fault or to load another program: it gives the reset state
whatever the state was; a load after the first cycle is refused, and so is one over a program that is loaded already.
How the model tells that a cycle was attempted, and that the second holds before the first cycle too, are its choices
(log entry 14). -/
def Obligations.OnlyResetReloadsOrClearsAFault : Prop :=
  ∀ (s : State) (imem : List Slot),
    hostReset s = State.resetWith s.params ∧ (hostReset s).fault = none ∧
    (0 < s.cycle ∨ s.fault ≠ none →
      loadProgram s imem = .refused .loadAfterStart ∧ loadSlots s imem = .refused .loadAfterStart) ∧
    (s.cycle = 0 → s.nextSeq = 0 → s.fault = none → s.imem ≠ [] →
      loadProgram s imem = .refused .reloadWithoutReset) ∧
    (imem.length ≤ 2 ^ 30 → loadProgram (hostReset s) imem = .done { hostReset s with imem := imem }) ∧
    (∀ f, s.fault = some f → ∀ n, runSteps (n + 1) s = .fault f)
end

