-- ==== Sys2Proof/Laws/Memory.lean ====
section
/-! SUPPORT. The laws of data memory: the canonical form is kept by every write, a write is read back, and every other
word is left alone. -/

namespace Sys2Proof.Machine

/-- The canonical form said of the whole list. -/
theorem Memory.wf_iff (m : Memory) :
    Memory.wf m = true ↔ m.Pairwise (fun c d => c.1 < d.1) ∧ ∀ c ∈ m, c.2 ≠ Memory.unlisted := by
  induction m with
  | nil => simp [Memory.wf]
  | cons c rest ih =>
    obtain ⟨a, v⟩ := c
    cases rest with
    | nil => simp [Memory.wf]
    | cons d rest =>
      obtain ⟨b, w⟩ := d
      rw [Memory.wf, Bool.and_eq_true, Bool.and_eq_true, ih]
      simp only [decide_eq_true_eq, List.pairwise_cons, List.mem_cons, forall_eq_or_imp]
      constructor
      · rintro ⟨⟨hv, hab⟩, ⟨hb, hp⟩, hw, hr⟩
        exact ⟨⟨⟨hab, fun x hx => lt_trans hab (hb x hx)⟩, hb, hp⟩, hv, hw, hr⟩
      · rintro ⟨⟨⟨hab, -⟩, hb, hp⟩, hv, hw, hr⟩
        exact ⟨⟨hv, hab⟩, ⟨hb, hp⟩, hw, hr⟩

/-- A listed word after a write is the written one or was listed before. -/
theorem Memory.mem_write (m : Memory) (k : Nat) (v : Word) (c : Cell) (h : c ∈ m.write k v) :
    c = (k, v) ∧ v ≠ Memory.unlisted ∨ c ∈ m := by
  induction m with
  | nil =>
    unfold Memory.write at h
    split at h <;> simp_all
  | cons d rest ih =>
    obtain ⟨a, w⟩ := d
    unfold Memory.write at h
    split at h
    · split at h <;> simp_all
    · split at h
      · split at h <;> simp_all
        · tauto
      · simp only [List.mem_cons] at h ⊢
        rcases h with h | h
        · exact .inr (.inl h)
        · rcases ih h with h' | h'
          · exact .inl h'
          · exact .inr (.inr h')

/-- Every write keeps the canonical form. -/
theorem Memory.write_wf (m : Memory) (k : Nat) (v : Word) (h : Memory.wf m = true) :
    Memory.wf (m.write k v) = true := by
  rw [Memory.wf_iff] at h ⊢
  refine ⟨?_, fun c hc => ?_⟩
  · induction m with
    | nil => unfold Memory.write; split <;> simp
    | cons d rest ih =>
      obtain ⟨a, w⟩ := d
      obtain ⟨hp, hv⟩ := h
      rw [List.pairwise_cons] at hp
      unfold Memory.write
      split
      · rename_i hk
        split
        · exact List.pairwise_cons.2 hp
        · refine List.pairwise_cons.2 ⟨fun c hc => ?_, List.pairwise_cons.2 hp⟩
          rcases List.mem_cons.1 hc with rfl | hc
          · exact hk
          · exact lt_trans hk (hp.1 c hc)
      · rename_i hk
        split
        · rename_i hka
          split
          · exact hp.2
          · exact List.pairwise_cons.2 ⟨fun c hc => hka ▸ hp.1 c hc, hp.2⟩
        · rename_i hka
          refine List.pairwise_cons.2
            ⟨fun c hc => ?_, ih ⟨hp.2, fun c hc => hv c (List.mem_cons_of_mem _ hc)⟩⟩
          rcases Memory.mem_write rest k v c hc with ⟨rfl, -⟩ | hc
          · show a < k
            omega
          · exact hp.1 c hc
  · rcases Memory.mem_write m k v c hc with ⟨rfl, hv⟩ | hc
    · exact hv
    · exact h.2 c hc

/-- Every write leaves every other word alone. -/
theorem Memory.read_write_other (m : Memory) (k j : Nat) (v : Word) (h : j ≠ k) :
    (m.write k v).read j = m.read j := by
  induction m with
  | nil => unfold Memory.write; split <;> simp [Memory.read, h]
  | cons d rest ih =>
    obtain ⟨a, w⟩ := d
    unfold Memory.write
    split
    · split <;> simp [Memory.read, h]
    · split
      · rename_i hka
        have : j ≠ a := fun e => h (e.trans hka.symm)
        split <;> simp [Memory.read, h, this]
      · simp only [Memory.read, ih]

/-- Below the first listed word nothing is listed. -/
theorem Memory.read_below (m : Memory) (k : Nat) (h : ∀ c ∈ m, k < c.1) : m.read k = Memory.unlisted := by
  induction m with
  | nil => rfl
  | cons d rest ih =>
    obtain ⟨a, w⟩ := d
    have : k ≠ a := Nat.ne_of_lt (h (a, w) (by simp))
    simp only [Memory.read, if_neg this]
    exact ih fun c hc => h c (List.mem_cons_of_mem _ hc)

/-- A write is read back. -/
theorem Memory.read_write_same (m : Memory) (k : Nat) (v : Word) (h : Memory.wf m = true) :
    (m.write k v).read k = v := by
  rw [Memory.wf_iff] at h
  induction m with
  | nil => unfold Memory.write; split <;> simp_all [Memory.read]
  | cons d rest ih =>
    obtain ⟨a, w⟩ := d
    obtain ⟨hp, hv⟩ := h
    rw [List.pairwise_cons] at hp
    unfold Memory.write
    split
    · rename_i hk
      split
      · rename_i h0
        rw [h0]
        refine Memory.read_below _ _ fun c hc => ?_
        rcases List.mem_cons.1 hc with rfl | hc
        · exact hk
        · exact lt_trans hk (hp.1 c hc)
      · simp [Memory.read]
    · split
      · rename_i hka
        split
        · rename_i h0
          rw [h0, hka]
          exact Memory.read_below _ _ hp.1
        · simp [Memory.read]
      · rename_i hka
        simp only [Memory.read, if_neg hka]
        exact ih ⟨hp.2, fun c hc => hv c (List.mem_cons_of_mem _ hc)⟩

end Sys2Proof.Machine
end

