-- ==== Sys2Proof/Laws/State.lean ====
section
/-! SUPPORT. What each update of the state leaves of each field: one lemma a field, so that no later proof unfolds an
update. -/

namespace Sys2Proof.Machine

/-! `State.visit` -/

@[simp] theorem State.visit_params (s : State) (inst : Instance) : (s.visit inst).params = s.params := rfl
@[simp] theorem State.visit_regs (s : State) (inst : Instance) : (s.visit inst).regs = s.regs := rfl
@[simp] theorem State.visit_pc (s : State) (inst : Instance) : (s.visit inst).pc = s.pc := rfl
@[simp] theorem State.visit_dmem (s : State) (inst : Instance) : (s.visit inst).dmem = s.dmem := rfl
@[simp] theorem State.visit_ras (s : State) (inst : Instance) : (s.visit inst).ras = s.ras := rfl
@[simp] theorem State.visit_btb (s : State) (inst : Instance) : (s.visit inst).btb = s.btb := rfl
@[simp] theorem State.visit_imem (s : State) (inst : Instance) : (s.visit inst).imem = s.imem := rfl
@[simp] theorem State.visit_window (s : State) (inst : Instance) : (s.visit inst).window = s.window := rfl
@[simp] theorem State.visit_stalledPrev (s : State) (inst : Instance) : (s.visit inst).stalledPrev = s.stalledPrev := rfl
@[simp] theorem State.visit_cycle (s : State) (inst : Instance) : (s.visit inst).cycle = s.cycle := rfl
@[simp] theorem State.visit_nextSeq (s : State) (inst : Instance) : (s.visit inst).nextSeq = s.nextSeq := rfl
@[simp] theorem State.visit_fault (s : State) (inst : Instance) : (s.visit inst).fault = s.fault := rfl
@[simp] theorem State.visit_trace (s : State) (inst : Instance) : (s.visit inst).trace = s.trace := rfl
@[simp] theorem State.visit_wires (s : State) (inst : Instance) : (s.visit inst).wires = { s.wires with visiting := some inst, status := .done } := rfl

/-! `State.raise` -/

@[simp] theorem State.raise_params (s : State) (f : Fault) : (s.raise f).params = s.params := rfl
@[simp] theorem State.raise_regs (s : State) (f : Fault) : (s.raise f).regs = s.regs := rfl
@[simp] theorem State.raise_pc (s : State) (f : Fault) : (s.raise f).pc = s.pc := rfl
@[simp] theorem State.raise_dmem (s : State) (f : Fault) : (s.raise f).dmem = s.dmem := rfl
@[simp] theorem State.raise_ras (s : State) (f : Fault) : (s.raise f).ras = s.ras := rfl
@[simp] theorem State.raise_btb (s : State) (f : Fault) : (s.raise f).btb = s.btb := rfl
@[simp] theorem State.raise_imem (s : State) (f : Fault) : (s.raise f).imem = s.imem := rfl
@[simp] theorem State.raise_window (s : State) (f : Fault) : (s.raise f).window = s.window := rfl
@[simp] theorem State.raise_stalledPrev (s : State) (f : Fault) : (s.raise f).stalledPrev = s.stalledPrev := rfl
@[simp] theorem State.raise_cycle (s : State) (f : Fault) : (s.raise f).cycle = s.cycle := rfl
@[simp] theorem State.raise_nextSeq (s : State) (f : Fault) : (s.raise f).nextSeq = s.nextSeq := rfl
@[simp] theorem State.raise_fault (s : State) (f : Fault) : (s.raise f).fault = some f := rfl
@[simp] theorem State.raise_trace (s : State) (f : Fault) : (s.raise f).trace = s.trace := rfl
@[simp] theorem State.raise_wires (s : State) (f : Fault) : (s.raise f).wires = s.wires := rfl

/-! `State.setReg` -/

@[simp] theorem State.setReg_params (s : State) (i : Nat) (v : Word) : (s.setReg i v).params = s.params := rfl
@[simp] theorem State.setReg_regs (s : State) (i : Nat) (v : Word) : (s.setReg i v).regs = s.regs.setIfInBounds i v := rfl
@[simp] theorem State.setReg_pc (s : State) (i : Nat) (v : Word) : (s.setReg i v).pc = s.pc := rfl
@[simp] theorem State.setReg_dmem (s : State) (i : Nat) (v : Word) : (s.setReg i v).dmem = s.dmem := rfl
@[simp] theorem State.setReg_ras (s : State) (i : Nat) (v : Word) : (s.setReg i v).ras = s.ras := rfl
@[simp] theorem State.setReg_btb (s : State) (i : Nat) (v : Word) : (s.setReg i v).btb = s.btb := rfl
@[simp] theorem State.setReg_imem (s : State) (i : Nat) (v : Word) : (s.setReg i v).imem = s.imem := rfl
@[simp] theorem State.setReg_window (s : State) (i : Nat) (v : Word) : (s.setReg i v).window = s.window := rfl
@[simp] theorem State.setReg_stalledPrev (s : State) (i : Nat) (v : Word) : (s.setReg i v).stalledPrev = s.stalledPrev := rfl
@[simp] theorem State.setReg_cycle (s : State) (i : Nat) (v : Word) : (s.setReg i v).cycle = s.cycle := rfl
@[simp] theorem State.setReg_nextSeq (s : State) (i : Nat) (v : Word) : (s.setReg i v).nextSeq = s.nextSeq := rfl
@[simp] theorem State.setReg_fault (s : State) (i : Nat) (v : Word) : (s.setReg i v).fault = s.fault := rfl
@[simp] theorem State.setReg_trace (s : State) (i : Nat) (v : Word) : (s.setReg i v).trace = s.trace := rfl
@[simp] theorem State.setReg_wires (s : State) (i : Nat) (v : Word) : (s.setReg i v).wires = s.wires := rfl

/-! `State.issue` -/

@[simp] theorem State.issue_params (s : State) (i : Instr) : (s.issue i).params = s.params := rfl
@[simp] theorem State.issue_regs (s : State) (i : Instr) : (s.issue i).regs = s.regs := rfl
@[simp] theorem State.issue_pc (s : State) (i : Instr) : (s.issue i).pc = s.pc := rfl
@[simp] theorem State.issue_dmem (s : State) (i : Instr) : (s.issue i).dmem = s.dmem := rfl
@[simp] theorem State.issue_ras (s : State) (i : Instr) : (s.issue i).ras = s.ras := rfl
@[simp] theorem State.issue_btb (s : State) (i : Instr) : (s.issue i).btb = s.btb := rfl
@[simp] theorem State.issue_imem (s : State) (i : Instr) : (s.issue i).imem = s.imem := rfl
@[simp] theorem State.issue_window (s : State) (i : Instr) : (s.issue i).window = s.window ++ [Instance.fresh i (wordIndex s.pc) s.nextSeq] := rfl
@[simp] theorem State.issue_stalledPrev (s : State) (i : Instr) : (s.issue i).stalledPrev = s.stalledPrev := rfl
@[simp] theorem State.issue_cycle (s : State) (i : Instr) : (s.issue i).cycle = s.cycle := rfl
@[simp] theorem State.issue_nextSeq (s : State) (i : Instr) : (s.issue i).nextSeq = s.nextSeq + 1 := rfl
@[simp] theorem State.issue_fault (s : State) (i : Instr) : (s.issue i).fault = s.fault := rfl
@[simp] theorem State.issue_trace (s : State) (i : Instr) : (s.issue i).trace = s.trace := rfl
@[simp] theorem State.issue_wires (s : State) (i : Instr) : (s.issue i).wires = s.wires := rfl

/-! `State.clearHazards` -/

@[simp] theorem State.clearHazards_params (s : State) : (s.clearHazards).params = s.params := rfl
@[simp] theorem State.clearHazards_regs (s : State) : (s.clearHazards).regs = s.regs := rfl
@[simp] theorem State.clearHazards_pc (s : State) : (s.clearHazards).pc = s.pc := rfl
@[simp] theorem State.clearHazards_dmem (s : State) : (s.clearHazards).dmem = s.dmem := rfl
@[simp] theorem State.clearHazards_ras (s : State) : (s.clearHazards).ras = s.ras := rfl
@[simp] theorem State.clearHazards_btb (s : State) : (s.clearHazards).btb = s.btb := rfl
@[simp] theorem State.clearHazards_imem (s : State) : (s.clearHazards).imem = s.imem := rfl
@[simp] theorem State.clearHazards_window (s : State) : (s.clearHazards).window = s.window := rfl
@[simp] theorem State.clearHazards_stalledPrev (s : State) : (s.clearHazards).stalledPrev = s.stalledPrev := rfl
@[simp] theorem State.clearHazards_cycle (s : State) : (s.clearHazards).cycle = s.cycle := rfl
@[simp] theorem State.clearHazards_nextSeq (s : State) : (s.clearHazards).nextSeq = s.nextSeq := rfl
@[simp] theorem State.clearHazards_fault (s : State) : (s.clearHazards).fault = s.fault := rfl
@[simp] theorem State.clearHazards_trace (s : State) : (s.clearHazards).trace = s.trace := rfl
@[simp] theorem State.clearHazards_wires (s : State) : (s.clearHazards).wires = { Wires.idle with snapshot := s.window } := rfl

/-! `State.markStalled` -/

@[simp] theorem State.markStalled_params (s : State) : (s.markStalled).params = s.params := rfl
@[simp] theorem State.markStalled_regs (s : State) : (s.markStalled).regs = s.regs := rfl
@[simp] theorem State.markStalled_pc (s : State) : (s.markStalled).pc = s.pc := rfl
@[simp] theorem State.markStalled_dmem (s : State) : (s.markStalled).dmem = s.dmem := rfl
@[simp] theorem State.markStalled_ras (s : State) : (s.markStalled).ras = s.ras := rfl
@[simp] theorem State.markStalled_btb (s : State) : (s.markStalled).btb = s.btb := rfl
@[simp] theorem State.markStalled_imem (s : State) : (s.markStalled).imem = s.imem := rfl
@[simp] theorem State.markStalled_window (s : State) : (s.markStalled).window = s.window := rfl
@[simp] theorem State.markStalled_stalledPrev (s : State) : (s.markStalled).stalledPrev = s.stalledPrev := rfl
@[simp] theorem State.markStalled_cycle (s : State) : (s.markStalled).cycle = s.cycle := rfl
@[simp] theorem State.markStalled_nextSeq (s : State) : (s.markStalled).nextSeq = s.nextSeq := rfl
@[simp] theorem State.markStalled_fault (s : State) : (s.markStalled).fault = s.fault := rfl
@[simp] theorem State.markStalled_trace (s : State) : (s.markStalled).trace = s.trace := rfl
@[simp] theorem State.markStalled_wires (s : State) : (s.markStalled).wires = { s.wires with stalled := true, visiting := none } := rfl

/-! `State.endCycle` -/

@[simp] theorem State.endCycle_params (s : State) : (s.endCycle).params = s.params := rfl
@[simp] theorem State.endCycle_regs (s : State) : (s.endCycle).regs = s.regs := rfl
@[simp] theorem State.endCycle_pc (s : State) : (s.endCycle).pc = s.pc := rfl
@[simp] theorem State.endCycle_dmem (s : State) : (s.endCycle).dmem = s.dmem := rfl
@[simp] theorem State.endCycle_ras (s : State) : (s.endCycle).ras = s.ras := rfl
@[simp] theorem State.endCycle_btb (s : State) : (s.endCycle).btb = s.btb := rfl
@[simp] theorem State.endCycle_imem (s : State) : (s.endCycle).imem = s.imem := rfl
@[simp] theorem State.endCycle_window (s : State) : (s.endCycle).window = s.window := rfl
@[simp] theorem State.endCycle_stalledPrev (s : State) : (s.endCycle).stalledPrev = (s.wires.stalled && !s.wires.jumped) := rfl
@[simp] theorem State.endCycle_cycle (s : State) : (s.endCycle).cycle = s.cycle + 1 := rfl
@[simp] theorem State.endCycle_nextSeq (s : State) : (s.endCycle).nextSeq = s.nextSeq := rfl
@[simp] theorem State.endCycle_fault (s : State) : (s.endCycle).fault = s.fault := rfl
@[simp] theorem State.endCycle_trace (s : State) : (s.endCycle).trace = s.trace ++ [s.wires.events] := rfl
@[simp] theorem State.endCycle_wires (s : State) : (s.endCycle).wires = Wires.idle := rfl

/-! `State.land`, by what the stage function answered -/

@[simp] theorem State.land_done (s t : State) (inst : Instance) : s.land (.done inst t) = t.visit inst := rfl

@[simp] theorem State.land_notReady (s : State) :
    s.land .notReady = { s with wires := { s.wires with status := .notReady } } := rfl

@[simp] theorem State.land_raise (s : State) (f : Fault) : s.land (.raise f) = s.raise f := rfl

/-! `State.squash`, `State.retire`, `State.advancePc`: only the window or the pc -/

theorem State.squash_eq (s : State) : s.squash = { s with window := s.squash.window } := by
  unfold State.squash; split <;> rfl

theorem State.retire_eq (s : State) : s.retire = { s with window := s.retire.window } := by
  unfold State.retire; split
  · rfl
  · split <;> rfl

theorem State.advancePc_eq (s : State) : s.advancePc = { s with pc := s.advancePc.pc } := by
  unfold State.advancePc; split <;> rfl

@[simp] theorem State.squash_params (s : State) : s.squash.params = s.params := by rw [State.squash_eq]
@[simp] theorem State.squash_regs (s : State) : s.squash.regs = s.regs := by rw [State.squash_eq]
@[simp] theorem State.squash_pc (s : State) : s.squash.pc = s.pc := by rw [State.squash_eq]
@[simp] theorem State.squash_dmem (s : State) : s.squash.dmem = s.dmem := by rw [State.squash_eq]
@[simp] theorem State.squash_ras (s : State) : s.squash.ras = s.ras := by rw [State.squash_eq]
@[simp] theorem State.squash_btb (s : State) : s.squash.btb = s.btb := by rw [State.squash_eq]
@[simp] theorem State.squash_imem (s : State) : s.squash.imem = s.imem := by rw [State.squash_eq]
@[simp] theorem State.squash_stalledPrev (s : State) : s.squash.stalledPrev = s.stalledPrev := by rw [State.squash_eq]
@[simp] theorem State.squash_cycle (s : State) : s.squash.cycle = s.cycle := by rw [State.squash_eq]
@[simp] theorem State.squash_nextSeq (s : State) : s.squash.nextSeq = s.nextSeq := by rw [State.squash_eq]
@[simp] theorem State.squash_fault (s : State) : s.squash.fault = s.fault := by rw [State.squash_eq]
@[simp] theorem State.squash_trace (s : State) : s.squash.trace = s.trace := by rw [State.squash_eq]
@[simp] theorem State.squash_wires (s : State) : s.squash.wires = s.wires := by rw [State.squash_eq]

@[simp] theorem State.retire_params (s : State) : s.retire.params = s.params := by rw [State.retire_eq]
@[simp] theorem State.retire_regs (s : State) : s.retire.regs = s.regs := by rw [State.retire_eq]
@[simp] theorem State.retire_pc (s : State) : s.retire.pc = s.pc := by rw [State.retire_eq]
@[simp] theorem State.retire_dmem (s : State) : s.retire.dmem = s.dmem := by rw [State.retire_eq]
@[simp] theorem State.retire_ras (s : State) : s.retire.ras = s.ras := by rw [State.retire_eq]
@[simp] theorem State.retire_btb (s : State) : s.retire.btb = s.btb := by rw [State.retire_eq]
@[simp] theorem State.retire_imem (s : State) : s.retire.imem = s.imem := by rw [State.retire_eq]
@[simp] theorem State.retire_stalledPrev (s : State) : s.retire.stalledPrev = s.stalledPrev := by rw [State.retire_eq]
@[simp] theorem State.retire_cycle (s : State) : s.retire.cycle = s.cycle := by rw [State.retire_eq]
@[simp] theorem State.retire_nextSeq (s : State) : s.retire.nextSeq = s.nextSeq := by rw [State.retire_eq]
@[simp] theorem State.retire_fault (s : State) : s.retire.fault = s.fault := by rw [State.retire_eq]
@[simp] theorem State.retire_trace (s : State) : s.retire.trace = s.trace := by rw [State.retire_eq]
@[simp] theorem State.retire_wires (s : State) : s.retire.wires = s.wires := by rw [State.retire_eq]

@[simp] theorem State.advancePc_params (s : State) : s.advancePc.params = s.params := by rw [State.advancePc_eq]
@[simp] theorem State.advancePc_regs (s : State) : s.advancePc.regs = s.regs := by rw [State.advancePc_eq]
@[simp] theorem State.advancePc_dmem (s : State) : s.advancePc.dmem = s.dmem := by rw [State.advancePc_eq]
@[simp] theorem State.advancePc_ras (s : State) : s.advancePc.ras = s.ras := by rw [State.advancePc_eq]
@[simp] theorem State.advancePc_btb (s : State) : s.advancePc.btb = s.btb := by rw [State.advancePc_eq]
@[simp] theorem State.advancePc_imem (s : State) : s.advancePc.imem = s.imem := by rw [State.advancePc_eq]
@[simp] theorem State.advancePc_window (s : State) : s.advancePc.window = s.window := by rw [State.advancePc_eq]
@[simp] theorem State.advancePc_stalledPrev (s : State) : s.advancePc.stalledPrev = s.stalledPrev := by rw [State.advancePc_eq]
@[simp] theorem State.advancePc_cycle (s : State) : s.advancePc.cycle = s.cycle := by rw [State.advancePc_eq]
@[simp] theorem State.advancePc_nextSeq (s : State) : s.advancePc.nextSeq = s.nextSeq := by rw [State.advancePc_eq]
@[simp] theorem State.advancePc_fault (s : State) : s.advancePc.fault = s.fault := by rw [State.advancePc_eq]
@[simp] theorem State.advancePc_trace (s : State) : s.advancePc.trace = s.trace := by rw [State.advancePc_eq]
@[simp] theorem State.advancePc_wires (s : State) : s.advancePc.wires = s.wires := by rw [State.advancePc_eq]

/-! `applyJump` and `btbUpdate` -/

theorem applyJump_eq (s : State) (j : JumpIntent) : applyJump s j = { s with pc := (applyJump s j).pc } := by
  unfold applyJump; split <;> rfl

theorem btbUpdate_eq (s : State) (p t : Word) (taken : Bool) :
    btbUpdate s p t taken = { s with btb := (btbUpdate s p t taken).btb } := by
  unfold btbUpdate; split <;> rfl

@[simp] theorem applyJump_params (s : State) (j : JumpIntent) : (applyJump s j).params = s.params := by rw [applyJump_eq]
@[simp] theorem applyJump_regs (s : State) (j : JumpIntent) : (applyJump s j).regs = s.regs := by rw [applyJump_eq]
@[simp] theorem applyJump_dmem (s : State) (j : JumpIntent) : (applyJump s j).dmem = s.dmem := by rw [applyJump_eq]
@[simp] theorem applyJump_ras (s : State) (j : JumpIntent) : (applyJump s j).ras = s.ras := by rw [applyJump_eq]
@[simp] theorem applyJump_btb (s : State) (j : JumpIntent) : (applyJump s j).btb = s.btb := by rw [applyJump_eq]
@[simp] theorem applyJump_imem (s : State) (j : JumpIntent) : (applyJump s j).imem = s.imem := by rw [applyJump_eq]
@[simp] theorem applyJump_window (s : State) (j : JumpIntent) : (applyJump s j).window = s.window := by rw [applyJump_eq]
@[simp] theorem applyJump_stalledPrev (s : State) (j : JumpIntent) : (applyJump s j).stalledPrev = s.stalledPrev := by rw [applyJump_eq]
@[simp] theorem applyJump_cycle (s : State) (j : JumpIntent) : (applyJump s j).cycle = s.cycle := by rw [applyJump_eq]
@[simp] theorem applyJump_nextSeq (s : State) (j : JumpIntent) : (applyJump s j).nextSeq = s.nextSeq := by rw [applyJump_eq]
@[simp] theorem applyJump_fault (s : State) (j : JumpIntent) : (applyJump s j).fault = s.fault := by rw [applyJump_eq]
@[simp] theorem applyJump_trace (s : State) (j : JumpIntent) : (applyJump s j).trace = s.trace := by rw [applyJump_eq]
@[simp] theorem applyJump_wires (s : State) (j : JumpIntent) : (applyJump s j).wires = s.wires := by rw [applyJump_eq]

@[simp] theorem btbUpdate_params (s : State) (p t : Word) (b : Bool) : (btbUpdate s p t b).params = s.params := by rw [btbUpdate_eq]
@[simp] theorem btbUpdate_regs (s : State) (p t : Word) (b : Bool) : (btbUpdate s p t b).regs = s.regs := by rw [btbUpdate_eq]
@[simp] theorem btbUpdate_pc (s : State) (p t : Word) (b : Bool) : (btbUpdate s p t b).pc = s.pc := by rw [btbUpdate_eq]
@[simp] theorem btbUpdate_dmem (s : State) (p t : Word) (b : Bool) : (btbUpdate s p t b).dmem = s.dmem := by rw [btbUpdate_eq]
@[simp] theorem btbUpdate_ras (s : State) (p t : Word) (b : Bool) : (btbUpdate s p t b).ras = s.ras := by rw [btbUpdate_eq]
@[simp] theorem btbUpdate_imem (s : State) (p t : Word) (b : Bool) : (btbUpdate s p t b).imem = s.imem := by rw [btbUpdate_eq]
@[simp] theorem btbUpdate_window (s : State) (p t : Word) (b : Bool) : (btbUpdate s p t b).window = s.window := by rw [btbUpdate_eq]
@[simp] theorem btbUpdate_stalledPrev (s : State) (p t : Word) (b : Bool) : (btbUpdate s p t b).stalledPrev = s.stalledPrev := by rw [btbUpdate_eq]
@[simp] theorem btbUpdate_cycle (s : State) (p t : Word) (b : Bool) : (btbUpdate s p t b).cycle = s.cycle := by rw [btbUpdate_eq]
@[simp] theorem btbUpdate_nextSeq (s : State) (p t : Word) (b : Bool) : (btbUpdate s p t b).nextSeq = s.nextSeq := by rw [btbUpdate_eq]
@[simp] theorem btbUpdate_fault (s : State) (p t : Word) (b : Bool) : (btbUpdate s p t b).fault = s.fault := by rw [btbUpdate_eq]
@[simp] theorem btbUpdate_trace (s : State) (p t : Word) (b : Bool) : (btbUpdate s p t b).trace = s.trace := by rw [btbUpdate_eq]
@[simp] theorem btbUpdate_wires (s : State) (p t : Word) (b : Bool) : (btbUpdate s p t b).wires = s.wires := by rw [btbUpdate_eq]

/-! `honor` and `settle` write the pc, the window and the wires only -/

theorem honor_eq (s : State) (k : Nat) (inst : Instance) :
    honor s k inst = { s with
      pc := (honor s k inst).pc, window := (honor s k inst).window, wires := (honor s k inst).wires } := by
  unfold honor; split
  · rfl
  · split
    · unfold applyJump; split <;> rfl
    · rfl

@[simp] theorem honor_params (s : State) (k : Nat) (inst : Instance) : (honor s k inst).params = s.params := by rw [honor_eq]
@[simp] theorem honor_regs (s : State) (k : Nat) (inst : Instance) : (honor s k inst).regs = s.regs := by rw [honor_eq]
@[simp] theorem honor_dmem (s : State) (k : Nat) (inst : Instance) : (honor s k inst).dmem = s.dmem := by rw [honor_eq]
@[simp] theorem honor_ras (s : State) (k : Nat) (inst : Instance) : (honor s k inst).ras = s.ras := by rw [honor_eq]
@[simp] theorem honor_btb (s : State) (k : Nat) (inst : Instance) : (honor s k inst).btb = s.btb := by rw [honor_eq]
@[simp] theorem honor_imem (s : State) (k : Nat) (inst : Instance) : (honor s k inst).imem = s.imem := by rw [honor_eq]
@[simp] theorem honor_stalledPrev (s : State) (k : Nat) (inst : Instance) : (honor s k inst).stalledPrev = s.stalledPrev := by rw [honor_eq]
@[simp] theorem honor_cycle (s : State) (k : Nat) (inst : Instance) : (honor s k inst).cycle = s.cycle := by rw [honor_eq]
@[simp] theorem honor_nextSeq (s : State) (k : Nat) (inst : Instance) : (honor s k inst).nextSeq = s.nextSeq := by rw [honor_eq]
@[simp] theorem honor_fault (s : State) (k : Nat) (inst : Instance) : (honor s k inst).fault = s.fault := by rw [honor_eq]
@[simp] theorem honor_trace (s : State) (k : Nat) (inst : Instance) : (honor s k inst).trace = s.trace := by rw [honor_eq]

@[simp] theorem settle_params (s : State) (k : Nat) (inst : Instance) (st : Stage) :
    (settle s k inst st).params = s.params := by simp [settle]
@[simp] theorem settle_regs (s : State) (k : Nat) (inst : Instance) (st : Stage) :
    (settle s k inst st).regs = s.regs := by simp [settle]
@[simp] theorem settle_dmem (s : State) (k : Nat) (inst : Instance) (st : Stage) :
    (settle s k inst st).dmem = s.dmem := by simp [settle]
@[simp] theorem settle_ras (s : State) (k : Nat) (inst : Instance) (st : Stage) :
    (settle s k inst st).ras = s.ras := by simp [settle]
@[simp] theorem settle_btb (s : State) (k : Nat) (inst : Instance) (st : Stage) :
    (settle s k inst st).btb = s.btb := by simp [settle]
@[simp] theorem settle_imem (s : State) (k : Nat) (inst : Instance) (st : Stage) :
    (settle s k inst st).imem = s.imem := by simp [settle]
@[simp] theorem settle_stalledPrev (s : State) (k : Nat) (inst : Instance) (st : Stage) :
    (settle s k inst st).stalledPrev = s.stalledPrev := by simp [settle]
@[simp] theorem settle_cycle (s : State) (k : Nat) (inst : Instance) (st : Stage) :
    (settle s k inst st).cycle = s.cycle := by simp [settle]
@[simp] theorem settle_nextSeq (s : State) (k : Nat) (inst : Instance) (st : Stage) :
    (settle s k inst st).nextSeq = s.nextSeq := by simp [settle]
@[simp] theorem settle_fault (s : State) (k : Nat) (inst : Instance) (st : Stage) :
    (settle s k inst st).fault = s.fault := by simp [settle]
@[simp] theorem settle_trace (s : State) (k : Nat) (inst : Instance) (st : Stage) :
    (settle s k inst st).trace = s.trace := by simp [settle]

end Sys2Proof.Machine
end

