-- ==== Sys2Proof/Laws/Ops.lean ====
section
/-! SUPPORT. For each shared operation one lemma that says what it can answer, and what its answer leaves. -/

namespace Sys2Proof.Machine

/-! ## Data memory -/

theorem wordIndex_eq (a : Word) : wordIndex a = a.toNat / 4 := rfl

theorem memWrite_ok {s t : State} {a v : Word} (h : memWrite s a v = .ok t) :
    wordIndex a < s.params.dmemWords ∧ t = { s with dmem := s.dmem.write (wordIndex a) v } := by
  unfold memWrite at h
  split at h
  · rename_i hk
    cases h
    exact ⟨hk, rfl⟩
  · cases h

theorem memWrite_error {s : State} {a v : Word} {c : Cause} (h : memWrite s a v = .error c) :
    s.params.dmemWords ≤ wordIndex a ∧ c = .memIndexOutOfRange a := by
  unfold memWrite at h
  split at h
  · cases h
  · rename_i hk
    cases h
    exact ⟨Nat.le_of_not_lt hk, rfl⟩

theorem memRead_ok {s : State} {a v : Word} (h : memRead s a = .ok v) :
    wordIndex a < s.params.dmemWords ∧ v = s.dmem.read (wordIndex a) := by
  unfold memRead at h
  split at h
  · rename_i hk
    cases h
    exact ⟨hk, rfl⟩
  · cases h

theorem memRead_error {s : State} {a : Word} {c : Cause} (h : memRead s a = .error c) :
    s.params.dmemWords ≤ wordIndex a ∧ c = .memIndexOutOfRange a := by
  unfold memRead at h
  split at h
  · cases h
  · rename_i hk
    cases h
    exact ⟨Nat.le_of_not_lt hk, rfl⟩

/-! ## Registers -/

@[simp] theorem State.reg_zero (s : State) : s.reg 0 = 0 := rfl

/-- Setting a register of the file is read back, and every other register reads as before. -/
theorem State.reg_setReg (s : State) (i j : Nat) (v : Word) (h0 : i ≠ 0) (hi : i < 32) :
    (s.setReg i v).reg j = if j = i then v else s.reg j := by
  unfold State.reg State.setReg
  by_cases hj : j = 0
  · subst hj
    rw [if_pos rfl, if_neg (Ne.symm h0), if_pos rfl]
  · rw [if_neg hj, if_neg hj]
    simp only [Vector.toList_setIfInBounds]
    by_cases hji : j = i
    · subst hji
      simp [List.getD, hi]
    · simp [List.getD, hji, Ne.symm hji]

theorem regWrite_ok {s t : State} {i : Nat} {v : Word} (h : regWrite s i v = .ok t) :
    i ≠ 0 ∧ i < 32 ∧ t = s.setReg i v := by
  unfold regWrite at h
  split at h
  · cases h
  · rename_i h0
    split at h
    · rename_i hi
      cases h
      exact ⟨h0, hi, rfl⟩
    · cases h

theorem regWrite_error {s : State} {i : Nat} {v : Word} {c : Cause} (h : regWrite s i v = .error c) :
    (i = 0 ∧ c = .regZeroWrite) ∨ (32 ≤ i ∧ c = .regIndexOutOfRange i) := by
  unfold regWrite at h
  split at h
  · rename_i h0
    cases h
    exact .inl ⟨h0, rfl⟩
  · split at h
    · cases h
    · rename_i hi
      cases h
      exact .inr ⟨Nat.le_of_not_lt hi, rfl⟩

/-! ## Return-address stack -/

theorem rasPush_ok {s t : State} {v : Word} (h : rasPush s v = .ok t) :
    rasFull s = false ∧ t = { s with ras := s.ras ++ [v] } := by
  unfold rasPush at h
  split at h
  · cases h
  · rename_i hf
    cases h
    exact ⟨by simpa using hf, rfl⟩

theorem rasPush_error {s : State} {v : Word} {c : Cause} (h : rasPush s v = .error c) :
    rasFull s = true ∧ c = .stackOverflow := by
  unfold rasPush at h
  split at h
  · rename_i hf
    cases h
    exact ⟨hf, rfl⟩
  · cases h

theorem rasPop_ok {s t : State} {v : Word} (h : rasPop s = .ok (v, t)) :
    s.ras.getLast? = some v ∧ t = { s with ras := s.ras.dropLast } := by
  unfold rasPop at h
  split at h
  · cases h
  · rename_i hv
    cases h
    exact ⟨hv, rfl⟩

theorem rasPop_error {s : State} {c : Cause} (h : rasPop s = .error c) :
    s.ras = [] ∧ c = .stackUnderflow := by
  unfold rasPop at h
  split at h
  · rename_i hv
    cases h
    exact ⟨List.getLast?_eq_none_iff.1 hv, rfl⟩
  · cases h

/-! ## Predictor -/

theorem btbUpdate_cases (s : State) (p t : Word) (taken : Bool) :
    btbUpdate s p t taken = s ∨
    btbUpdate s p t taken =
      { s with btb := s.btb.set (btbIndex s p) { valid := true, tag := p, target := t, taken := taken } } := by
  unfold btbUpdate
  split
  · exact .inr rfl
  · exact .inl rfl

/-! ## Instances -/

theorem Stage.next_eq_some {a b : Stage} (h : a.next = some b) : a ≠ .W ∧ b ≠ .PF := by
  cases a <;> simp_all [Stage.next] <;> subst h <;> simp

theorem Cause.toFault_ne_illegal (inst : Instance) (c : Cause) (w : Word) (k : Nat) :
    c.toFault inst ≠ .illegalInstruction w k := by
  cases c <;> simp [Cause.toFault]

/-! ## Driving an instruction -/

/-- Which of an instruction's four own stage functions, or the common fetch, follows a stage counter. -/
def stageFnAt (decode execute memory writeback : StageFn) : Stage → Option StageFn
  | .PF => some fetchStage
  | .F => some decode
  | .D => some execute
  | .E => some memory
  | .M => some writeback
  | .W => none

/-- All an instruction's step can do: create its instance, or land what its next stage function answers. -/
theorem drive_next {i : Instr} {d e m w : StageFn} {s t : State} (h : drive i d e m w s = .next t) :
    (s.wires.visiting = none ∧ t = s.issue i) ∨
    ∃ inst f, s.wires.visiting = some inst ∧ stageFnAt d e m w inst.stage = some f ∧ t = s.land (f s inst) := by
  unfold drive at h
  split at h
  · rename_i hv
    cases h
    exact .inl ⟨hv, rfl⟩
  · rename_i inst hv
    split at h
    all_goals first
      | (rename_i hs; cases h; exact .inr ⟨inst, _, hv, by rw [hs]; rfl, rfl⟩)
      | cases h

/-- An instruction's step never faults and refuses only an instance that has completed writeback. -/
theorem drive_total (i : Instr) (d e m w : StageFn) (s : State) :
    (∃ t, drive i d e m w s = .next t) ∨
    (drive i d e m w s = .refused .noNextStage ∧ ∃ inst, s.wires.visiting = some inst ∧ inst.stage = .W) := by
  unfold drive
  split
  · exact .inl ⟨_, rfl⟩
  · rename_i inst hv
    split
    all_goals first
      | exact .inl ⟨_, rfl⟩
      | (rename_i hs; exact .inr ⟨rfl, inst, hv, hs⟩)

/-! ## Operands -/

theorem acquire_raise {s : State} {r : Nat} {c : Cause} (h : acquire s r = .raise c) :
    32 ≤ r ∧ c = .regIndexOutOfRange r := by
  unfold acquire at h
  split at h
  · split at h <;> cases h
  · split at h
    · cases h
    · rename_i hr
      cases h
      unfold regRead at hr
      split at hr
      · cases hr
      · rename_i hi
        cases hr
        exact ⟨Nat.le_of_not_lt hi, rfl⟩

theorem acquire_of_not_awaiting {s : State} {r : Nat} (h : r ∉ s.wires.awaiting) (hr : r < 32) :
    acquire s r = .ready (s.reg r) := by
  simp [acquire, h, regRead, hr, Config.numRegs]

/-- A stage that needs one register does its work with the acquired value, waits, or raises. -/
theorem withReg_cases (s : State) (inst : Instance) (r : Nat) (k : Word → StageResult) :
    (∃ a, acquire s r = .ready a ∧ withReg s inst r k = k a) ∨
    (acquire s r = .notReady ∧ withReg s inst r k = .notReady) ∨
    (∃ c, acquire s r = .raise c ∧ withReg s inst r k = .raise (c.toFault inst)) := by
  unfold withReg
  cases acquire s r <;> simp

/-- A stage that needs two registers does its work with both values, waits for one, or raises. -/
theorem withRegs_cases (s : State) (inst : Instance) (r q : Nat) (k : Word → Word → StageResult) :
    (∃ a b, acquire s r = .ready a ∧ acquire s q = .ready b ∧ withRegs s inst r q k = k a b) ∨
    ((acquire s r = .notReady ∨ acquire s q = .notReady) ∧ withRegs s inst r q k = .notReady) ∨
    (∃ c, (acquire s r = .raise c ∨ acquire s q = .raise c) ∧ withRegs s inst r q k = .raise (c.toFault inst)) := by
  unfold withRegs
  cases acquire s r <;> cases acquire s q <;> simp

end Sys2Proof.Machine
end

