-- ==== Sys2Proof/Laws/Exec.lean ====
section
/-! SUPPORT. What `exec` can do, said once: every instruction's step is `drive` of its four own stage functions, and
each stage function changes only what is named here. -/

namespace Sys2Proof.Machine

/-- The decode stage of an instruction (R119). -/
def decodeOf : Instr → StageFn
  | .jr rs => jrDecode rs
  | .j target => jDecode target
  | .jal target => jalDecode target
  | .call target => callDecode target
  | .ret => retDecode
  | .ble _ _ imm => bleDecode imm
  | .nop | .add _ _ _ | .xor _ _ _ | .slt _ _ _ | .addi _ _ _ | .lw _ _ _ | .sw _ _ _ => idleStage

/-- The execute stage of an instruction (R119). -/
def executeOf : Instr → StageFn
  | .add rd rs rt => addExecute rd rs rt
  | .xor rd rs rt => xorExecute rd rs rt
  | .slt rd rs rt => sltExecute rd rs rt
  | .addi rt rs imm => addiExecute rt rs imm
  | .lw rt rs imm => lwExecute rt rs imm
  | .sw rt rs imm => swExecute rt rs imm
  | .jal _ => jalExecute
  | .ble rs rt _ => bleExecute rs rt
  | .nop | .jr _ | .j _ | .call _ | .ret => idleStage

/-- The memory stage of an instruction (R119). -/
def memoryOf : Instr → StageFn
  | .add _ _ _ | .xor _ _ _ | .slt _ _ _ | .addi _ _ _ => publishResult
  | .lw _ _ _ => lwMemory
  | .sw _ _ _ => swMemory
  | .nop | .jr _ | .j _ | .jal _ | .ble _ _ _ | .call _ | .ret => idleStage

/-- The writeback stage of an instruction (R117). -/
def writebackOf : Instr → StageFn
  | .lw _ _ _ => writebackPublishing
  | .nop | .add _ _ _ | .xor _ _ _ | .slt _ _ _ | .addi _ _ _ | .sw _ _ _ | .jr _ | .j _ | .jal _
  | .ble _ _ _ | .call _ | .ret => writebackStage

/-- The stage function that follows a stage counter. -/
def stageFnOf (i : Instr) (st : Stage) : Option StageFn :=
  stageFnAt (decodeOf i) (executeOf i) (memoryOf i) (writebackOf i) st

theorem exec_eq_drive (i : Instr) (s : State) :
    exec i s = drive i (decodeOf i) (executeOf i) (memoryOf i) (writebackOf i) s := by
  cases i <;> rfl

/-- All `exec` can do when it answers a next state. -/
theorem exec_next {i : Instr} {s t : State} (h : exec i s = .next t) :
    (s.wires.visiting = none ∧ t = s.issue i) ∨
    ∃ inst f, s.wires.visiting = some inst ∧ stageFnOf i inst.stage = some f ∧ t = s.land (f s inst) :=
  drive_next (exec_eq_drive i s ▸ h)

/-- `exec` on a visited instance whose stage function is known. -/
theorem exec_visiting {i : Instr} {s : State} {inst : Instance} {f : StageFn}
    (hv : s.wires.visiting = some inst) (hf : stageFnOf i inst.stage = some f) :
    exec i s = .next (s.land (f s inst)) := by
  rw [exec_eq_drive]
  unfold drive
  rw [hv]
  unfold stageFnOf stageFnAt at hf
  split at hf <;> cases hf <;> rename_i hs <;> simp only [hs]

theorem exec_not_visiting {i : Instr} {s : State} (hv : s.wires.visiting = none) :
    exec i s = .next (s.issue i) := by
  rw [exec_eq_drive]
  unfold drive
  rw [hv]

/-- `exec` refuses nothing but an instance that has completed writeback, and never answers a fault. -/
theorem exec_total (i : Instr) (s : State) :
    (∃ t, exec i s = .next t) ∨
    (exec i s = .refused .noNextStage ∧ ∃ inst, s.wires.visiting = some inst ∧ inst.stage = .W) := by
  rw [exec_eq_drive]
  exact drive_total _ _ _ _ _ _

end Sys2Proof.Machine
end

