-- ==== Sys2Proof/Laws/Engine.lean ====
section
/-! SUPPORT. What a sweep and a step can do, said once, with the induction over the sweep packaged. -/

namespace Sys2Proof.Machine

/-- All the issue step can do (R172). -/
theorem issueStep_next {s t : State} (hv : s.wires.visiting = none) (h : issueStep s = .next t) :
    t = s ∧ (s.stalledPrev = true ∨ fetchable s = false) ∨
    (∃ i, s.stalledPrev = false ∧ s.at i ∧ t = s.issue i) ∨
    (∃ w, s.stalledPrev = false ∧ s.imem[wordIndex s.pc]? = some (.word w) ∧ decodeWord w = .illegal ∧
      t = s.raise (.illegalInstruction w (wordIndex s.pc))) := by
  unfold issueStep at h
  split at h
  · rename_i hs
    cases h
    exact .inl ⟨rfl, .inl hs⟩
  · rename_i hs
    split at h
    · rename_i hk
      cases h
      exact .inl ⟨rfl, .inr (by simpa [fetchable] using hk)⟩
    · rename_i slot hk
      split at h
      · rename_i i hi
        rw [exec_not_visiting hv] at h
        cases h
        exact .inr (.inl ⟨i, by simpa using hs, ⟨slot, hk, hi⟩, rfl⟩)
      · rename_i hi
        cases h
        cases slot with
        | word w => exact .inr (.inr ⟨w, by simpa using hs, hk, hi, rfl⟩)
        | record i text => cases hi

/-- The forward map without `d` answers for every other register as before. -/
theorem lookup_forwardClear (m : List (Nat × Word)) (d r : Nat) :
    (forwardClear m d).lookup r = if r = d then none else m.lookup r := by
  unfold forwardClear
  induction m with
  | nil => simp
  | cons a m ih =>
    obtain ⟨x, v⟩ := a
    by_cases hx : x = d
    · subst hx
      by_cases hr : r = x
      · simpa [hr] using ih
      · have hb : (r == x) = false := by simpa using hr
        simpa [List.lookup, hb, hr] using ih
    · by_cases hr : r = x
      · subst hr
        simp [List.lookup, hx]
      · have hb : (r == x) = false := by simpa using hr
        simpa [List.lookup, hx, hb] using ih

/-- The forward map with `d` mapped to `v` answers `v` for `d` and for every other register as before. -/
theorem lookup_forwardSet (m : List (Nat × Word)) (d r : Nat) (v : Word) :
    (forwardSet m d v).lookup r = if r = d then some v else m.lookup r := by
  have h := lookup_forwardClear m d r
  unfold forwardClear at h
  by_cases hr : r = d
  · simp [forwardSet, hr]
  · have hb : (r == d) = false := by simpa using hr
    simpa [forwardSet, List.lookup, hb, hr] using h

/-- The hazard bookkeeping changes the hazard set and the forward map and no other wire. -/
theorem hazardUpdate_eq (w : Wires) (inst : Instance) : hazardUpdate w inst =
    { w with awaiting := (hazardUpdate w inst).awaiting, forward := (hazardUpdate w inst).forward } := by
  unfold hazardUpdate
  split
  · rfl
  · split <;> rfl

@[simp] theorem hazardUpdate_stalled (w : Wires) (inst : Instance) : (hazardUpdate w inst).stalled = w.stalled := by
  rw [hazardUpdate_eq]
@[simp] theorem hazardUpdate_jumped (w : Wires) (inst : Instance) : (hazardUpdate w inst).jumped = w.jumped := by
  rw [hazardUpdate_eq]
@[simp] theorem hazardUpdate_cut (w : Wires) (inst : Instance) : (hazardUpdate w inst).cut = w.cut := by
  rw [hazardUpdate_eq]
@[simp] theorem hazardUpdate_snapshot (w : Wires) (inst : Instance) :
    (hazardUpdate w inst).snapshot = w.snapshot := by rw [hazardUpdate_eq]
@[simp] theorem hazardUpdate_status (w : Wires) (inst : Instance) : (hazardUpdate w inst).status = w.status := by
  rw [hazardUpdate_eq]

/-- All the bookkeeping of an advanced instance does (R176, R177): the instance is back in its place with its intent
honored or as it was, and of the machine only the pc may have changed. -/
theorem settle_cases (s : State) (k : Nat) (inst : Instance) (next : Stage) :
    (∃ j, inst.jump = some j ∧ j.taken = true ∧ s.wires.jumped = false ∧
      settle s k inst next = { s with
        pc := (applyJump s j).pc
        window := s.window.set k { inst with stage := next, jump := some { j with taken := false } }
        wires := { hazardUpdate s.wires { inst with stage := next } with
          events := s.wires.events ++ [{ stage := next, seq := inst.seq }]
          visiting := none, jumped := true, cut := some k } }) ∨
    ((∀ j, inst.jump = some j → j.taken = true → s.wires.jumped = true) ∧
      settle s k inst next = { s with
        window := s.window.set k { inst with stage := next }
        wires := { hazardUpdate s.wires { inst with stage := next } with
          events := s.wires.events ++ [{ stage := next, seq := inst.seq }]
          visiting := none } }) := by
  have hpc : ∀ (t u : State) (j : JumpIntent), t.pc = u.pc → (applyJump t j).pc = (applyJump u j).pc := by
    intro t u j h
    unfold applyJump
    split <;> simp [h]
  unfold settle honor
  cases hj : inst.jump with
  | none => exact .inr ⟨by simp, rfl⟩
  | some j =>
    cases ht : j.taken <;> cases hw : s.wires.jumped
    · exact .inr ⟨by simp [ht], by simp [ht]⟩
    · exact .inr ⟨by simp, by simp [ht]⟩
    · refine .inl ⟨j, rfl, ht, rfl, ?_⟩
      simp only [ht, hazardUpdate_jumped, hw, Bool.not_false, Bool.and_self, if_true, List.set_set,
        applyJump_window, applyJump_wires]
      rw [applyJump_eq]
      simp only
      congr 1
      exact hpc _ _ _ rfl
    · exact .inr ⟨by simp, by simp [hw]⟩

/-- The sweep, by induction: what holds before each instance is visited (`P`, of the instances still to visit, the
position and the state) and what is to hold at its end, at its stall and at its fault (`Q`). -/
theorem sweep_induct {P : List Instance → Nat → State → Prop} {Q : State → Prop}
    (hnil : ∀ k s, P [] k s → Q s)
    (hstep : ∀ inst rest k s t, P (inst :: rest) k s → exec inst.instr (s.visit inst) = .next t →
      (t.fault ≠ none → Q t) ∧
      (t.fault = none → t.wires.status = .notReady → Q t.markStalled) ∧
      (∀ inst' next, t.fault = none → t.wires.status = .done → t.wires.visiting = some inst' →
        inst.stage.next = some next → P rest (k + 1) (settle t k inst' next))) :
    ∀ l k s t, P l k s → sweep l k s = .next t → Q t := by
  intro l
  induction l with
  | nil =>
    intro k s t hP h
    cases h
    exact hnil k s hP
  | cons inst rest ih =>
    intro k s t hP h
    unfold sweep at h
    split at h
    · rename_i u hu
      obtain ⟨hraise, hstall, hdone⟩ := hstep inst rest k s u hP hu
      split at h
      · rename_i f hf
        cases h
        exact hraise (by simp [hf])
      · rename_i hf hs
        cases h
        exact hstall hf hs
      · rename_i inst' next hf hs hv hn
        exact ih _ _ _ (hdone inst' next hf hs hv hn) h
      · cases h
    · cases h
    · cases h

/-- All a step can do when it answers a next state (R183). -/
theorem step_next {s t : State} (h : step s = .next t) :
    s.fault = none ∧
    (hasWork s = false ∧ t = s ∨
     hasWork s = true ∧ ∃ u, issueStep { s with wires := Wires.idle } = .next u ∧
       (u.fault ≠ none ∧ t = u ∨
        u.fault = none ∧ ∃ v, sweep u.window 0 u.clearHazards = .next v ∧
          (v.fault ≠ none ∧ t = v ∨ v.fault = none ∧ t = v.finish))) := by
  unfold step oneCycle at h
  split at h
  · cases h
  · rename_i hf
    refine ⟨hf, ?_⟩
    split at h
    · rename_i hw
      refine .inr ⟨hw, ?_⟩
      split at h
      · rename_i u hu
        refine ⟨u, hu, ?_⟩
        unfold afterIssue at h
        split at h
        · rename_i f hfu
          cases h
          exact .inl ⟨by simp [hfu], rfl⟩
        · rename_i hfu
          refine .inr ⟨hfu, ?_⟩
          split at h
          · rename_i v hv
            refine ⟨v, hv, ?_⟩
            cases h
            split
            · rename_i hs
              exact .inl ⟨by simpa [Option.isSome_iff_ne_none] using hs, rfl⟩
            · rename_i hs
              exact .inr ⟨by simpa [Option.isSome_iff_ne_none] using hs, rfl⟩
          · cases h
          · cases h
      · cases h
      · cases h
    · rename_i hw
      cases h
      exact .inl ⟨by simpa using hw, rfl⟩

end Sys2Proof.Machine
end

