-- ==== Sys2Proof/Laws/HostPort.lean ====
section
/-! SUPPORT. What the host's load can do, said once. -/

namespace Sys2Proof.Machine

/-- A load into the instruction store that is done changes only the program, before the first cycle. -/
theorem loadSlots_done {s t : State} {imem : List Slot} (h : loadSlots s imem = .done t) :
    beforeFirstCycle s = true ∧ imem.length ≤ 2 ^ 30 ∧ t = { s with imem := imem } := by
  unfold loadSlots at h
  split at h
  · cases h
  · rename_i hb
    split at h
    · cases h
    · rename_i hl
      cases h
      exact ⟨by simpa using hb, Nat.le_of_not_lt hl, rfl⟩

/-- A load of a whole program that is done found none loaded. -/
theorem loadProgram_done {s t : State} {imem : List Slot} (h : loadProgram s imem = .done t) :
    beforeFirstCycle s = true ∧ s.imem = [] ∧ imem.length ≤ 2 ^ 30 ∧ t = { s with imem := imem } := by
  unfold loadProgram at h
  split at h
  · cases h
  · rename_i hc
    obtain ⟨hb, hl, rfl⟩ := loadSlots_done h
    exact ⟨hb, by simpa [hb] using hc, hl, rfl⟩

end Sys2Proof.Machine
end

