-- ==== Sys2Proof/Laws/PerInstr.lean ====
section
/-! SUPPORT. Facts about every instruction as syntax, one lemma for each. -/

namespace Sys2Proof.Laws

/-- The fixed fields of an instruction's row of the opcode map, as (lowest bit, length, value) (R91). -/
def fixedFields : Instr → List (Nat × Nat × Nat)
  | .nop => [(26, 6, 0x00), (0, 26, 0)]
  | .add _ _ _ => [(26, 6, 0x00), (6, 5, 0), (0, 6, 0x20)]
  | .xor _ _ _ => [(26, 6, 0x00), (6, 5, 0), (0, 6, 0x26)]
  | .slt _ _ _ => [(26, 6, 0x00), (6, 5, 0), (0, 6, 0x2A)]
  | .jr _ => [(26, 6, 0x00), (6, 15, 0), (0, 6, 0x08)]
  | .j _ => [(26, 6, 0x02)]
  | .jal _ => [(26, 6, 0x03)]
  | .ble _ _ _ => [(26, 6, 0x06)]
  | .addi _ _ _ => [(26, 6, 0x08)]
  | .lw _ _ _ => [(26, 6, 0x23)]
  | .sw _ _ _ => [(26, 6, 0x2B)]
  | .call _ => [(26, 6, 0x3E)]
  | .ret => [(26, 6, 0x3F), (0, 26, 0)]

namespace FixedFields

/-- The word of `i` has the fixed fields of `i`'s row. -/
def Statement (i : Instr) : Prop := ∀ f ∈ fixedFields i, bits (encode i) f.1 f.2.1 = f.2.2

theorem bits_ofNat (n lo len : Nat) : bits (BitVec.ofNat 32 n) lo len = n % 2 ^ 32 / 2 ^ lo % 2 ^ len := by
  simp [bits]

theorem encodeR_fields (rs rt rd funct : Nat) (hf : funct < 64) :
    bits (encodeR rs rt rd funct) 26 6 = 0 ∧ bits (encodeR rs rt rd funct) 6 5 = 0 ∧
    bits (encodeR rs rt rd funct) 0 6 = funct := by
  simp only [encodeR, bits_ofNat]
  omega

theorem encodeI_opcode (opcode rs rt : Nat) (imm : Word) (ho : opcode < 64) :
    bits (encodeI opcode rs rt imm) 26 6 = opcode := by
  have h : bits imm 0 16 < 65536 := Nat.mod_lt _ (by norm_num)
  simp only [encodeI, bits_ofNat]
  omega

theorem encodeJ_opcode (opcode : Nat) (target : Word) (ho : opcode < 64) :
    bits (encodeJ opcode target) 26 6 = opcode := by
  have h : bits target 2 26 < 2 ^ 26 := Nat.mod_lt _ (by norm_num)
  simp only [encodeJ, bits_ofNat]
  omega

theorem nop : Statement .nop := by
  unfold Statement
  decide

theorem add (rd rs rt : Nat) : Statement (.add rd rs rt) := by
  have h := encodeR_fields rs rt rd 0x20 (by norm_num)
  simpa [Statement, fixedFields, encode] using h

theorem xor (rd rs rt : Nat) : Statement (.xor rd rs rt) := by
  have h := encodeR_fields rs rt rd 0x26 (by norm_num)
  simpa [Statement, fixedFields, encode] using h

theorem slt (rd rs rt : Nat) : Statement (.slt rd rs rt) := by
  have h := encodeR_fields rs rt rd 0x2A (by norm_num)
  simpa [Statement, fixedFields, encode] using h

theorem jr (rs : Nat) : Statement (.jr rs) := by
  have h : bits (encodeR rs 0 0 0x08) 26 6 = 0 ∧ bits (encodeR rs 0 0 0x08) 6 15 = 0 ∧
      bits (encodeR rs 0 0 0x08) 0 6 = 0x08 := by
    simp only [encodeR, bits_ofNat]
    omega
  simpa [Statement, fixedFields, encode] using h

theorem j (target : Word) : Statement (.j target) := by
  simpa [Statement, fixedFields, encode] using encodeJ_opcode 0x02 target (by norm_num)

theorem jal (target : Word) : Statement (.jal target) := by
  simpa [Statement, fixedFields, encode] using encodeJ_opcode 0x03 target (by norm_num)

theorem ble (rs rt : Nat) (imm : Word) : Statement (.ble rs rt imm) := by
  simpa [Statement, fixedFields, encode] using encodeI_opcode 0x06 rs rt imm (by norm_num)

theorem addi (rt rs : Nat) (imm : Word) : Statement (.addi rt rs imm) := by
  simpa [Statement, fixedFields, encode] using encodeI_opcode 0x08 rs rt imm (by norm_num)

theorem lw (rt rs : Nat) (imm : Word) : Statement (.lw rt rs imm) := by
  simpa [Statement, fixedFields, encode] using encodeI_opcode 0x23 rs rt imm (by norm_num)

theorem sw (rt rs : Nat) (imm : Word) : Statement (.sw rt rs imm) := by
  simpa [Statement, fixedFields, encode] using encodeI_opcode 0x2B rs rt imm (by norm_num)

theorem call (target : Word) : Statement (.call target) := by
  simpa [Statement, fixedFields, encode] using encodeJ_opcode 0x3E target (by norm_num)

theorem ret : Statement .ret := by
  unfold Statement
  decide

end FixedFields

end Sys2Proof.Laws
end

