-- ==== Sys2Proof/Laws/Stages.lean ====
section
/-! SUPPORT. What a stage function that is done has changed, of the state and of its instance, and for what cause one
raises. -/

namespace Sys2Proof.Machine

/-- What a stage function of instruction `i`, called on `inst` in `s`, may have left when it is done. -/
structure StageEffect (i : Instr) (s : State) (inst : Instance) (inst' : Instance) (t : State) : Prop where
  rest : t = { s with regs := t.regs, dmem := t.dmem, ras := t.ras, btb := t.btb }
  regs : t.regs = s.regs ∨ inst.stage = .M ∧ ∃ d, inst.dest = some d ∧ d ≠ 0 ∧ d < 32 ∧
    t.regs = (s.setReg d inst.result).regs
  dmem : t.dmem = s.dmem ∨ inst.stage = .E ∧ (∃ rt rs imm, i = .sw rt rs imm) ∧
    wordIndex inst.addr < s.params.dmemWords ∧ t.dmem = s.dmem.write (wordIndex inst.addr) inst.sdata
  ras : t.ras = s.ras ∨ inst.stage = .F ∧ i = .ret ∧ t.ras = s.ras.dropLast ∨
    inst.stage = .F ∧ (∃ target, i = .call target) ∧ rasFull s = false ∧
      t.ras = s.ras ++ [nextAddress inst.pcSnap]
  btb : t.btb = s.btb ∨ inst.stage = .D ∧ (∃ rs rt imm, i = .ble rs rt imm) ∧
    ∃ taken, t.btb = s.btb.set (btbIndex s inst.pcSnap)
      { valid := true, tag := inst.pcSnap, target := inst.btarget, taken := taken }
  named : inst'.instr = inst.instr ∧ inst'.index = inst.index ∧ inst'.stage = inst.stage ∧ inst'.seq = inst.seq
  dest : inst'.dest = inst.dest ∨ inst.stage = .D ∧ inst'.dest = destOf i
  pcSnap : inst'.pcSnap = if inst.stage = .PF then s.pc else inst.pcSnap
  btarget : inst'.btarget = inst.btarget ∨ inst.stage = .F
  branch : ∀ rs rt imm, i = .ble rs rt imm → inst.stage = .F → inst'.btarget = branchTarget inst.pcSnap imm
  intent : inst'.jump = inst.jump ∨ inst.stage = .F ∨ inst.stage = .D

/-- A stage that changes nothing but latches of its instance other than those named. -/
theorem StageEffect.latch {i : Instr} {s : State} {inst inst' : Instance}
    (named : inst'.instr = inst.instr ∧ inst'.index = inst.index ∧ inst'.stage = inst.stage ∧ inst'.seq = inst.seq)
    (dest : inst'.dest = inst.dest ∨ inst.stage = .D ∧ inst'.dest = destOf i)
    (pcSnap : inst'.pcSnap = if inst.stage = .PF then s.pc else inst.pcSnap)
    (btarget : inst'.btarget = inst.btarget ∨ inst.stage = .F)
    (branch : ∀ rs rt imm, i = .ble rs rt imm → inst.stage = .F → inst'.btarget = branchTarget inst.pcSnap imm)
    (intent : inst'.jump = inst.jump ∨ inst.stage = .F ∨ inst.stage = .D) :
    StageEffect i s inst inst' s :=
  ⟨rfl, .inl rfl, .inl rfl, .inl rfl, .inl rfl, named, dest, pcSnap, btarget, branch, intent⟩

theorem idleStage_done {i : Instr} {s t : State} {inst inst' : Instance} (hne : inst.stage ≠ .PF)
    (hb : ∀ rs rt imm, i = .ble rs rt imm → inst.stage ≠ .F) (h : idleStage s inst = .done inst' t) :
    StageEffect i s inst inst' t := by
  cases h
  exact .latch ⟨rfl, rfl, rfl, rfl⟩ (.inl rfl) (by rw [if_neg hne]) (.inl rfl)
    (fun rs rt imm e hs => absurd hs (hb rs rt imm e)) (.inl rfl)

theorem writebackStage_done {i : Instr} {s t : State} {inst inst' : Instance} (hst : inst.stage = .M)
    (h : writebackStage s inst = .done inst' t) : StageEffect i s inst inst' t := by
  unfold writebackStage at h
  split at h
  · cases h
    exact .latch ⟨rfl, rfl, rfl, rfl⟩ (.inl rfl) (by simp [hst]) (.inl rfl) (by simp [hst]) (.inl rfl)
  · rename_i d hd
    split at h
    · rename_i u hu
      obtain ⟨h0, h32, rfl⟩ := regWrite_ok hu
      cases h
      exact ⟨rfl, .inr ⟨hst, d, hd, h0, h32, rfl⟩, .inl rfl, .inl rfl, .inl rfl, ⟨rfl, rfl, rfl, rfl⟩, .inl rfl,
        by simp [hst], .inl rfl, by simp [hst], .inl rfl⟩
    · cases h

theorem writebackPublishing_done {i : Instr} {s t : State} {inst inst' : Instance} (hst : inst.stage = .M)
    (h : writebackPublishing s inst = .done inst' t) : StageEffect i s inst inst' t := by
  unfold writebackPublishing at h
  split at h
  · cases h
    exact .latch ⟨rfl, rfl, rfl, rfl⟩ (.inl rfl) (by simp [hst]) (.inl rfl) (by simp [hst]) (.inl rfl)
  · rename_i d hd
    split at h
    · rename_i u hu
      obtain ⟨h0, h32, rfl⟩ := regWrite_ok hu
      cases h
      exact ⟨rfl, .inr ⟨hst, d, hd, h0, h32, rfl⟩, .inl rfl, .inl rfl, .inl rfl, ⟨rfl, rfl, rfl, rfl⟩, .inl rfl,
        by simp [hst], .inl rfl, by simp [hst], .inl rfl⟩
    · cases h

/-- An execute stage that latches its destination and changes nothing else of the state. -/
theorem StageEffect.execute {i : Instr} {s : State} {inst inst' : Instance} (hst : inst.stage = .D)
    (named : inst'.instr = inst.instr ∧ inst'.index = inst.index ∧ inst'.stage = inst.stage ∧ inst'.seq = inst.seq)
    (dest : inst'.dest = inst.dest ∨ inst'.dest = destOf i) (pcSnap : inst'.pcSnap = inst.pcSnap)
    (btarget : inst'.btarget = inst.btarget) :
    StageEffect i s inst inst' s :=
  .latch named (dest.imp_right fun h => ⟨hst, h⟩) (by simp [hst, pcSnap]) (.inl btarget) (by simp [hst])
    (.inr (.inr hst))

theorem withRegs_done {s t : State} {inst inst' : Instance} {r q : Nat} {k : Word → Word → StageResult}
    (h : withRegs s inst r q k = .done inst' t) :
    ∃ a b, acquire s r = .ready a ∧ acquire s q = .ready b ∧ k a b = .done inst' t := by
  rcases withRegs_cases s inst r q k with ⟨a, b, ha, hb, e⟩ | ⟨-, e⟩ | ⟨c, -, e⟩
  · exact ⟨a, b, ha, hb, e ▸ h⟩
  · rw [e] at h
    cases h
  · rw [e] at h
    cases h

theorem withReg_done {s t : State} {inst inst' : Instance} {r : Nat} {k : Word → StageResult}
    (h : withReg s inst r k = .done inst' t) : ∃ a, acquire s r = .ready a ∧ k a = .done inst' t := by
  rcases withReg_cases s inst r k with ⟨a, ha, e⟩ | ⟨-, e⟩ | ⟨c, -, e⟩
  · exact ⟨a, ha, e ▸ h⟩
  · rw [e] at h
    cases h
  · rw [e] at h
    cases h

theorem executeOf_done {i : Instr} {s t : State} {inst inst' : Instance} (hst : inst.stage = .D)
    (h : executeOf i s inst = .done inst' t) : StageEffect i s inst inst' t := by
  cases i
  case nop => exact idleStage_done (by simp [hst]) (by simp [hst]) h
  case jr => exact idleStage_done (by simp [hst]) (by simp [hst]) h
  case j => exact idleStage_done (by simp [hst]) (by simp [hst]) h
  case call => exact idleStage_done (by simp [hst]) (by simp [hst]) h
  case ret => exact idleStage_done (by simp [hst]) (by simp [hst]) h
  case jal =>
    cases h
    exact .execute hst ⟨rfl, rfl, rfl, rfl⟩ (.inr rfl) rfl rfl
  case addi rt rs imm =>
    obtain ⟨a, -, h⟩ := withReg_done h
    cases h
    exact .execute hst ⟨rfl, rfl, rfl, rfl⟩ (.inr rfl) rfl rfl
  case lw rt rs imm =>
    obtain ⟨a, -, h⟩ := withReg_done h
    cases h
    exact .execute hst ⟨rfl, rfl, rfl, rfl⟩ (.inr rfl) rfl rfl
  case ble rs rt imm =>
    obtain ⟨a, b, -, -, h⟩ := withRegs_done h
    cases h
    have hf : ∀ actual, bleCorrected inst actual = { inst with jump := (bleCorrected inst actual).jump } := by
      intro actual
      unfold bleCorrected
      split
      · rfl
      · split <;> rfl
    rw [hf]
    refine ⟨?_, .inl (by simp), .inl (by simp), .inl (by simp), ?_, ⟨rfl, rfl, rfl, rfl⟩, .inl rfl, by simp [hst],
      .inl rfl, by simp [hst], .inr (.inr hst)⟩
    · rcases btbUpdate_cases s inst.pcSnap inst.btarget (signedLessEq a b) with e | e <;> rw [e]
    · rcases btbUpdate_cases s inst.pcSnap inst.btarget (signedLessEq a b) with e | e <;> rw [e]
      · exact .inl rfl
      · exact .inr ⟨hst, ⟨rs, rt, imm, rfl⟩, _, rfl⟩
  case sw rt rs imm =>
    obtain ⟨a, b, -, -, h⟩ := withRegs_done h
    cases h
    exact .execute hst ⟨rfl, rfl, rfl, rfl⟩ (.inl rfl) rfl rfl
  all_goals
    obtain ⟨a, b, -, -, h⟩ := withRegs_done h
    cases h
    exact .execute hst ⟨rfl, rfl, rfl, rfl⟩ (.inr rfl) rfl rfl

/-- A decode stage that sets the intent and latches, and changes nothing of the state but the RAS. -/
theorem decodeOf_done {i : Instr} {s t : State} {inst inst' : Instance} (hst : inst.stage = .F)
    (h : decodeOf i s inst = .done inst' t) : StageEffect i s inst inst' t := by
  cases i
  case jr rs =>
    obtain ⟨a, -, h⟩ := withReg_done h
    cases h
    exact .latch ⟨rfl, rfl, rfl, rfl⟩ (.inl rfl) (by simp [hst]; rfl) (.inl rfl) (by simp) (.inr (.inl hst))
  case j =>
    cases h
    exact .latch ⟨rfl, rfl, rfl, rfl⟩ (.inl rfl) (by simp [hst]; rfl) (.inl rfl) (by simp) (.inr (.inl hst))
  case jal =>
    cases h
    exact .latch ⟨rfl, rfl, rfl, rfl⟩ (.inl rfl) (by simp [hst]; rfl) (.inl rfl) (by simp) (.inr (.inl hst))
  case call target =>
    simp only [decodeOf, callDecode] at h
    split at h
    · rename_i u hu
      obtain ⟨hf, rfl⟩ := rasPush_ok hu
      cases h
      exact ⟨rfl, .inl rfl, .inl rfl, .inr (.inr ⟨hst, ⟨target, rfl⟩, hf, rfl⟩), .inl rfl, ⟨rfl, rfl, rfl, rfl⟩,
        .inl rfl, by simp [hst]; rfl, .inl rfl, by simp, .inr (.inl hst)⟩
    · cases h
  case ret =>
    simp only [decodeOf, retDecode] at h
    split at h
    · rename_i v u hu
      obtain ⟨hf, rfl⟩ := rasPop_ok hu
      cases h
      exact ⟨rfl, .inl rfl, .inl rfl, .inr (.inl ⟨hst, rfl, rfl⟩), .inl rfl, ⟨rfl, rfl, rfl, rfl⟩,
        .inl rfl, by simp [hst]; rfl, .inl rfl, by simp, .inr (.inl hst)⟩
    · cases h
  case ble rs rt imm =>
    have hb : ∀ rs' rt' imm', Instr.ble rs rt imm = .ble rs' rt' imm' → imm = imm' := by
      intro _ _ _ e
      cases e
      rfl
    simp only [decodeOf, bleDecode] at h
    split at h
    all_goals try split at h
    all_goals
      cases h
      exact .latch ⟨rfl, rfl, rfl, rfl⟩ (.inl rfl) (by rw [if_neg (by simp [hst])]; rfl) (.inr hst)
        (fun _ _ _ e _ => hb _ _ _ e ▸ rfl) (.inr (.inl hst))
  all_goals exact idleStage_done (by simp [hst]) (by simp) h

theorem memoryOf_done {i : Instr} {s t : State} {inst inst' : Instance} (hst : inst.stage = .E)
    (h : memoryOf i s inst = .done inst' t) : StageEffect i s inst inst' t := by
  have hp : publishResult s inst = .done inst' t → StageEffect i s inst inst' t := by
    intro h
    cases h
    exact .latch ⟨rfl, rfl, rfl, rfl⟩ (.inl rfl) (by simp [hst]) (.inl rfl) (by simp [hst]) (.inl rfl)
  have hi : idleStage s inst = .done inst' t → StageEffect i s inst inst' t :=
    idleStage_done (by simp [hst]) (by simp [hst])
  cases i
  case lw rt rs imm =>
    simp only [memoryOf, lwMemory] at h
    split at h
    · cases h
      exact .latch ⟨rfl, rfl, rfl, rfl⟩ (.inl rfl) (by simp [hst]) (.inl rfl) (by simp [hst]) (.inl rfl)
    · cases h
  case sw rt rs imm =>
    simp only [memoryOf, swMemory] at h
    split at h
    · rename_i u hu
      obtain ⟨hk, rfl⟩ := memWrite_ok hu
      cases h
      exact ⟨rfl, .inl rfl, .inr ⟨hst, ⟨rt, rs, imm, rfl⟩, hk, rfl⟩, .inl rfl, .inl rfl, ⟨rfl, rfl, rfl, rfl⟩,
        .inl rfl, by simp [hst], .inl rfl, by simp [hst], .inl rfl⟩
    · cases h
  all_goals first
    | exact hp h
    | exact hi h

/-- What any stage function has left when it is done. -/
theorem stage_done {i : Instr} {s t : State} {inst inst' : Instance} {f : StageFn}
    (hf : stageFnOf i inst.stage = some f) (h : f s inst = .done inst' t) : StageEffect i s inst inst' t := by
  unfold stageFnOf stageFnAt at hf
  split at hf <;> rename_i hst <;> cases hf
  · cases h
    exact .latch ⟨rfl, rfl, rfl, rfl⟩ (.inl rfl) (by simp [hst]) (.inl rfl) (by simp [hst]) (.inl rfl)
  · exact decodeOf_done hst h
  · exact executeOf_done hst h
  · exact memoryOf_done hst h
  · cases i
    case lw => exact writebackPublishing_done hst h
    all_goals exact writebackStage_done hst h

/-- A stage function raises for a cause of its instance: never `IllegalInstruction`. -/
theorem stage_raise {i : Instr} {s : State} {inst : Instance} {f : StageFn} {e : Fault}
    (hf : stageFnOf i inst.stage = some f) (h : f s inst = .raise e) : ∃ c : Cause, e = c.toFault inst := by
  have hreg : ∀ (r : Nat) (k : Word → StageResult), (∀ a, k a ≠ .raise e) → withReg s inst r k = .raise e →
      ∃ c : Cause, e = c.toFault inst := by
    intro r k hk h
    rcases withReg_cases s inst r k with ⟨a, -, e'⟩ | ⟨-, e'⟩ | ⟨c, -, e'⟩ <;> rw [e'] at h
    · exact absurd h (hk a)
    · cases h
    · cases h
      exact ⟨c, rfl⟩
  have hregs : ∀ (r q : Nat) (k : Word → Word → StageResult), (∀ a b, k a b ≠ .raise e) →
      withRegs s inst r q k = .raise e → ∃ c : Cause, e = c.toFault inst := by
    intro r q k hk h
    rcases withRegs_cases s inst r q k with ⟨a, b, -, -, e'⟩ | ⟨-, e'⟩ | ⟨c, -, e'⟩ <;> rw [e'] at h
    · exact absurd h (hk a b)
    · cases h
    · cases h
      exact ⟨c, rfl⟩
  unfold stageFnOf stageFnAt at hf
  split at hf <;> rename_i hst <;> cases hf
  · cases h
  · cases i <;> simp only [decodeOf] at h
    case jr => exact hreg _ _ (by simp) h
    case call =>
      simp only [callDecode] at h
      split at h
      · cases h
      · rename_i c hc
        cases h
        exact ⟨c, rfl⟩
    case ret =>
      simp only [retDecode] at h
      split at h
      · cases h
      · rename_i c hc
        cases h
        exact ⟨c, rfl⟩
    case ble =>
      simp only [bleDecode] at h
      split at h
      · split at h <;> cases h
      · cases h
    all_goals cases h
  · cases i <;> simp only [executeOf] at h
    case addi => exact hreg _ _ (by simp [aluResult]) h
    case lw => exact hreg _ _ (by simp) h
    case add => exact hregs _ _ _ (by simp [aluResult]) h
    case xor => exact hregs _ _ _ (by simp [aluResult]) h
    case slt => exact hregs _ _ _ (by simp [aluResult]) h
    case sw => exact hregs _ _ _ (by simp) h
    case ble => exact hregs _ _ _ (by simp) h
    all_goals cases h
  · cases i <;> simp only [memoryOf] at h
    case lw =>
      simp only [lwMemory] at h
      split at h
      · cases h
      · rename_i c hc
        cases h
        exact ⟨c, rfl⟩
    case sw =>
      simp only [swMemory] at h
      split at h
      · cases h
      · rename_i c hc
        cases h
        exact ⟨c, rfl⟩
    all_goals cases h
  · have hw : writebackStage s inst = .raise e ∨ writebackPublishing s inst = .raise e := by
      cases i
      case lw => exact .inr h
      all_goals exact .inl h
    unfold writebackStage writebackPublishing at hw
    split at hw
    · simp at hw
    · split at hw
      · simp at hw
      · rename_i c hc
        exact ⟨c, by rcases hw with hw | hw <;> cases hw <;> rfl⟩

end Sys2Proof.Machine
end

