-- ==== Sys2Proof/Tests/Slice0.lean ====
section
/-! SUPPORT. Tests on fixed values, their expected results taken from 95_test_vectors.md and the rules' own examples, and
for every statement a witness: a concrete state and operands that meet its hypotheses. -/

namespace Sys2Proof.Tests

open Sys2Proof.Machine

/-! ## Helpers -/

/-- An instance with every latch 0 and nothing set. -/
def blank (i : Instr) (st : Stage) : Instance :=
  { instr := i, index := 0, stage := st, seq := 0, pcSnap := 0, dest := none, result := 0, fwd := none
    cleanup := false, jump := none, addr := 0, sdata := 0, link := 0, fall := 0, btarget := 0, pred := false }

/-- The reset state with a program of words. -/
def loaded (words : List Word) : State := { State.reset with imem := words.map .word }

/-- The state a step or a stage left. -/
def after : Host.Outcome State Fault Refusal → Option State
  | .next t => some t
  | _ => none

/-- The instance the stage function of `i` left, called on `inst` in `s`. -/
def left (i : Instr) (s : State) (inst : Instance) : Option Instance :=
  (after (exec i (s.visit inst))).bind fun t => t.wires.visiting

/-- The state the stage function of `i` left. -/
def leftState (i : Instr) (s : State) (inst : Instance) : Option State := after (exec i (s.visit inst))

/-- A state in which register 1 is awaiting and not forwarded, register 2 awaiting and forwarded. -/
def hazards : State :=
  { State.reset with wires := { Wires.idle with awaiting := [1, 2], forward := [(2, 9)] } }

/-- Registers 2 and 3 set. -/
def two (a b : Word) : State := (State.reset.setReg 2 a).setReg 3 b

/-! ## WellFormed: each check refuses an ill-formed record (R83, R84, R87, R88, R97) -/

theorem test_wf_refuses_register_32 :
    (Instr.add 32 0 0).wellFormed = false ∧ (Instr.xor 0 32 0).wellFormed = false ∧
    (Instr.slt 0 0 32).wellFormed = false ∧ (Instr.jr 32).wellFormed = false ∧
    (Instr.ble 32 0 0).wellFormed = false ∧ (Instr.addi 0 32 0).wellFormed = false ∧
    (Instr.lw 32 0 0).wellFormed = false ∧ (Instr.sw 0 32 0).wellFormed = false := by decide

theorem test_wf_refuses_wide_immediate :
    (Instr.addi 1 0 0x00008000).wellFormed = false ∧ (Instr.lw 1 0 0xFFFF7FFF).wellFormed = false ∧
    (Instr.sw 1 0 0x00010000).wellFormed = false ∧ (Instr.ble 1 0 0x7FFFFFFF).wellFormed = false := by decide

theorem test_wf_refuses_target :
    (Instr.j 0x10000000).wellFormed = false ∧ (Instr.jal 2).wellFormed = false ∧
    (Instr.call 0x0FFFFFFD).wellFormed = false := by decide

/-! ## Decode: words of 95_test_vectors.md B1 -/

theorem test_decode_arithmetic :
    decodeWord 0x00000000 = .legal .nop ∧ decodeWord 0x00430820 = .legal (.add 1 2 3) ∧
    decodeWord 0x00430826 = .legal (.xor 1 2 3) ∧ decodeWord 0x0043082A = .legal (.slt 1 2 3) ∧
    decodeWord 0x2021FFF9 = .legal (.addi 1 1 0xFFFFFFF9) ∧
    decodeWord 0x201F7FFF = .legal (.addi 31 0 0x00007FFF) ∧
    decodeWord 0x20028000 = .legal (.addi 2 0 0xFFFF8000) := by decide

theorem test_decode_memory :
    decodeWord 0x8C410008 = .legal (.lw 1 2 8) ∧ decodeWord 0xAC41FFFC = .legal (.sw 1 2 0xFFFFFFFC) := by decide

theorem test_decode_control :
    decodeWord 0x03E00008 = .legal (.jr 31) ∧ decodeWord 0x1822FFFE = .legal (.ble 1 2 0xFFFFFFFE) ∧
    decodeWord 0x1800FFFF = .legal (.ble 0 0 0xFFFFFFFF) ∧ decodeWord 0x08000004 = .legal (.j 16) ∧
    decodeWord 0x0BFFFFFF = .legal (.j 0x0FFFFFFC) ∧ decodeWord 0x0C000002 = .legal (.jal 8) ∧
    decodeWord 0xF8000003 = .legal (.call 12) ∧ decodeWord 0xFC000000 = .legal .ret := by decide

theorem test_decode_illegal :
    [0x00000001, 0x00000021, 0x00000024, 0x00000040, 0x00000060, 0x00010008].map decodeWord =
      List.replicate 6 .illegal ∧
    [0x00000808, 0xFC000001, 0x04000000, 0x3C000000, 0xFFFFFFFF].map decodeWord = List.replicate 5 .illegal := by
  decide

/-- The bits written out field by field: opcode, rs, rt, rd, zero, funct (R83). -/
theorem test_decode_fields_r :
    decodeWord 0b000000_00010_00011_00001_00000_100000 = .legal (.add 1 2 3) ∧
    decodeWord 0b000000_00000_11111_10000_00000_101010 = .legal (.slt 16 0 31) := by decide

/-- The bits written out field by field: opcode, rs, rt, imm16 (R84) and opcode, instr_index (R85). -/
theorem test_decode_fields_i_j :
    decodeWord 0b101011_00010_00001_1111111111111100 = .legal (.sw 1 2 0xFFFFFFFC) ∧
    decodeWord 0b111110_00000000000000000000000011 = .legal (.call 12) := by decide

/-! ## One stage of each instruction -/

/-- R135. -/
theorem test_nop_does_nothing : left .nop State.reset (blank .nop .D) = some (blank .nop .D) := by decide

/-- B2.2. -/
theorem test_add_overflow : (left (.add 1 2 3) (two 0x7FFFFFFF 1) (blank (.add 1 2 3) .D)).map
    (fun x => (x.result, x.dest)) = some (0x80000000, some 1) := by decide

/-- B2.3. -/
theorem test_add_wraps : (left (.add 1 2 3) (two 0xFFFFFFFF 1) (blank (.add 1 2 3) .D)).map (·.result) = some 0 := by
  decide

/-- B2.8. -/
theorem test_addi_overflow : (left (.addi 1 2 32767) (two 0x7FFFFFFF 0) (blank (.addi 1 2 32767) .D)).map
    (fun x => (x.result, x.dest)) = some (0x80007FFE, some 1) := by decide

/-- B2.7. -/
theorem test_addi_negative : (left (.addi 1 0 0xFFFF8000) (two 0 0) (blank (.addi 1 0 0xFFFF8000) .D)).map
    (·.result) = some 0xFFFF8000 := by decide

/-- B2.13. -/
theorem test_slt_is_signed : (left (.slt 1 2 3) (two 0x80000000 0x7FFFFFFF) (blank (.slt 1 2 3) .D)).map
    (·.result) = some 1 := by decide

/-- B2.10. -/
theorem test_slt_equal : (left (.slt 1 2 3) (two 2 2) (blank (.slt 1 2 3) .D)).map (·.result) = some 0 := by decide

/-- B2.15. -/
theorem test_xor : (left (.xor 1 2 3) (two 0x0000FF00 0x00000FF0) (blank (.xor 1 2 3) .D)).map (·.result) =
    some 0x0000F0F0 := by decide

/-- B3.5: the address 5 names word 1. -/
theorem test_lw_drops_low_bits : (left (.lw 2 0 5) { State.reset with dmem := [(1, 6)] }
    { blank (.lw 2 0 5) .E with addr := 5 }).map (·.result) = some 6 := by decide

/-- B3.3: the first address outside data memory. -/
theorem test_lw_out_of_range : (leftState (.lw 1 0 256) State.reset { blank (.lw 1 0 256) .E with addr := 256 }).map
    (·.fault) = some (some (.memIndexOutOfRange 256 0 0)) := by decide

/-- B3.6. -/
theorem test_sw_drops_low_bits : (leftState (.sw 1 1 1) State.reset
    { blank (.sw 1 1 1) .E with addr := 7, sdata := 6 }).map (·.dmem) = some [(1, 6)] := by decide

/-- B3.9: a stored 0 leaves the canonical form. -/
theorem test_sw_zero : (leftState (.sw 0 0 0) { State.reset with dmem := [(0, 3)] } (blank (.sw 0 0 0) .E)).map
    (·.dmem) = some [] := by decide

/-- R151. -/
theorem test_j_intent : (left (.j 16) State.reset (blank (.j 16) .F)).map (·.jump) = some (some ⟨.masked, 16, true⟩) := by
  decide

/-- B5.13. -/
theorem test_jal_link : (left (.jal 8) State.reset { blank (.jal 8) .D with link := 4 }).map
    (fun x => (x.dest, x.result, x.fwd)) = some (some 31, 4, some 4) := by decide

/-- R153: the value comes from the forward map. -/
theorem test_jr_forwarded : (left (.jr 2) { State.reset with wires := hazards.wires } (blank (.jr 2) .F)).map
    (·.jump) = some (some ⟨.direct, 9, true⟩) := by decide

/-- R113: awaiting and not forwarded. -/
theorem test_jr_waits : (leftState (.jr 1) { State.reset with wires := hazards.wires } (blank (.jr 1) .F)).map
    (·.wires.status) = some .notReady := by decide

/-- B5.14. -/
theorem test_call_pushes : (leftState (.call 12) State.reset (blank (.call 12) .F)).map (·.ras) = some [4] := by decide

/-- B5.15. -/
theorem test_return_pops : (leftState .ret { State.reset with ras := [8, 4] } (blank .ret .F)).map
    (fun t => (t.ras, t.wires.visiting.bind (·.jump))) = some ([8], some ⟨.direct, 4, true⟩) := by decide

/-- B6.4. -/
theorem test_return_underflow : (leftState .ret State.reset (blank .ret .F)).map (·.fault) =
    some (some (.stackUnderflow 0 0)) := by decide

/-- The target of 95_test_vectors.md A9 for the most negative offset. -/
theorem test_ble_target : (left (.ble 1 2 0xFFFF8000) State.reset
    { blank (.ble 1 2 0xFFFF8000) .F with pcSnap := 12 }).map (fun x => (x.btarget, x.fall, x.pred)) =
    some (0xFFFE0010, 16, false) := by decide

/-- R156's worked example: corrected to 8, and the predictor entry made. -/
theorem test_ble_corrects : (leftState (.ble 2 3 0xFFFFFFFE) (two 1 2)
    { blank (.ble 2 3 0xFFFFFFFE) .D with pcSnap := 12, btarget := 8 }).map
    (fun t => (t.wires.visiting.bind (·.jump), btbLookup t 12)) =
    some (some ⟨.direct, 8, true⟩, some ⟨true, 12, 8, true⟩) := by decide

/-- B6.1: the fault is raised at writeback. -/
theorem test_write_to_register_zero : (leftState (.addi 0 0 1) State.reset
    { blank (.addi 0 0 1) .M with dest := some 0, result := 1 }).map (·.fault) =
    some (some (.regZeroWrite 0 0)) := by decide

/-! ## The primitives -/

/-- B5.2: the four upper bits are the pc's. -/
theorem test_applyJump_masked :
    (applyJump { State.reset with pc := 0x30000008 } ⟨.masked, 0x0FFFFFFC, true⟩).pc = 0x3FFFFFFC := by decide

/-- B5.9, B5.10: two addresses of one index. -/
theorem test_btb_conflict :
    btbLookup (btbUpdate State.reset 12 8 true) 28 = none ∧
    btbLookup (btbUpdate (btbUpdate State.reset 12 8 true) 28 40 false) 12 = some ⟨true, 12, 8, true⟩ ∧
    btbLookup (btbUpdate (btbUpdate State.reset 12 8 true) 28 40 true) 12 = none := by decide

/-! ## The engine -/

/-- The machine after cycle 5 of program P3, with a predictor entry, a memory word and a RAS entry besides. -/
def busy : State :=
  { State.reset with
    imem := [.word 0x20010000, .word 0x20020002, .word 0x20210001, .word 0x1822FFFE, .word 0xAC010000]
    pc := 20, cycle := 5, nextSeq := 5, trace := [[], [], [], [], []]
    dmem := [(0, 7)], ras := [4]
    btb := [BtbEntry.empty, BtbEntry.empty, BtbEntry.empty, ⟨true, 12, 8, false⟩]
    window :=
      [{ blank (.addi 2 0 2) .M with index := 1, seq := 1, pcSnap := 4, dest := some 2, result := 2, fwd := some 2 },
       { blank (.addi 1 1 1) .E with index := 2, seq := 2, pcSnap := 8, dest := some 1, result := 1 },
       { blank (.ble 1 2 0xFFFFFFFE) .D with index := 3, seq := 3, pcSnap := 12, fall := 16, btarget := 8 },
       { blank (.sw 1 0 0) .F with index := 4, seq := 4, pcSnap := 16 }] }

/-- Cycle 6 of program P3: the `ble` is taken against its prediction. -/
theorem test_P3_cycle_6 : (after (step busy)).map (fun t => (t.pc, t.window.map fun x => (x.seq, x.stage))) =
    some (8, [(2, .M), (3, .E)]) := by decide

/-- Cycle 6 of program P3: its events, in sweep order; and the predictor's new entry. -/
theorem test_P3_cycle_6_trace : (after (step busy)).map (fun t => (t.trace.drop 5, t.btb.drop 3, t.cycle)) =
    some ([[⟨.W, 1⟩, ⟨.M, 2⟩, ⟨.E, 3⟩, ⟨.D, 4⟩]], [⟨true, 12, 8, true⟩], 6) := by decide

/-- The `add` behind a load of program P2, before cycle 4. -/
def loadUse : State :=
  { loaded [0x8C010000, 0x00211020] with
    pc := 8, cycle := 3, nextSeq := 2, trace := [[], [], []]
    window := [{ blank (.lw 1 0 0) .E with dest := some 1 },
      { blank (.add 2 1 1) .D with index := 1, seq := 1, pcSnap := 4 }] }

/-- Cycle 4 of program P2 stalls. -/
theorem test_P2_cycle_4 : (after (step loadUse)).map
    (fun t => (t.stalledPrev, t.window.map (·.stage), t.trace.drop 3)) =
    some (true, [.M, .D], [[⟨.M, 0⟩]]) := by decide

/-- B6.6. -/
theorem test_illegal_word : (after (step (loaded [0x00000021]))).map (fun t => (t.fault, t.cycle)) =
    some (some (.illegalInstruction 0x21 0), 0) := by decide

/-- B6.5, B6.7 and A5: codes of faults and of a rejected host access. -/
theorem test_fault_codes : (Fault.stackOverflow 2 2).code = 5 ∧ (Cause.regIndexOutOfRange 32).code = 2 ∧
    hostWriteReg State.reset 32 1 = .rejected (.regIndexOutOfRange 32) ∧
    hostWriteReg State.reset 0 5 = .rejected .regZeroWrite := by
  refine ⟨rfl, rfl, rfl, rfl⟩

/-- R230: every illegal word of a refused program is reported; R70, R270: a reload needs a reset. -/
theorem test_load : hostLoadWords State.reset [0x21, 0, 0xFC000001] =
      .refused (.illegalProgram [(0x21, 0), (0xFC000001, 2)]) ∧
    hostLoadWords (loaded [0]) [0, 0] = .refused .reloadWithoutReset ∧
    hostLoadOne (loaded [0]) (.word 0x00430820) = .done (loaded [0, 0x00430820]) := by
  refine ⟨by decide, by decide, by decide⟩

/-- `addi $5` at M, `addi $5` at E, `jr $5` at D, by hand from R176 and R183: the `jr` takes the older value (log entry
19). -/
theorem test_jr_behind_two_producers : (after (step { State.reset with
      nextSeq := 3
      window := [{ blank (.addi 5 0 7) .E with dest := some 5, result := 7 },
        { blank (.addi 5 0 9) .D with seq := 1 }, { blank (.jr 5) .F with seq := 2 }] })).map
    (fun t => (t.pc, t.stalledPrev)) = some (7, false) := by decide

/-- `addi $0` at M, `ble $1, $0` at E, by hand from R156, R176 and R183: the predictor is updated with the value forwarded
for register 0, one cycle before the fault (log entry 20). -/
theorem test_ble_behind_register_zero : (after (step { State.reset.setReg 1 1 with
      nextSeq := 2
      window := [{ blank (.addi 0 0 1) .E with dest := some 0, result := 1 },
        { blank (.ble 1 0 1) .D with seq := 1, btarget := 8 }] })).map
    (fun t => (t.pc, btbLookup t 0, t.fault)) = some (8, some ⟨true, 0, 8, true⟩, none) := by decide

/-- A word is placed where the next cycle fetches it (log entry 10). -/
theorem test_withFetchWord : (after (step (State.reset.withFetchWord 32 0x00430820))).map
    (fun t => (t.pc, t.window.map (·.instr))) = some (4, [.add 1 2 3]) := by decide

/-! ## Witnesses: the hypotheses of each statement are met together, clause by clause -/

theorem witness_DecodeInvertsEncode :
    (Instr.add 31 0 31).wellFormed = true ∧ (Instr.jr 31).wellFormed = true ∧
    (Instr.addi 31 0 0xFFFF8000).wellFormed = true ∧ (Instr.lw 0 31 0x00007FFF).wellFormed = true ∧
    (Instr.j 0x0FFFFFFC).wellFormed = true ∧ (Instr.call 0).wellFormed = true := by decide

theorem witness_EncodeInvertsDecode : decodeWord 0x8FFF8000 = .legal (.lw 31 31 0xFFFF8000) := by decide

theorem witness_DecodeFollowsMatchAndMask :
    (0x03FFF820 : Word) &&& 0xFC0007FF = 0x00000020 ∧ (0x03FFF826 : Word) &&& 0xFC0007FF = 0x00000026 ∧
    (0x03FFF82A : Word) &&& 0xFC0007FF = 0x0000002A ∧ (0x03E00008 : Word) &&& 0xFC1FFFFF = 0x00000008 ∧
    (0x0BFFFFFF : Word) &&& 0xFC000000 = 0x08000000 ∧ (0x0FFFFFFF : Word) &&& 0xFC000000 = 0x0C000000 ∧
    (0x1BFFFFFF : Word) &&& 0xFC000000 = 0x18000000 ∧ (0x23FFFFFF : Word) &&& 0xFC000000 = 0x20000000 ∧
    (0x8FFFFFFF : Word) &&& 0xFC000000 = 0x8C000000 ∧ (0xAFFFFFFF : Word) &&& 0xFC000000 = 0xAC000000 ∧
    (0xFBFFFFFF : Word) &&& 0xFC000000 = 0xF8000000 := by decide

/-- A word of no row: `return` with a non-zero field. -/
theorem witness_DecodeFollowsMatchAndMask_illegal :
    (0xFC000001 : Word) ≠ 0x00000000 ∧ (0xFC000001 : Word) &&& 0xFC0007FF ≠ 0x00000020 ∧
    (0xFC000001 : Word) &&& 0xFC0007FF ≠ 0x00000026 ∧ (0xFC000001 : Word) &&& 0xFC0007FF ≠ 0x0000002A ∧
    (0xFC000001 : Word) &&& 0xFC1FFFFF ≠ 0x00000008 ∧ (0xFC000001 : Word) &&& 0xFC000000 ≠ 0x08000000 ∧
    (0xFC000001 : Word) &&& 0xFC000000 ≠ 0x0C000000 ∧ (0xFC000001 : Word) &&& 0xFC000000 ≠ 0x18000000 ∧
    (0xFC000001 : Word) &&& 0xFC000000 ≠ 0x20000000 ∧ (0xFC000001 : Word) &&& 0xFC000000 ≠ 0x8C000000 ∧
    (0xFC000001 : Word) &&& 0xFC000000 ≠ 0xAC000000 ∧ (0xFC000001 : Word) &&& 0xFC000000 ≠ 0xF8000000 ∧
    (0xFC000001 : Word) ≠ 0xFC000000 := by decide

theorem witness_ResetMeetsTheInvariants :
    Config.Params.valid ⟨1, 1, some 1⟩ = true ∧ Config.Params.valid ⟨2 ^ 30, 1, none⟩ = true := by decide

theorem witness_busy_steps : ∃ t, step busy = .next t := ⟨_, rfl⟩

/-- The invariant of a state between cycles, from facts that evaluation decides. -/
theorem inv_of_decided {s : State}
    (data : s.params.valid = true ∧ Memory.wf s.dmem = true ∧ (∀ c ∈ s.dmem, c.1 < s.params.dmemWords) ∧
      s.params.rasDepth = some 8 ∧ s.ras.length ≤ 8 ∧ s.btb.length = s.params.btbEntries ∧
      s.imem.length ≤ 2 ^ 30 ∧ s.trace.length = s.cycle ∧ s.wires = Wires.idle)
    (window : s.window.length ≤ 4 ∧ (s.window.Pairwise fun older younger => younger.stage.rank < older.stage.rank) ∧
      (s.window.Pairwise fun older younger => older.seq < younger.seq) ∧ (∀ inst ∈ s.window, inst.seq < s.nextSeq) ∧
      (∀ inst ∈ s.window, inst.stage ≠ .W) ∧ (∀ inst ∈ s.window, inst.stage ≠ .PF) ∧
      ∀ inst ∈ s.window, inst.jump = none) : s.Inv := by
  obtain ⟨d1, d2, d3, d4, d5, d6, d7, d8, d9⟩ := data
  obtain ⟨w1, w2, w3, w4, w5, w6, w7⟩ := window
  refine ⟨d1, d2, d3, ?_, d6, d7, by omega, w2, w3, w4, d8, fun _ => ⟨d9, w1, w5, fun _ => w6, ?_⟩⟩
  · intro d h
    rw [d4] at h
    cases h
    exact d5
  · intro inst h j hj
    rw [w7 inst h] at hj
    cases hj

theorem busy_inv : busy.Inv := inv_of_decided (by decide) (by decide)

theorem busy_predictorInv : busy.PredictorInv where
  entries := by
    intro e h hv
    simp [busy] at h
    rcases h with rfl | rfl
    · cases hv
    · exact ⟨.word 0x1822FFFE, 1, 2, 0xFFFFFFFE, by decide, by decide, by decide⟩
  instances := by
    intro _ inst h
    simp [busy, blank] at h
    rcases h with rfl | rfl | rfl | rfl
    · exact ⟨⟨.word 0x20020002, by decide, by decide⟩, by decide, fun _ => by decide, fun _ _ _ e => by cases e⟩
    · exact ⟨⟨.word 0x20210001, by decide, by decide⟩, by decide, fun _ => by decide, fun _ _ _ e => by cases e⟩
    · refine ⟨⟨.word 0x1822FFFE, by decide, by decide⟩, by decide, fun _ => by decide, ?_⟩
      intro rs rt imm e _ _
      cases e
      decide
    · exact ⟨⟨.word 0xAC010000, by decide, by decide⟩, by decide, fun _ => by decide, fun _ _ _ e => by cases e⟩

theorem busy_pcFollowsFetch : busy.PcFollowsFetch := by
  intro _
  decide

theorem witness_StepKeepsTheShape : busy.Inv ∧ ∃ t, step busy = .next t := ⟨busy_inv, witness_busy_steps⟩

theorem witness_StepKeepsPredictorSound : busy.PredictorInv ∧ ∃ t, step busy = .next t :=
  ⟨busy_predictorInv, witness_busy_steps⟩

theorem witness_StepKeepsPcBehindFetch :
    busy.Inv ∧ busy.PredictorInv ∧ busy.PcFollowsFetch ∧ ∃ t, step busy = .next t :=
  ⟨busy_inv, busy_predictorInv, busy_pcFollowsFetch, witness_busy_steps⟩

theorem witness_StepNeverChangesTheProgram : ∃ t, step busy = .next t := witness_busy_steps

theorem witness_RegisterWriteThenRead : (31 : Nat) ≠ 0 ∧ 31 < 32 ∧ (1 : Nat) ≠ 0 ∧ 0 < 32 ∧ 32 ≤ 32 := by decide

theorem witness_LowAddressBitsAreDropped :
    (255 : Word).toNat / 4 = (252 : Word).toNat / 4 ∧ (255 : Word).toNat / 4 < State.reset.params.dmemWords := by decide

theorem witness_StoreThenLoad : Memory.wf busy.dmem = true ∧ (255 : Word).toNat / 4 < busy.params.dmemWords ∧
    (0 : Word).toNat / 4 < busy.params.dmemWords ∧ busy.params.dmemWords ≤ (256 : Word).toNat / 4 := by decide

theorem witness_RasIsLastInFirstOut :
    rasFull { State.reset with ras := [1, 2, 3, 4, 5, 6, 7] } = false ∧
    State.reset.params.rasDepth = some 8 ∧ [1, 2, 3, 4, 5, 6, 7, 8].length = 8 ∧
    (State.resetWith ⟨64, 4, none⟩).params.rasDepth = none ∧ State.reset.ras = [] := by decide

theorem witness_PredictorLookupAfterUpdate :
    1 ≤ busy.params.btbEntries ∧ busy.btb.length = busy.params.btbEntries ∧ btbLookup busy 8 = none ∧
    btbLookup busy 12 ≠ none ∧
    ((8 : Word).toNat / 4) % busy.params.btbEntries ≠ ((12 : Word).toNat / 4) % busy.params.btbEntries ∧
    (28 : Word) ≠ 12 ∧
    ((28 : Word).toNat / 4) % busy.params.btbEntries = ((12 : Word).toNat / 4) % busy.params.btbEntries := by decide

theorem witness_AcquireReadsForwardsOrWaits :
    31 ∉ hazards.wires.awaiting ∧ 31 < 32 ∧ 2 ∈ hazards.wires.awaiting ∧ hazards.wires.forward.lookup 2 = some 9 ∧
    1 ∈ hazards.wires.awaiting ∧ hazards.wires.forward.lookup 1 = none ∧ 32 ∉ hazards.wires.awaiting ∧ 32 ≤ 32 := by
  decide

theorem witness_ExecCreatesTheInstance : State.reset.wires.visiting = none := rfl

theorem witness_FetchRecordsThePc : (busy.visit (blank .nop .PF)).visits (blank .nop .PF) .PF := ⟨rfl, rfl⟩

theorem witness_IdleStagesAreIdle :
    (busy.visit (blank .nop .F)).visits (blank .nop .F) .F ∧ (busy.visit (blank .nop .D)).visits (blank .nop .D) .D ∧
    (busy.visit (blank .ret .E)).visits (blank .ret .E) .E ∧
    (busy.visit (blank (.ble 0 0 0) .M)).visits (blank (.ble 0 0 0) .M) .M ∧ (blank (.ble 0 0 0) .M).dest = none :=
  ⟨⟨rfl, rfl⟩, ⟨rfl, rfl⟩, ⟨rfl, rfl⟩, ⟨rfl, rfl⟩, rfl⟩

theorem witness_WritebackCommitsTheResult :
    (busy.visit { blank (.lw 31 0 0) .M with dest := some 31 }).visits { blank (.lw 31 0 0) .M with dest := some 31 } .M ∧
    (busy.visit { blank (.add 1 0 0) .M with dest := some 1 }).visits { blank (.add 1 0 0) .M with dest := some 1 } .M ∧
    (∀ rt rs imm, Instr.add 1 0 0 ≠ .lw rt rs imm) ∧
    (busy.visit { blank (.add 0 0 0) .M with dest := some 0 }).visits { blank (.add 0 0 0) .M with dest := some 0 } .M ∧
    (busy.visit { blank (.add 32 0 0) .M with dest := some 32 }).visits
      { blank (.add 32 0 0) .M with dest := some 32 } .M ∧
    (busy.visit (blank .nop .M)).visits (blank .nop .M) .M ∧ (blank .nop .M).dest = none :=
  ⟨⟨rfl, rfl⟩, ⟨rfl, rfl⟩, by simp, ⟨rfl, rfl⟩, ⟨rfl, rfl⟩, ⟨rfl, rfl⟩, rfl⟩

theorem witness_AluExecuteComputesTheResult :
    ((two 0xFFFFFFFF 1).visit (blank (.add 31 2 3) .D)).visits (blank (.add 31 2 3) .D) .D ∧
    ((two 0xFFFFFFFF 1).visit (blank (.add 31 2 3) .D)).gives 2 0xFFFFFFFF ∧
    ((two 0xFFFFFFFF 1).visit (blank (.add 31 2 3) .D)).gives 3 1 := ⟨⟨rfl, rfl⟩, rfl, rfl⟩

theorem witness_AluMemoryPublishesTheResult :
    (busy.visit (blank (.add 1 2 3) .E)).visits (blank (.add 1 2 3) .E) .E := ⟨rfl, rfl⟩

theorem witness_LoadAndStoreLatchTheAddress :
    (hazards.visit (blank (.sw 0 2 0) .D)).visits (blank (.sw 0 2 0) .D) .D ∧
    (hazards.visit (blank (.sw 0 2 0) .D)).gives 2 9 ∧ (hazards.visit (blank (.sw 0 2 0) .D)).gives 0 0 :=
  ⟨⟨rfl, rfl⟩, rfl, rfl⟩

theorem witness_LoadAndStoreAccessTheWord :
    (busy.visit { blank (.sw 1 0 0) .E with addr := 255 }).visits { blank (.sw 1 0 0) .E with addr := 255 } .E ∧
    (255 : Word).toNat / 4 < busy.params.dmemWords ∧ Memory.wf busy.dmem = true ∧
    (busy.visit { blank (.sw 1 0 0) .E with addr := 256 }).visits { blank (.sw 1 0 0) .E with addr := 256 } .E ∧
    busy.params.dmemWords ≤ (256 : Word).toNat / 4 := ⟨⟨rfl, rfl⟩, by decide, by decide, ⟨rfl, rfl⟩, by decide⟩

theorem witness_JumpsSetTheirIntent :
    (hazards.visit (blank (.jr 2) .F)).visits (blank (.jr 2) .F) .F ∧
    (hazards.visit (blank (.jr 2) .F)).gives 2 9 := ⟨⟨rfl, rfl⟩, rfl⟩

theorem witness_JalExecutePublishesTheLink :
    (busy.visit (blank (.jal 8) .D)).visits (blank (.jal 8) .D) .D := ⟨rfl, rfl⟩

/-- Room for one more, and no room. -/
theorem witness_CallPushesTheReturnAddress :
    ((State.resetWith ⟨64, 4, some 1⟩).visit (blank (.call 12) .F)).visits (blank (.call 12) .F) .F ∧
    (∀ d, (State.resetWith ⟨64, 4, some 1⟩).params.rasDepth = some d → ([] : List Word).length < d) ∧
    (∀ d, (State.resetWith ⟨64, 4, some 1⟩).params.rasDepth = some d → ([4] : List Word).length = d) := by
  refine ⟨⟨rfl, rfl⟩, ?_, ?_⟩ <;> intro d h <;> cases h <;> decide

theorem witness_ReturnPopsTheNewestEntry :
    (busy.visit (blank .ret .F)).visits (blank .ret .F) .F ∧ busy.ras = [] ++ [4] ∧
    (State.reset.visit (blank .ret .F)).visits (blank .ret .F) .F ∧ State.reset.ras = [] :=
  ⟨⟨rfl, rfl⟩, rfl, ⟨rfl, rfl⟩, rfl⟩

/-- A hit that says taken, a hit that says not taken, a miss. -/
theorem witness_BranchDecodePredicts :
    (busy.visit (blank (.ble 1 2 0) .F)).visits (blank (.ble 1 2 0) .F) .F ∧
    btbLookup (btbUpdate busy 12 8 true) 12 = some ⟨true, 12, 8, true⟩ ∧
    btbLookup busy 12 = some ⟨true, 12, 8, false⟩ ∧ btbLookup busy 28 = none :=
  ⟨⟨rfl, rfl⟩, by decide, by decide, by decide⟩

theorem witness_BranchExecuteCorrectsAndUpdates :
    ((two 0x80000000 0x7FFFFFFF).visit (blank (.ble 2 3 0) .D)).visits (blank (.ble 2 3 0) .D) .D ∧
    ((two 0x80000000 0x7FFFFFFF).visit (blank (.ble 2 3 0) .D)).gives 2 0x80000000 ∧
    ((two 0x80000000 0x7FFFFFFF).visit (blank (.ble 2 3 0) .D)).gives 3 0x7FFFFFFF ∧
    (0x80000000 : Word).toInt ≤ (0x7FFFFFFF : Word).toInt ∧ (5 : Word).toInt ≤ (5 : Word).toInt ∧
    (0 : Word).toInt < (1 : Word).toInt ∧ (blank (.ble 2 3 0) .D).pred = false ∧
    ({ blank (.ble 2 3 0) .D with pred := true }).pred = true :=
  ⟨⟨rfl, rfl⟩, rfl, rfl, by decide, by decide, by decide, rfl, rfl⟩

theorem witness_NotReadyChangesNothing :
    (hazards.visit (blank (.jr 1) .F)).wires.status = .done ∧
    ∃ t, exec (.jr 1) (hazards.visit (blank (.jr 1) .F)) = .next t ∧ t.wires.status = .notReady := ⟨rfl, _, rfl, rfl⟩

/-- `jr` at decode, and the first and the second register at execute; the other index is 31. -/
theorem witness_OnlyAcquiringStagesWait :
    (hazards.visit (blank (.jr 1) .F)).visits (blank (.jr 1) .F) .F ∧
    acquire (hazards.visit (blank (.jr 1) .F)) 1 = .notReady ∧
    (∃ t, exec (.jr 1) (hazards.visit (blank (.jr 1) .F)) = .next t ∧ t.wires.status = .notReady) ∧
    (hazards.visit (blank (.sw 1 31 0) .D)).visits (blank (.sw 1 31 0) .D) .D ∧
    acquire (hazards.visit (blank (.sw 1 31 0) .D)) 1 = .notReady ∧ 31 < 32 ∧
    ∃ t, exec (.sw 1 31 0) (hazards.visit (blank (.sw 1 31 0) .D)) = .next t ∧ t.wires.status = .notReady :=
  ⟨⟨rfl, rfl⟩, rfl, ⟨_, rfl, rfl⟩, ⟨rfl, rfl⟩, rfl, by decide, _, rfl, rfl⟩

/-- Each of the four faults. -/
theorem witness_FaultsAStageCanRaise :
    (Instr.call 12).wellFormed = true ∧ (Instr.lw 1 0 256).wellFormed = true ∧ (Instr.add 0 0 0).wellFormed = true ∧
    ({ blank (.add 0 0 0) .M with dest := some 0 }).dest = destOf (.add 0 0 0) ∧ State.reset.fault = none ∧
    (leftState (.call 12) { State.resetWith ⟨64, 4, some 1⟩ with ras := [4] } (blank (.call 12) .F)).bind (·.fault) =
      some (.stackOverflow 0 0) ∧
    (leftState .ret State.reset (blank .ret .F)).bind (·.fault) = some (.stackUnderflow 0 0) ∧
    (leftState (.lw 1 0 256) State.reset { blank (.lw 1 0 256) .E with addr := 256 }).bind (·.fault) =
      some (.memIndexOutOfRange 256 0 0) ∧
    (leftState (.add 0 0 0) State.reset { blank (.add 0 0 0) .M with dest := some 0 }).bind (·.fault) =
      some (.regZeroWrite 0 0) := by decide

theorem witness_StageCallFrame :
    (busy.visit { blank (.sw 1 0 0) .E with addr := 4 }).wires.visiting = some { blank (.sw 1 0 0) .E with addr := 4 } ∧
    ∃ t, exec (.sw 1 0 0) (busy.visit { blank (.sw 1 0 0) .E with addr := 4 }) = .next t := ⟨rfl, _, rfl⟩

/-- The first of two words after reset. -/
theorem witness_StepRunsTheDecodedInstruction :
    (loaded [0x00430820, 0]).fault = none ∧ (loaded [0x00430820, 0]).stalledPrev = false ∧
    (loaded [0x00430820, 0]).at (.add 1 2 3) := ⟨rfl, rfl, .word 0x00430820, rfl, by decide⟩

theorem witness_FirstStepFetchesTheInstruction :
    (loaded [0x00430820, 0]).drained ∧ (loaded [0x00430820, 0]).at (.add 1 2 3) :=
  ⟨⟨rfl, rfl, rfl⟩, .word 0x00430820, rfl, by decide⟩

/-- A pc just past the program with an empty window; a busy machine. -/
theorem witness_CyclesAndTraceCountTheWork :
    ({ loaded [0] with pc := 4 }).fault = none ∧
    ({ loaded [0] with pc := 4 }).imem.length ≤ ({ loaded [0] with pc := 4 }).pc.toNat / 4 ∧
    ({ loaded [0] with pc := 4 }).window = [] ∧
    busy.fault = none ∧ busy.window ≠ [] ∧ (loaded [0]).pc.toNat / 4 < (loaded [0]).imem.length ∧
    (after (step busy)).map (·.fault) = some none := by decide

theorem witness_FaultEndsTheRun :
    ({ State.reset with fault := some (.stackUnderflow 0 0) }).fault = some (.stackUnderflow 0 0) ∧
    (after (step (loaded [0xFFFFFFFF]))).bind (·.fault) = some (.illegalInstruction 0xFFFFFFFF 0) := by decide

theorem witness_IllegalWordRaisesAtIssue :
    (loaded [0xFFFFFFFF]).fault = none ∧ (loaded [0xFFFFFFFF]).stalledPrev = false ∧
    (loaded [0xFFFFFFFF]).wires = Wires.idle ∧
    (loaded [0xFFFFFFFF]).imem[(loaded [0xFFFFFFFF]).pc.toNat / 4]? = some (.word 0xFFFFFFFF) ∧
    decodeWord 0xFFFFFFFF = .illegal := by decide

theorem witness_CheckedProgramsAreLegal :
    hostLoadWords State.reset [0x00430820] = .done (loaded [0x00430820]) ∧
    (∃ w ∈ ([0, 0x21] : List Word), decodeWord w = .illegal) ∧
    (∀ slot ∈ (loaded [0x00430820]).imem, ∃ i, slotInstr slot = .legal i) ∧
    ∃ t, step (loaded [0x00430820]) = .next t := by
  refine ⟨rfl, ⟨0x21, by decide, by decide⟩, ?_, _, rfl⟩
  intro slot h
  simp [loaded] at h
  exact ⟨.add 1 2 3, by rw [h]; decide⟩

theorem witness_WordsNeverPresentABadRegister :
    busy.programOfWords ∧ busy.inFlightFromWords ∧ ∃ t, step busy = .next t := by
  refine ⟨?_, ?_, witness_busy_steps⟩
  · intro slot h
    simp [busy] at h
    rcases h with rfl | rfl | rfl | rfl | rfl <;> exact ⟨_, rfl⟩
  · unfold State.inFlightFromWords
    decide

theorem witness_SweepStopsAtTheFirstStall :
    (∃ t, exec (.jr 1) (hazards.visit (blank (.jr 1) .F)) = .next t ∧ t.fault = none ∧ t.wires.status = .notReady) ∧
    (∃ t inst', exec (.jr 2) (hazards.visit (blank (.jr 2) .F)) = .next t ∧ t.fault = none ∧ t.wires.status = .done ∧
      t.wires.visiting = some inst') ∧ Stage.F.next = some .D :=
  ⟨⟨_, rfl, rfl, rfl⟩, ⟨_, _, rfl, rfl, rfl, rfl⟩, rfl⟩

/-- A register of index 32 at decode and at execute, alone and as the second of two. -/
theorem witness_WordsNeverPresentABadRegister_records :
    (State.reset.visit (blank (.jr 32) .F)).visits (blank (.jr 32) .F) .F ∧
    (State.reset.visit (blank (.add 1 31 32) .D)).visits (blank (.add 1 31 32) .D) .D ∧ 32 ≤ 32 ∧ 31 < 32 ∧
    32 ∉ State.reset.wires.awaiting := ⟨⟨rfl, rfl⟩, ⟨rfl, rfl⟩, by decide, by decide, by decide⟩

/-- A destination without cleanup, one with cleanup, none; no intent, one already honored, one taken. -/
theorem witness_BookkeepingOfAnAdvance :
    ({ blank (.add 1 2 3) .E with dest := some 1, fwd := some 5 }).dest = some 1 ∧
    ({ blank (.add 1 2 3) .E with dest := some 1, fwd := some 5 }).cleanup = false ∧
    ({ blank (.add 1 2 3) .M with dest := some 1, cleanup := true }).cleanup = true ∧ (blank .nop .E).dest = none ∧
    (∀ j, (blank .nop .E).jump = some j → j.taken = true → State.reset.wires.jumped = true) ∧
    (∀ j, ({ blank (.j 16) .D with jump := some ⟨.masked, 16, false⟩ }).jump = some j → j.taken = true →
      State.reset.wires.jumped = true) ∧
    ({ blank (.j 16) .F with jump := some ⟨.masked, 16, true⟩ }).jump = some ⟨.masked, 16, true⟩ ∧
    State.reset.wires.jumped = false := by
  refine ⟨rfl, rfl, rfl, rfl, by simp [blank], ?_, rfl, rfl⟩
  intro j h
  cases h
  simp

theorem witness_FirstTakenIntentIsHonored :
    ({ blank (.j 16) .F with jump := some ⟨.masked, 16, true⟩ }).jump = some ⟨.masked, 16, true⟩ ∧
    State.reset.wires.jumped = false ∧ ({ Wires.idle with jumped := true }).jumped = true ∧
    (⟨.masked, 16, false⟩ : JumpIntent).taken = false := by decide

/-- A cycle with a jump honored at the oldest instance, and one without. -/
theorem witness_EndOfCycle :
    ({ busy with wires := { Wires.idle with jumped := true, cut := some 0 } }).wires.cut =
      (if ({ busy with wires := { Wires.idle with jumped := true, cut := some 0 } }).wires.jumped then some 0 else none) ∧
    busy.wires.cut = (if busy.wires.jumped then some 0 else none) ∧ ∃ oldest rest, busy.window = oldest :: rest :=
  ⟨rfl, rfl, _, _, rfl⟩

/-- In this step register 2, data memory through no one, and the predictor change. -/
theorem witness_StepChangesOnlyThroughItsInstances :
    (∃ t, step busy = .next t) ∧
    (after (step busy)).map (fun t => (t.reg 2, decide (t.btb ≠ busy.btb))) = some (2, true) :=
  ⟨witness_busy_steps, by decide⟩

/-- One instruction at the end of the program, at the first and at a later address. -/
theorem witness_LoneAluInstructionRetires :
    (loaded [0x00430820]).drained ∧ (loaded [0x00430820]).programEndsAfter 1 ∧
    (loaded [0x00430820]).at (.add 1 2 3) ∧ (loaded [0x00430826]).at (.xor 1 2 3) ∧
    (loaded [0x0043082A]).at (.slt 1 2 3) ∧ (loaded [0x201F7FFF]).at (.addi 31 0 0x7FFF) ∧
    ({ loaded [0, 0x00430820] with pc := 4 }).programEndsAfter 1 :=
  ⟨⟨rfl, rfl, rfl⟩, by unfold State.programEndsAfter; decide, ⟨_, rfl, by decide⟩, ⟨_, rfl, by decide⟩,
    ⟨_, rfl, by decide⟩, ⟨_, rfl, by decide⟩, by unfold State.programEndsAfter; decide⟩

/-- The last word of data memory. -/
theorem witness_LoneMemoryInstructionRetires :
    (loaded [0x8C0100FC]).drained ∧ (loaded [0x8C0100FC]).programEndsAfter 1 ∧ (loaded [0]).at .nop ∧
    (loaded [0x8C0100FC]).at (.lw 1 0 252) ∧ (loaded [0xAC0100FC]).at (.sw 1 0 252) ∧
    ((loaded [0x8C0100FC]).reg 0 + 252).toNat / 4 < (loaded [0x8C0100FC]).params.dmemWords :=
  ⟨⟨rfl, rfl, rfl⟩, by unfold State.programEndsAfter; decide, ⟨_, rfl, by decide⟩, ⟨_, rfl, by decide⟩,
    ⟨_, rfl, by decide⟩, by decide⟩

/-- The least target outside the program, and the greatest. -/
theorem witness_LoneJumpRetires :
    ({ loaded [0x08000001] with ras := [4] }).drained ∧ (loaded [0x08000001]).programEndsAfter 1 ∧
    (loaded [0x08000001]).pc.toNat / 4 + 1 < 2 ^ 26 ∧ (loaded [0x08000001]).imem.length ≤ (4 : Word).toNat / 4 ∧
    (0x0FFFFFFC : Word).toNat < 2 ^ 28 ∧ (loaded [0x08000001]).at (.j 4) ∧ (loaded [0x0C000001]).at (.jal 4) ∧
    (loaded [0x03E00008]).at (.jr 31) ∧ ((loaded [0x03E00008]).setReg 31 4).reg 31 = 4 ∧
    (loaded [0xF8000001]).at (.call 4) ∧ rasFull (loaded [0xF8000001]) = false ∧
    (loaded [0xFC000000]).at .ret ∧ ({ loaded [0xFC000000] with ras := [4] }).ras = [] ++ [4] :=
  ⟨⟨rfl, rfl, rfl⟩, by unfold State.programEndsAfter; decide, by decide, by decide, by decide, ⟨_, rfl, by decide⟩,
    ⟨_, rfl, by decide⟩, ⟨_, rfl, by decide⟩, by decide, ⟨_, rfl, by decide⟩, by decide, ⟨_, rfl, by decide⟩, rfl⟩

theorem witness_LoneWriteToRegisterZeroFaults :
    (loaded [0x00430020]).drained ∧ (loaded [0x00430020]).programEndsAfter 1 ∧ (loaded [0x00430020]).at (.add 0 2 3) :=
  ⟨⟨rfl, rfl, rfl⟩, by unfold State.programEndsAfter; decide, _, rfl, by decide⟩

theorem witness_NopsTakeNPlusFourCycles :
    (loaded [0, 0]).drained ∧ (loaded [0, 0]).pc = 0 ∧ (1 : Nat) ≤ 2 ∧ 2 < 2 ^ 30 ∧
    (loaded [0, 0]).imem = List.replicate 2 (.word 0) := ⟨⟨rfl, rfl, rfl⟩, rfl, by decide, by decide, rfl⟩

theorem witness_LoadUseStallsOneCycle :
    (loaded [0x8C010000, 0x00211020]).drained ∧ (loaded [0x8C010000, 0x00211020]).programEndsAfter 2 ∧
    (loaded [0x8C010000, 0x00211020]).at (.lw 1 0 0) ∧
    (loaded [0x8C010000, 0x00211020]).imem[(loaded [0x8C010000, 0x00211020]).pc.toNat / 4 + 1]? =
      some (.word 0x00211020) ∧ slotInstr (.word 0x00211020) = .legal (.add 2 1 1) ∧
    ((loaded [0x8C010000, 0x00211020]).reg 0 + 0).toNat / 4 < (loaded [0x8C010000, 0x00211020]).params.dmemWords :=
  ⟨⟨rfl, rfl, rfl⟩, by unfold State.programEndsAfter; decide, ⟨_, rfl, by decide⟩, rfl, by decide, by decide⟩

theorem witness_BackToBackAddsDoNotStall :
    (loaded [0x00430820, 0x00211020]).drained ∧ (loaded [0x00430820, 0x00211020]).programEndsAfter 2 ∧
    (loaded [0x00430820, 0x00211020]).at (.add 1 2 3) ∧
    (loaded [0x00430820, 0x00211020]).imem[(loaded [0x00430820, 0x00211020]).pc.toNat / 4 + 1]? =
      some (.word 0x00211020) ∧ slotInstr (.word 0x00211020) = .legal (.add 2 1 1) :=
  ⟨⟨rfl, rfl, rfl⟩, by unfold State.programEndsAfter; decide, ⟨_, rfl, by decide⟩, rfl, by decide⟩

/-- The machine after cycle 5 of program P5. -/
def wrongPath : State :=
  { (loaded [0xF8000002, 0x08000006, 0x20210001, 0x1822FFFE, 0xFC000000, 0]).setReg 2 1 with
    pc := 20, cycle := 5, nextSeq := 5, trace := [[], [], [], [], []], ras := [4]
    window :=
      [{ blank (.addi 1 1 1) .E with index := 2, seq := 2, pcSnap := 8, dest := some 1, result := 1 },
       { blank (.ble 1 2 0xFFFFFFFE) .D with index := 3, seq := 3, pcSnap := 12, fall := 16, btarget := 8 },
       { blank .ret .F with index := 4, seq := 4, pcSnap := 16 }] }

/-- Cycle 6 of program P5. -/
theorem test_P5_cycle_6 : (after (step wrongPath)).map (fun t => (t.pc, t.ras, t.window.map fun x => (x.seq, x.stage))) =
    some (8, [], [(2, .M), (3, .E)]) := by decide

theorem witness_WrongPathReturnPopsTheRas :
    wrongPath.Inv ∧ wrongPath.fault = none ∧ wrongPath.stalledPrev = false ∧
    (∃ older branch follower, wrongPath.window = older ++ [branch, follower] ∧
      branch.stage = .D ∧ branch.instr = .ble 1 2 0xFFFFFFFE ∧ branch.pred = false ∧
      follower.stage = .F ∧ follower.instr = .ret ∧
      ∃ v, wrongPath.sweepsPast older v ∧ v.gives 1 1 ∧ v.gives 2 1) ∧
    wrongPath.ras = [] ++ [4] ∧ (1 : Word).toInt ≤ (1 : Word).toInt :=
  ⟨inv_of_decided (by decide) (by decide), rfl, rfl,
    ⟨[_], _, _, rfl, rfl, rfl, rfl, rfl, rfl, _, ⟨_, rfl, rfl, rfl, rfl⟩, rfl, rfl⟩, rfl, by decide⟩

/-- The machine after cycle 3 of program P7. -/
def squashedStall : State :=
  { loaded [0x8C050000, 0x18000001, 0x00A00008, 0x20060001] with
    pc := 12, cycle := 3, nextSeq := 3, trace := [[], [], []], dmem := [(0, 16)]
    window :=
      [{ blank (.lw 5 0 0) .E with index := 0, seq := 0, dest := some 5 },
       { blank (.ble 0 0 1) .D with index := 1, seq := 1, pcSnap := 4, fall := 8, btarget := 12 },
       { blank (.jr 5) .F with index := 2, seq := 2, pcSnap := 8 }] }

/-- Cycle 4 of program P7. -/
theorem test_P7_cycle_4 : (after (step squashedStall)).map
    (fun t => (t.pc, t.stalledPrev, t.nextSeq, t.window.map fun x => (x.seq, x.stage))) =
    some (12, false, 4, [(0, .M), (1, .E)]) := by decide

theorem witness_StallForgottenWhenSquashed :
    squashedStall.Inv ∧ squashedStall.fault = none ∧ squashedStall.stalledPrev = false ∧
    (∃ older branch follower, squashedStall.window = older ++ [branch, follower] ∧
      branch.stage = .D ∧ branch.instr = .ble 0 0 1 ∧ branch.pred = false ∧ branch.dest = none ∧
      follower.stage = .F ∧ follower.instr = .jr 5 ∧
      ∃ v, squashedStall.sweepsPast older v ∧ v.gives 0 0 ∧ acquire v 5 = .notReady) ∧
    (0 : Word).toInt ≤ (0 : Word).toInt :=
  ⟨inv_of_decided (by decide) (by decide), rfl, rfl,
    ⟨[_], _, _, rfl, rfl, rfl, rfl, rfl, rfl, rfl, _, ⟨_, rfl, rfl, rfl, rfl⟩, rfl, rfl⟩, by decide⟩

theorem witness_HostAccessors :
    (31 : Nat) < 32 ∧ 32 ≤ 32 ∧ (255 : Word).toNat / 4 < State.reset.params.dmemWords ∧
    State.reset.params.dmemWords ≤ (256 : Word).toNat / 4 ∧ State.reset.ras = [] ∧ busy.ras = [] ++ [4] ∧
    (31 : Nat) ≠ 0 ∧ rasFull State.reset = false ∧
    rasFull { State.reset with ras := [1, 2, 3, 4, 5, 6, 7, 8] } = true := by decide

theorem witness_OnlyResetReloadsOrClearsAFault :
    0 < busy.cycle ∧ ({ State.reset with fault := some (.stackUnderflow 0 0) }).fault = some (.stackUnderflow 0 0) ∧
    busy.imem.length ≤ 2 ^ 30 ∧ (loaded [0]).cycle = 0 ∧ (loaded [0]).nextSeq = 0 ∧ (loaded [0]).fault = none ∧
    (loaded [0]).imem ≠ [] := by decide

end Sys2Proof.Tests
end

/-! PROOFS. The reset state meets the invariants (R53): everything a state with an empty window and an empty predictor
owes is stated for any such state, and reset is one of them. -/

namespace Sys2Proof.Machine

/-! ## What an empty window leaves to show -/

theorem State.betweenCycles_of_window_nil {s : State} (hwires : s.wires = Wires.idle) (hwindow : s.window = []) :
    s.BetweenCycles where
  wires_idle := hwires
  window_four := by simp [hwindow]
  none_retired := by simp [hwindow]
  fetched := by simp [hwindow]
  honored := by simp [hwindow]

theorem State.predictorInv_of_window_nil {s : State} (hentries : ∀ e ∈ s.btb, e.sound s.imem)
    (hwindow : s.window = []) : s.PredictorInv where
  entries := hentries
  instances := by simp [hwindow]

theorem State.pcFollowsFetch_of_window_nil {s : State} (hwindow : s.window = []) : s.PcFollowsFetch := by
  simp [State.PcFollowsFetch, hwindow]

/-- R224 speaks of valid entries only. -/
theorem BtbEntry.sound_of_invalid {e : BtbEntry} (imem : List Slot) (hinvalid : e.valid = false) : e.sound imem :=
  fun hvalid => absurd hvalid (by simp [hinvalid])

/-! ## The reset state (R53) -/

theorem State.resetWith_btb_invalid {p : Config.Params} {e : BtbEntry} (he : e ∈ (State.resetWith p).btb) :
    e.valid = false := by
  have hempty : e = BtbEntry.empty := List.eq_of_mem_replicate he
  rw [hempty]
  rfl

theorem State.resetWith_inv {p : Config.Params} (hp : p.valid = true) : (State.resetWith p).Inv where
  params_valid := hp
  dmem_wf := rfl
  dmem_range := by simp [State.resetWith]
  ras_bound := fun d _ => Nat.zero_le d
  btb_length := List.length_replicate
  imem_length := Nat.zero_le _
  window_five := Nat.zero_le _
  stages_fall := List.Pairwise.nil
  seqs_rise := List.Pairwise.nil
  seqs_used := by simp [State.resetWith]
  trace_length := rfl
  between := fun _ => State.betweenCycles_of_window_nil rfl rfl

theorem State.resetWith_predictorInv (p : Config.Params) : (State.resetWith p).PredictorInv :=
  State.predictorInv_of_window_nil (fun _ he => BtbEntry.sound_of_invalid _ (State.resetWith_btb_invalid he)) rfl

theorem State.resetWith_pcFollowsFetch (p : Config.Params) : (State.resetWith p).PcFollowsFetch :=
  State.pcFollowsFetch_of_window_nil rfl

/-- Settles O7: the base case of the three step invariants. Only `Inv` needs the parameters' ranges. -/
theorem resetMeetsTheInvariants : Obligations.ResetMeetsTheInvariants := by
  unfold Obligations.ResetMeetsTheInvariants
  intro p hp
  exact ⟨State.resetWith_inv hp, State.resetWith_predictorInv p, State.resetWith_pcFollowsFetch p⟩

end Sys2Proof.Machine

/-! PROOFS. One call of a stage function (R110), and the sweep over a snapshot (R174): what each leaves, said once for
the invariants of the step. -/

namespace Sys2Proof.Machine

/-! ## What one call of `exec` on a visited instance leaves -/

/-- Only the stages that acquire a register wait: decode of `jr` and the execute stages (R113, R209). -/
theorem stage_notReady {i : Instr} {s : State} {inst : Instance} {f : StageFn}
    (hf : stageFnOf i inst.stage = some f) (h : f s inst = .notReady) : inst.stage = .F ∨ inst.stage = .D := by
  unfold stageFnOf stageFnAt at hf
  split at hf <;> rename_i hst <;> cases hf
  · cases h
  · exact .inl hst
  · exact .inr hst
  · exfalso
    cases i <;> simp only [memoryOf] at h
    case lw => simp only [lwMemory] at h; split at h <;> cases h
    case sw => simp only [swMemory] at h; split at h <;> cases h
    all_goals cases h
  · exfalso
    have hw : writebackStage s inst = .notReady ∨ writebackPublishing s inst = .notReady := by
      cases i
      case lw => exact .inr h
      all_goals exact .inl h
    unfold writebackStage writebackPublishing at hw
    split at hw
    · simp at hw
    · split at hw <;> simp at hw

/-- The three answers of a stage call (R11): done with its effect, not ready at decode or execute, or a fault of the
stage function. -/
theorem exec_visiting_cases {i : Instr} {s t : State} {inst : Instance} (hv : s.wires.visiting = some inst)
    (h : exec i s = .next t) :
    (∃ inst' u, StageEffect i s inst inst' u ∧ t = u.visit inst') ∨
    (t = { s with wires := { s.wires with status := .notReady } } ∧ (inst.stage = .F ∨ inst.stage = .D)) ∨
    (∃ fn f, stageFnOf i inst.stage = some fn ∧ fn s inst = .raise f ∧ t = s.raise f) := by
  rcases exec_next h with ⟨hn, -⟩ | ⟨inst₀, fn, hv₀, hfn, rfl⟩
  · rw [hv] at hn
    cases hn
  · cases hv.symm.trans hv₀
    cases hr : fn s inst with
    | done inst' u => exact .inl ⟨inst', u, stage_done hfn hr, rfl⟩
    | notReady => exact .inr (.inl ⟨rfl, stage_notReady hfn hr⟩)
    | raise f => exact .inr (.inr ⟨fn, f, hfn, hr, rfl⟩)

/-! ## The sweep, by what one instance does -/

/-- The induction over a sweep that begins without a fault: what is to show of an instance that raises, of one that
stalls and of one that advances. -/
theorem sweep_induct_cases {P : List Instance → Nat → State → Prop} {Q : State → Prop}
    (hnil : ∀ k s, P [] k s → s.fault = none → Q s)
    (hraise : ∀ inst rest k s fn f, P (inst :: rest) k s → s.fault = none →
      stageFnOf inst.instr inst.stage = some fn → fn (s.visit inst) inst = .raise f → Q ((s.visit inst).raise f))
    (hstall : ∀ inst rest k s, P (inst :: rest) k s → s.fault = none → inst.stage = .F ∨ inst.stage = .D →
      Q { s with wires := { s.wires with stalled := true, visiting := none, status := .notReady } })
    (hdone : ∀ inst rest k s inst' u next, P (inst :: rest) k s → s.fault = none →
      StageEffect inst.instr (s.visit inst) inst inst' u → inst.stage.next = some next →
      P rest (k + 1) (settle (u.visit inst') k inst' next)) :
    ∀ l k s t, P l k s → s.fault = none → sweep l k s = .next t → Q t := by
  intro l k s t hP hs h
  refine sweep_induct (P := fun l k s => P l k s ∧ s.fault = none) (fun k s hP => hnil k s hP.1 hP.2) ?_ l k s t
    ⟨hP, hs⟩ h
  rintro inst rest k s t ⟨hP, hs⟩ ht
  rcases exec_visiting_cases (inst := inst) rfl ht with
    ⟨inst', u, hu, rfl⟩ | ⟨rfl, hst⟩ | ⟨fn, f, hfn, hf, rfl⟩
  · have hfault : u.fault = none := by rw [hu.rest]; exact hs
    refine ⟨fun hne => absurd hfault hne, fun _ hn => ?_, fun inst'' next _ _ hv hnext => ?_⟩
    · cases hn
    · cases hv
      exact ⟨hdone inst rest k s inst' u next hP hs hu hnext, by simpa using hfault⟩
  · exact ⟨fun hne => absurd hs hne, fun _ _ => hstall inst rest k s hP hs hst, fun _ _ _ hd => by cases hd⟩
  · exact ⟨fun _ => hraise inst rest k s fn f hP hs hfn hf, by simp, by simp⟩

/-! ## The step, by its issue and its sweep -/

/-- An issue step of a cycle that begins in `s` and raises nothing leaves `u` (R172): nothing is brought in behind a
stall or outside the program, else one new instance of the instruction at the pc. -/
def State.IssuesTo (s u : State) : Prop :=
  u = { s with wires := Wires.idle } ∧ (s.stalledPrev = true ∨ fetchable s = false) ∨
  ∃ i, s.stalledPrev = false ∧ s.at i ∧ u = { s with wires := Wires.idle }.issue i

/-- What is to show of a step to have `R` of the state it answers: of a step without work, of a fault at issue, and of
what the sweep leaves behind an issue step that raised nothing, ended by a fault or by the end of the cycle (R183). -/
theorem step_elim {R : State → Prop} {s t : State} (h : step s = .next t)
    (hidle : hasWork s = false → R s)
    (hillegal : hasWork s = true → ∀ w,
      R ({ s with wires := Wires.idle }.raise (.illegalInstruction w (wordIndex s.pc))))
    (hsweep : hasWork s = true → ∀ u, u.fault = none → s.IssuesTo u →
      ∀ v, sweep u.window 0 u.clearHazards = .next v → (v.fault ≠ none → R v) ∧ (v.fault = none → R v.finish)) :
    R t := by
  obtain ⟨hs, ⟨hw, rfl⟩ | ⟨hw, u, hu, ht⟩⟩ := step_next h
  · exact hidle hw
  · have hrest : s.IssuesTo u → R t := by
      intro hissue
      have hfu : u.fault = none := by
        rcases hissue with ⟨rfl, -⟩ | ⟨i, -, -, rfl⟩
        · exact hs
        · exact hs
      rcases ht with ⟨hne, -⟩ | ⟨-, v, hv, ht⟩
      · exact absurd hfu hne
      · obtain ⟨hraised, hended⟩ := hsweep hw u hfu hissue v hv
        rcases ht with ⟨hfv, rfl⟩ | ⟨hfv, rfl⟩
        · exact hraised hfv
        · exact hended hfv
    rcases issueStep_next rfl hu with hu | hu | ⟨w, -, -, -, rfl⟩
    · exact hrest (.inl hu)
    · exact hrest (.inr hu)
    · rcases ht with ⟨-, rfl⟩ | ⟨hfu, -⟩
      · exact hillegal hw w
      · cases hfu

end Sys2Proof.Machine

/-! PROOFS. What no stage call, no sweep and no step changes (R39, R70, R110, R182, R254), and what the end of a cycle
counts. -/

namespace Sys2Proof.Machine

/-! ## The frame of a stage that is done -/

theorem StageEffect.pc_eq {i : Instr} {s t : State} {inst inst' : Instance} (h : StageEffect i s inst inst' t) :
    t.pc = s.pc := by rw [h.rest]

theorem StageEffect.window_eq {i : Instr} {s t : State} {inst inst' : Instance} (h : StageEffect i s inst inst' t) :
    t.window = s.window := by rw [h.rest]

theorem StageEffect.wires_eq {i : Instr} {s t : State} {inst inst' : Instance} (h : StageEffect i s inst inst' t) :
    t.wires = s.wires := by rw [h.rest]

theorem StageEffect.reg_eq {i : Instr} {s t : State} {inst inst' : Instance} (h : StageEffect i s inst inst' t)
    {r : Nat} (hr : inst.stage = .M → inst.dest ≠ some r) : t.reg r = s.reg r := by
  rcases h.regs with e | ⟨hst, d, hd, h0, h32, e⟩
  · simp only [State.reg, e]
  · have hne : r ≠ d := fun hrd => hr hst (hrd ▸ hd)
    have hset : t.reg r = (s.setReg d inst.result).reg r := by simp only [State.reg, e]
    rw [hset, State.reg_setReg s d r _ h0 h32, if_neg hne]

theorem StageEffect.dmem_eq {i : Instr} {s t : State} {inst inst' : Instance} (h : StageEffect i s inst inst' t)
    (hne : ∀ rt rs imm, inst.stage = .E → i ≠ .sw rt rs imm) : t.dmem = s.dmem := by
  rcases h.dmem with e | ⟨hst, ⟨rt, rs, imm, hi⟩, -, -⟩
  · exact e
  · exact absurd hi (hne rt rs imm hst)

theorem StageEffect.read_eq {i : Instr} {s t : State} {inst inst' : Instance} (h : StageEffect i s inst inst' t)
    {k : Nat} (hk : k ≠ wordIndex inst.addr) : t.dmem.read k = s.dmem.read k := by
  rcases h.dmem with e | ⟨-, -, -, e⟩ <;> rw [e]
  exact Memory.read_write_other _ _ _ _ hk

theorem StageEffect.ras_eq {i : Instr} {s t : State} {inst inst' : Instance} (h : StageEffect i s inst inst' t)
    (hne : inst.stage = .F → (∀ target, i ≠ .call target) ∧ i ≠ .ret) : t.ras = s.ras := by
  rcases h.ras with e | ⟨hst, hi, -⟩ | ⟨hst, ⟨target, hi⟩, -⟩
  · exact e
  · exact absurd hi (hne hst).2
  · exact absurd hi ((hne hst).1 target)

theorem StageEffect.btb_eq {i : Instr} {s t : State} {inst inst' : Instance} (h : StageEffect i s inst inst' t)
    (hne : inst.stage = .D → ∀ rs rt imm, i ≠ .ble rs rt imm) : t.btb = s.btb := by
  rcases h.btb with e | ⟨hst, ⟨rs, rt, imm, hi⟩, -⟩
  · exact e
  · exact absurd hi (hne hst rs rt imm)

/-! ## What stays from the issue step to the end of the sweep -/

/-- `t` has the program, the sizes, the stall memory, the counters and the trace of `s`: what no stage call and none of
the sweep's bookkeeping writes. -/
structure State.SameRun (s t : State) : Prop where
  params : t.params = s.params
  imem : t.imem = s.imem
  stalledPrev : t.stalledPrev = s.stalledPrev
  cycle : t.cycle = s.cycle
  nextSeq : t.nextSeq = s.nextSeq
  trace : t.trace = s.trace

theorem State.SameRun.refl (s : State) : s.SameRun s := ⟨rfl, rfl, rfl, rfl, rfl, rfl⟩

theorem State.SameRun.trans {s t u : State} (h : s.SameRun t) (g : t.SameRun u) : s.SameRun u :=
  ⟨g.params.trans h.params, g.imem.trans h.imem, g.stalledPrev.trans h.stalledPrev, g.cycle.trans h.cycle,
    g.nextSeq.trans h.nextSeq, g.trace.trans h.trace⟩

theorem StageEffect.sameRun {i : Instr} {s t : State} {inst inst' : Instance} (h : StageEffect i s inst inst' t) :
    s.SameRun t := by
  rw [h.rest]
  exact ⟨rfl, rfl, rfl, rfl, rfl, rfl⟩

/-- The bookkeeping of an instance that advanced leaves the run's own registers (R176, R177). -/
theorem State.sameRun_settle (s : State) (inst : Instance) (k : Nat) (next : Stage) :
    s.SameRun (settle (s.visit inst) k inst next) :=
  ⟨by simp, by simp, by simp, by simp, by simp, by simp⟩

theorem sweep_sameRun {l : List Instance} {k : Nat} {s t : State} (hs : s.fault = none)
    (h : sweep l k s = .next t) : s.SameRun t := by
  refine sweep_induct_cases (P := fun _ _ u => s.SameRun u) ?_ ?_ ?_ ?_ l k s t (.refl s) hs h
  · exact fun _ _ hP _ => hP
  · exact fun _ _ _ u _ f hP _ _ _ => hP.trans ⟨rfl, rfl, rfl, rfl, rfl, rfl⟩
  · exact fun _ _ _ u hP _ _ => hP.trans ⟨rfl, rfl, rfl, rfl, rfl, rfl⟩
  · intro inst rest k u inst' v next hP _ hv _
    have hvisit : u.SameRun (u.visit inst) := ⟨rfl, rfl, rfl, rfl, rfl, rfl⟩
    exact ((hP.trans hvisit).trans hv.sameRun).trans (v.sameRun_settle inst' k next)

/-- From the beginning of a cycle to the end of its sweep the program, the sizes, the counter and the trace stay. -/
theorem State.IssuesTo.sweep_frame {s u v : State} (hissue : s.IssuesTo u) (hu : u.fault = none)
    (hv : sweep u.window 0 u.clearHazards = .next v) :
    v.imem = s.imem ∧ v.params = s.params ∧ v.cycle = s.cycle ∧ v.trace = s.trace := by
  have hclear : u.SameRun u.clearHazards := ⟨rfl, rfl, rfl, rfl, rfl, rfl⟩
  have hrun : u.SameRun v := hclear.trans (sweep_sameRun hu hv)
  rcases hissue with ⟨rfl, -⟩ | ⟨i, -, -, rfl⟩ <;> exact ⟨hrun.imem, hrun.params, hrun.cycle, hrun.trace⟩

/-! ## The end of the cycle (R178 to R182) -/

@[simp] theorem State.finish_params (s : State) : s.finish.params = s.params := by simp [State.finish]
@[simp] theorem State.finish_regs (s : State) : s.finish.regs = s.regs := by simp [State.finish]
@[simp] theorem State.finish_dmem (s : State) : s.finish.dmem = s.dmem := by simp [State.finish]
@[simp] theorem State.finish_ras (s : State) : s.finish.ras = s.ras := by simp [State.finish]
@[simp] theorem State.finish_btb (s : State) : s.finish.btb = s.btb := by simp [State.finish]
@[simp] theorem State.finish_imem (s : State) : s.finish.imem = s.imem := by simp [State.finish]
@[simp] theorem State.finish_window (s : State) : s.finish.window = s.squash.retire.window := by simp [State.finish]
@[simp] theorem State.finish_stalledPrev (s : State) :
    s.finish.stalledPrev = (s.wires.stalled && !s.wires.jumped) := by simp [State.finish]
@[simp] theorem State.finish_cycle (s : State) : s.finish.cycle = s.cycle + 1 := by simp [State.finish]
@[simp] theorem State.finish_nextSeq (s : State) : s.finish.nextSeq = s.nextSeq := by simp [State.finish]
@[simp] theorem State.finish_fault (s : State) : s.finish.fault = s.fault := by simp [State.finish]
@[simp] theorem State.finish_trace (s : State) : s.finish.trace = s.trace ++ [s.wires.events] := by
  simp [State.finish]
@[simp] theorem State.finish_wires (s : State) : s.finish.wires = Wires.idle := rfl

/-! ## Whole steps -/

/-- A step leaves the program and the sizes. -/
theorem step_program {s t : State} (h : step s = .next t) : t.imem = s.imem ∧ t.params = s.params := by
  apply step_elim h
  · exact fun _ => ⟨rfl, rfl⟩
  · exact fun _ _ => ⟨rfl, rfl⟩
  · intro _ u hu hissue v hv
    obtain ⟨himem, hparams, -, -⟩ := hissue.sweep_frame hu hv
    exact ⟨fun _ => ⟨himem, hparams⟩, fun _ => by simp [himem, hparams]⟩

/-- What a step does to the counter and the trace: nothing without work or when it ends in a fault, else one cycle and
one entry are added. -/
theorem step_counts {s t : State} (h : step s = .next t) :
    (hasWork s = false ∧ t = s) ∨
    (hasWork s = true ∧ t.fault ≠ none ∧ t.cycle = s.cycle ∧ t.trace = s.trace) ∨
    (hasWork s = true ∧ t.fault = none ∧ t.cycle = s.cycle + 1 ∧ ∃ events, t.trace = s.trace ++ [events]) := by
  apply step_elim h
  · exact fun hw => .inl ⟨hw, rfl⟩
  · exact fun hw w => .inr (.inl ⟨hw, by simp, rfl, rfl⟩)
  · intro hw u hu hissue v hv
    obtain ⟨-, -, hcycle, htrace⟩ := hissue.sweep_frame hu hv
    exact ⟨fun hne => .inr (.inl ⟨hw, hne, hcycle, htrace⟩), fun hnone => .inr (.inr ⟨hw, by simpa using hnone,
      by rw [State.finish_cycle, hcycle], _, by rw [State.finish_trace, htrace]⟩)⟩

/-- There is work exactly when an instruction exists at the pc or one is in flight (R171). -/
theorem hasWork_iff (s : State) : hasWork s = true ↔ s.pc.toNat / 4 < s.imem.length ∨ s.window ≠ [] := by
  rw [hasWork, fetchable, Bool.or_eq_true, decide_eq_true_iff, wordIndex]
  simp

theorem step_of_no_work {s : State} (hs : s.fault = none) (hw : hasWork s = false) : step s = .next s := by
  simp [step, oneCycle, hs, hw]

theorem step_of_fault {s : State} {f : Fault} (hf : s.fault = some f) : step s = .fault f := by
  simp [step, oneCycle, hf]

/-- Settles O11, by the frame of the sweep: what comes before and after it writes neither field. -/
theorem stepNeverChangesTheProgram : Obligations.StepNeverChangesTheProgram := by
  unfold Obligations.StepNeverChangesTheProgram
  exact fun s t => step_program

/-- Settles O40: with and without work as `step_counts` says, and `hostStep` answers `hasWork`. -/
theorem cyclesAndTraceCountTheWork : Obligations.CyclesAndTraceCountTheWork := by
  unfold Obligations.CyclesAndTraceCountTheWork
  intro s hs
  refine ⟨fun hpc hwindow => ?_, fun hwork t h ht => ?_⟩
  · have hw : hasWork s = false := by
      rw [← Bool.not_eq_true, hasWork_iff]
      simp [hpc, hwindow]
    have hstep := step_of_no_work hs hw
    exact ⟨hstep, by simp [hostStep, hstep, hs, hw]⟩
  · have hw : hasWork s = true := (hasWork_iff s).2 hwork
    have hhost : hostStep s = .worked t := by simp [hostStep, h, ht, hw]
    rcases step_counts h with ⟨hno, -⟩ | ⟨-, hne, -⟩ | ⟨-, -, hcycle, htrace⟩
    · rw [hw] at hno
      cases hno
    · exact absurd ht hne
    · exact ⟨hhost, hcycle, htrace⟩

/-- Settles O41: a faulted state performs no cycle, and the cycle that raised is abandoned before its end. -/
theorem faultEndsTheRun : Obligations.FaultEndsTheRun := by
  unfold Obligations.FaultEndsTheRun
  refine ⟨fun s f hf => ⟨step_of_fault hf, by simp [hostStep, step_of_fault hf]⟩, fun s t f h hf => ?_⟩
  have hs : s.fault = none := (step_next h).1
  rcases step_counts h with ⟨-, rfl⟩ | ⟨-, -, hcycle, htrace⟩ | ⟨-, hnone, -⟩
  · rw [hs] at hf
    cases hf
  · exact ⟨hs, hcycle, htrace, step_of_fault hf⟩
  · rw [hnone] at hf
    cases hf

/-- Settles O37: a stage that is done by the frame of its effect; one that waits or raises has written the status or
the fault register alone. -/
theorem stageCallFrame : Obligations.StageCallFrame := by
  unfold Obligations.StageCallFrame
  intro i s t inst hv h
  rcases exec_visiting_cases hv h with ⟨inst', u, hu, rfl⟩ | ⟨rfl, -⟩ | ⟨fn, f, -, -, rfl⟩
  · have hrun := hu.sameRun
    refine ⟨⟨hu.pc_eq, hrun.imem, hrun.params, hu.window_eq, hrun.stalledPrev, hrun.cycle, hrun.nextSeq, hrun.trace,
      ?_⟩, fun r hr => hu.reg_eq hr, hu.dmem_eq, fun _ _ _ _ k hk => hu.read_eq hk, hu.ras_eq, hu.btb_eq⟩
    simp [hu.wires_eq]
  · exact ⟨⟨rfl, rfl, rfl, rfl, rfl, rfl, rfl, rfl, rfl⟩, fun _ _ => rfl, fun _ => rfl, fun _ _ _ _ _ _ => rfl,
      fun _ => rfl, fun _ => rfl⟩
  · exact ⟨⟨rfl, rfl, rfl, rfl, rfl, rfl, rfl, rfl, rfl⟩, fun _ _ => rfl, fun _ => rfl, fun _ _ _ _ _ _ => rfl,
      fun _ => rfl, fun _ => rfl⟩

end Sys2Proof.Machine

/-! PROOFS. The shape of the machine is kept by every step (R35, R42, R49, R174, R177, R182, R185, R186). The stores
are kept sound by each stage call. The window is followed through the sweep by the ranks that its instances will have
when the sweep is past them: the list of these never changes, since an instance that advances moves up to the rank it
was due. -/

namespace Sys2Proof.Machine

/-! ## The stores -/

/-- Data memory, the RAS and the predictor keep to their forms and sizes: the part of `State.Inv` that stages write. -/
structure State.StoresSound (s : State) : Prop where
  dmem_wf : Memory.wf s.dmem = true
  dmem_range : ∀ c ∈ s.dmem, c.1 < s.params.dmemWords
  ras_bound : ∀ d, s.params.rasDepth = some d → s.ras.length ≤ d
  btb_length : s.btb.length = s.params.btbEntries

theorem State.StoresSound.congr {s t : State} (h : s.StoresSound) (hparams : t.params = s.params)
    (hdmem : t.dmem = s.dmem) (hras : t.ras = s.ras) (hbtb : t.btb = s.btb) : t.StoresSound where
  dmem_wf := hdmem ▸ h.dmem_wf
  dmem_range := by rw [hdmem, hparams]; exact h.dmem_range
  ras_bound := by rw [hras, hparams]; exact h.ras_bound
  btb_length := by rw [hbtb, hparams]; exact h.btb_length

theorem rasFull_eq_false_iff (s : State) :
    rasFull s = false ↔ ∀ d, s.params.rasDepth = some d → s.ras.length < d := by
  unfold rasFull
  cases s.params.rasDepth <;> simp

/-- No stage call writes a word out of range, pushes on a full RAS or resizes the predictor. -/
theorem StageEffect.storesSound {i : Instr} {s t : State} {inst inst' : Instance}
    (h : StageEffect i s inst inst' t) (hs : s.StoresSound) : t.StoresSound where
  dmem_wf := by
    rcases h.dmem with e | ⟨-, -, -, e⟩ <;> rw [e]
    · exact hs.dmem_wf
    · exact Memory.write_wf _ _ _ hs.dmem_wf
  dmem_range := by
    rw [h.sameRun.params]
    rcases h.dmem with e | ⟨-, -, hk, e⟩ <;> rw [e]
    · exact hs.dmem_range
    · intro c hc
      rcases Memory.mem_write _ _ _ _ hc with ⟨rfl, -⟩ | hc
      · exact hk
      · exact hs.dmem_range c hc
  ras_bound := by
    rw [h.sameRun.params]
    intro d hd
    rcases h.ras with e | ⟨-, -, e⟩ | ⟨-, -, hfull, e⟩ <;> rw [e]
    · exact hs.ras_bound d hd
    · rw [List.length_dropLast]
      exact (Nat.sub_le _ _).trans (hs.ras_bound d hd)
    · rw [List.length_append]
      exact (rasFull_eq_false_iff s).1 hfull d hd
  btb_length := by
    rw [h.sameRun.params]
    rcases h.btb with e | ⟨-, -, _, e⟩ <;> rw [e]
    · exact hs.btb_length
    · rw [List.length_set]
      exact hs.btb_length

theorem sweep_storesSound {l : List Instance} {k : Nat} {s t : State} (hs : s.fault = none) (hstores : s.StoresSound)
    (h : sweep l k s = .next t) : t.StoresSound := by
  refine sweep_induct_cases (P := fun _ _ u => u.StoresSound) ?_ ?_ ?_ ?_ l k s t hstores hs h
  · exact fun _ _ hP _ => hP
  · exact fun _ _ _ _ _ _ hP _ _ _ => hP.congr rfl rfl rfl rfl
  · exact fun _ _ _ _ hP _ _ => hP.congr rfl rfl rfl rfl
  · intro inst rest k u inst' v next hP _ hv _
    have hvisited : (u.visit inst).StoresSound := hP.congr rfl rfl rfl rfl
    exact (hv.storesSound hvisited).congr (by simp) (by simp) (by simp) (by simp)

/-! ## The window in the sweep -/

theorem Stage.rank_next {a b : Stage} (h : a.next = some b) : b.rank = a.rank + 1 := by
  cases a <;> cases h <;> rfl

theorem Stage.rank_le (a : Stage) : a.rank ≤ 5 := by
  cases a <;> decide

theorem Stage.rank_eq_five {a : Stage} : a.rank = 5 ↔ a = .W := by
  cases a <;> decide

theorem Stage.rank_eq_zero {a : Stage} : a.rank = 0 ↔ a = .PF := by
  cases a <;> decide

/-- No intent of the instance is still to be honored (R177). -/
def Instance.Honored (inst : Instance) : Prop := ∀ j, inst.jump = some j → j.taken = false

/-- Program order with strictly falling stages (R185). -/
def StagesFall (w : List Instance) : Prop := w.Pairwise fun older younger => younger.stage.rank < older.stage.rank

/-- The ranks that the instances of a sweep have when it is past them: those of the advanced ones, and one more for each
that is left. -/
def dueRanks (advanced left : List Instance) : List Nat :=
  advanced.map (fun inst => inst.stage.rank) ++ left.map fun inst => inst.stage.rank + 1

/-- Where a sweep over the snapshot `w` stands: the instances `advanced` are past it and `left` still to visit. Each
advanced instance has the rank it was due. Before a jump every intent is honored, after
it those of the instances up to the cut. -/
structure State.SweepStands (w advanced left : List Instance) (s : State) : Prop where
  window : s.window = advanced ++ left
  ranks : dueRanks advanced left = dueRanks [] w
  seqs : s.window.map (·.seq) = w.map (·.seq)
  unjumped : s.wires.jumped = false → ∀ inst ∈ s.window, inst.Honored
  jumped : s.wires.jumped = true → ∃ c, s.wires.cut = some c ∧ c < advanced.length ∧
    ∀ inst ∈ advanced.take (c + 1), inst.Honored

/-- The ranks the instances are due fall as the stages of the snapshot do. -/
theorem State.SweepStands.due_fall {w advanced left : List Instance} {s : State}
    (h : s.SweepStands w advanced left) (hw : StagesFall w) : (dueRanks advanced left).Pairwise (· > ·) := by
  rw [h.ranks, dueRanks, List.map_nil, List.nil_append, List.pairwise_map]
  exact hw.imp fun hlt => Nat.succ_lt_succ hlt

theorem State.SweepStands.due_pos {w advanced left : List Instance} {s : State}
    (h : s.SweepStands w advanced left) {r : Nat} (hr : r ∈ dueRanks advanced left) : 1 ≤ r := by
  rw [h.ranks, dueRanks, List.map_nil, List.nil_append] at hr
  obtain ⟨inst, -, rfl⟩ := List.mem_map.1 hr
  exact Nat.le_add_left 1 _

/-- An advanced instance has completed a stage. -/
theorem State.SweepStands.advanced_fetched {w advanced left : List Instance} {s : State}
    (h : s.SweepStands w advanced left) {inst : Instance} (hinst : inst ∈ advanced) : inst.stage ≠ .PF := by
  have hpos := h.due_pos (List.mem_append_left _ (List.mem_map_of_mem hinst))
  rw [Ne, ← Stage.rank_eq_zero]
  omega

theorem State.SweepStands.stagesFall {w advanced left : List Instance} {s : State}
    (h : s.SweepStands w advanced left) (hw : StagesFall w) : StagesFall s.window := by
  obtain ⟨hadvanced, hleft, hbetween⟩ := List.pairwise_append.1 (h.due_fall hw)
  rw [List.pairwise_map] at hadvanced hleft
  rw [h.window]
  refine List.pairwise_append.2 ⟨hadvanced, hleft.imp fun hlt => Nat.lt_of_succ_lt_succ hlt, fun a ha b hb => ?_⟩
  have hgap := hbetween _ (List.mem_map_of_mem ha) _ (List.mem_map_of_mem hb)
  omega

/-- Strictly falling positive numbers are at most as many as the first of them says. -/
theorem length_le_of_falling {a : Nat} {l : List Nat} (hfall : (a :: l).Pairwise (· > ·))
    (hpos : ∀ r ∈ a :: l, 1 ≤ r) : (a :: l).length ≤ a := by
  induction l generalizing a with
  | nil => exact hpos a (List.mem_singleton_self a)
  | cons b l ih =>
    have hab : b < a := (List.pairwise_cons.1 hfall).1 b List.mem_cons_self
    have hrest := ih (List.pairwise_cons.1 hfall).2 fun r hr => hpos r (List.mem_cons_of_mem _ hr)
    simp only [List.length_cons] at hrest ⊢
    omega

/-- Putting the next instance back, one stage on, moves the sweep one place on. -/
theorem State.SweepStands.advance {w advanced rest : List Instance} {inst last : Instance} {s t : State}
    (h : s.SweepStands w advanced (inst :: rest)) (hwindow : t.window = s.window.set advanced.length last)
    (hseq : last.seq = inst.seq) (hrank : last.stage.rank = inst.stage.rank + 1)
    (hunjumped : t.wires.jumped = false → s.wires.jumped = false ∧ last.Honored)
    (hjumped : t.wires.jumped = true →
      s.wires.jumped = true ∧ t.wires.cut = s.wires.cut ∨
      s.wires.jumped = false ∧ t.wires.cut = some advanced.length ∧ last.Honored) :
    t.SweepStands w (advanced ++ [last]) rest := by
  have hplaced : t.window = (advanced ++ [last]) ++ rest := by
    rw [hwindow, h.window]
    simp
  have hothers : s.wires.jumped = false → ∀ a ∈ advanced ++ rest, a.Honored := by
    intro hno a ha
    refine h.unjumped hno a ?_
    rw [h.window]
    exact ((List.sublist_cons_self inst rest).append_left advanced).subset ha
  refine ⟨hplaced, ?_, ?_, fun hno a ha => ?_, fun hyes => ?_⟩
  · rw [← h.ranks]
    simp [dueRanks, hrank]
  · rw [← h.seqs, hplaced, h.window]
    simp [hseq]
  · obtain ⟨hno', hlast⟩ := hunjumped hno
    rw [hplaced, List.append_assoc, List.mem_append, List.singleton_append, List.mem_cons] at ha
    rcases ha with ha | rfl | ha
    · exact hothers hno' a (List.mem_append_left _ ha)
    · exact hlast
    · exact hothers hno' a (List.mem_append_right _ ha)
  · rcases hjumped hyes with ⟨hyes', hcut⟩ | ⟨hno', hcut, hlast⟩
    · obtain ⟨c, hc, hlt, hkept⟩ := h.jumped hyes'
      refine ⟨c, hcut.trans hc, by simp; omega, ?_⟩
      rwa [List.take_append_of_le_length hlt]
    · refine ⟨advanced.length, hcut, by simp, fun a ha => ?_⟩
      rcases List.mem_append.1 (List.mem_of_mem_take ha) with ha | ha
      · exact hothers hno' a (List.mem_append_left _ ha)
      · rwa [List.mem_singleton.1 ha]

/-- The bookkeeping of the next instance moves the sweep one place on, whether its jump is honored or not. -/
theorem State.SweepStands.settle {w advanced rest : List Instance} {inst inst' : Instance} {s u : State}
    {next : Stage} (h : s.SweepStands w advanced (inst :: rest))
    (hu : StageEffect inst.instr (s.visit inst) inst inst' u) (hnext : inst.stage.next = some next) :
    ∃ last, (settle (u.visit inst') advanced.length inst' next).SweepStands w (advanced ++ [last]) rest := by
  have hjumped : (u.visit inst').wires.jumped = s.wires.jumped := by rw [State.visit_wires, hu.wires_eq]; rfl
  have hcut : (u.visit inst').wires.cut = s.wires.cut := by rw [State.visit_wires, hu.wires_eq]; rfl
  have hwindow : (u.visit inst').window = s.window := hu.window_eq
  obtain ⟨-, -, -, hseq⟩ := hu.named
  have hrank := Stage.rank_next hnext
  rcases settle_cases (u.visit inst') advanced.length inst' next with ⟨j, -, -, hno, e⟩ | ⟨htaken, e⟩
  · refine ⟨_, h.advance (last := { inst' with stage := next, jump := some { j with taken := false } })
      (by rw [e, ← hwindow]) hseq hrank (fun hno' => ?_) fun _ => .inr ⟨hjumped ▸ hno, by rw [e], ?_⟩⟩
    · rw [e] at hno'
      cases hno'
    · intro j' hj'
      cases hj'
      rfl
  · have hsame : (Machine.settle (u.visit inst') advanced.length inst' next).wires.jumped = s.wires.jumped := by
      rw [e, ← hjumped]
      simp
    have hsameCut : (Machine.settle (u.visit inst') advanced.length inst' next).wires.cut = s.wires.cut := by
      rw [e, ← hcut]
      simp
    refine ⟨_, h.advance (last := { inst' with stage := next }) (by rw [e, ← hwindow]) hseq hrank
      (fun hno => ⟨hsame ▸ hno, fun j hj => ?_⟩) fun hyes => .inl ⟨hsame ▸ hyes, hsameCut⟩⟩
    by_contra hne
    have hyes := htaken j hj (Bool.not_eq_false _ ▸ hne)
    rw [hjumped, ← hsame, hno] at hyes
    cases hyes

/-- How a sweep over `w` ends: where it stands, and without a fault either it is past every instance or it has stopped
at a stalled one, which waits at decode or execute (R175). -/
def State.SweepEnded (w : List Instance) (s : State) : Prop :=
  ∃ advanced left, s.SweepStands w advanced left ∧
    (s.fault = none → ∀ inst ∈ left, inst.stage.rank ≤ 2 ∧ s.wires.stalled = true)

theorem sweep_ended {w : List Instance} {s t : State} (hw : StagesFall w) (hs : s.fault = none)
    (hbegin : s.SweepStands w [] w) (h : sweep w 0 s = .next t) : t.SweepEnded w := by
  refine sweep_induct_cases (P := fun left k u => ∃ advanced, advanced.length = k ∧ u.SweepStands w advanced left)
    ?_ ?_ ?_ ?_ w 0 s t ⟨[], rfl, hbegin⟩ hs h
  · rintro k u ⟨advanced, -, hu⟩ -
    exact ⟨advanced, [], hu, by simp⟩
  · rintro inst rest k u fn f ⟨advanced, -, hu⟩ - - -
    exact ⟨advanced, inst :: rest, ⟨hu.window, hu.ranks, hu.seqs, hu.unjumped, hu.jumped⟩, by simp⟩
  · rintro inst rest k u ⟨advanced, -, hu⟩ - hst
    refine ⟨advanced, inst :: rest, ⟨hu.window, hu.ranks, hu.seqs, hu.unjumped, hu.jumped⟩, fun _ b hb => ⟨?_, rfl⟩⟩
    have hinst : inst.stage.rank ≤ 2 := by
      rcases hst with e | e <;> rw [e] <;> decide
    rcases List.mem_cons.1 hb with rfl | hb
    · exact hinst
    · have hfall := hu.stagesFall hw
      rw [hu.window] at hfall
      have hlt := (List.pairwise_cons.1 (List.pairwise_append.1 hfall).2.1).1 b hb
      omega
  · rintro inst rest k u inst' v next ⟨advanced, rfl, hu⟩ - hv hnext
    obtain ⟨last, hlast⟩ := hu.settle hv hnext
    exact ⟨advanced ++ [last], by simp, hlast⟩

/-! ## Squash and retirement -/

theorem State.squash_window_sublist (s : State) : s.squash.window.Sublist s.window := by
  unfold State.squash
  split
  · exact List.take_sublist _ _
  · exact List.Sublist.refl _

theorem State.retire_window_sublist (s : State) : s.retire.window.Sublist s.window := by
  unfold State.retire
  split
  · exact List.Sublist.refl _
  · split
    · rename_i hwindow _
      rw [hwindow]
      exact List.sublist_cons_self _ _
    · exact List.Sublist.refl _

theorem State.finish_window_sublist (s : State) : s.finish.window.Sublist s.window := by
  rw [State.finish_window]
  exact s.squash.retire_window_sublist.trans s.squash_window_sublist

theorem State.squash_window_of_unjumped {s : State} (h : s.wires.jumped = false) : s.squash.window = s.window := by
  simp [State.squash, h]

theorem State.squash_window_of_jumped {s : State} {c : Nat} (h : s.wires.jumped = true)
    (hc : s.wires.cut = some c) : s.squash.window = s.window.take (c + 1) := by
  simp [State.squash, h, hc]

theorem State.retire_window_cons {s : State} {inst : Instance} {rest : List Instance}
    (h : s.window = inst :: rest) : s.retire.window = if inst.stage = .W then rest else inst :: rest := by
  unfold State.retire
  rw [h]
  simp only
  split
  · rfl
  · exact h

/-- Retirement leaves no completed instance (R174): with falling stages only the oldest can be one. -/
theorem State.retire_none_retired {s : State} (hfall : StagesFall s.window) :
    ∀ inst ∈ s.retire.window, inst.stage ≠ .W := by
  cases hwindow : s.window with
  | nil =>
    intro inst hinst
    have := s.retire_window_sublist.subset hinst
    simp [hwindow] at this
  | cons oldest rest =>
    rw [hwindow] at hfall
    have hrest : ∀ inst ∈ rest, inst.stage ≠ .W := by
      intro inst hinst hW
      have hlt := (List.pairwise_cons.1 hfall).1 inst hinst
      rw [Stage.rank_eq_five.2 hW] at hlt
      exact absurd oldest.stage.rank_le (Nat.not_le_of_lt hlt)
    rw [State.retire_window_cons hwindow]
    split
    · exact hrest
    · rename_i hW
      exact List.forall_mem_cons.2 ⟨hW, hrest⟩

/-! ## Between two cycles -/

/-- What the squash leaves is honored, and past its fetch unless the cycle ends stalled (R177, R178, R181). -/
theorem State.SweepEnded.squashed {w : List Instance} {s : State} (h : s.SweepEnded w) (hs : s.fault = none) :
    (∀ inst ∈ s.squash.window, inst.Honored) ∧
    ((s.wires.stalled && !s.wires.jumped) = false → ∀ inst ∈ s.squash.window, inst.stage ≠ .PF) := by
  obtain ⟨advanced, left, hstands, hleft⟩ := h
  cases hjumped : s.wires.jumped with
  | false =>
    rw [State.squash_window_of_unjumped hjumped]
    refine ⟨hstands.unjumped hjumped, fun hstalled inst hinst => ?_⟩
    rw [hstands.window, List.mem_append] at hinst
    rcases hinst with hinst | hinst
    · exact hstands.advanced_fetched hinst
    · rw [(hleft hs inst hinst).2] at hstalled
      cases hstalled
  | true =>
    obtain ⟨c, hcut, hlt, hhonored⟩ := hstands.jumped hjumped
    rw [State.squash_window_of_jumped hjumped hcut, hstands.window, List.take_append_of_le_length hlt]
    exact ⟨hhonored, fun _ inst hinst => hstands.advanced_fetched (List.mem_of_mem_take hinst)⟩

/-- Only the oldest instance can have completed writeback when the sweep ends, so its retirement leaves none. -/
theorem State.SweepEnded.finish_none_retired {w : List Instance} {s : State} (h : s.SweepEnded w)
    (hw : StagesFall w) : ∀ inst ∈ s.finish.window, inst.stage ≠ .W := by
  obtain ⟨advanced, left, hstands, -⟩ := h
  rw [State.finish_window]
  exact State.retire_none_retired ((hstands.stagesFall hw).sublist s.squash_window_sublist)

theorem State.SweepStands.length_dueRanks {w advanced left : List Instance} {s : State}
    (h : s.SweepStands w advanced left) : (dueRanks advanced left).length = s.window.length := by
  simp [dueRanks, h.window]

/-- Five instances in flight are due the ranks 5 to 1, so that the oldest of them retires (R174, R186). -/
theorem State.SweepEnded.finish_window_four {w : List Instance} {s : State} (h : s.SweepEnded w) (hw : StagesFall w)
    (hs : s.fault = none) : s.finish.window.length ≤ 4 := by
  have hretired := h.finish_none_retired hw
  have hsub := s.finish_window_sublist
  obtain ⟨advanced, left, hstands, hleft⟩ := h
  have hfall := hstands.due_fall hw
  have hpos : ∀ r ∈ dueRanks advanced left, 1 ≤ r := fun r => hstands.due_pos
  have hlength := hstands.length_dueRanks
  cases advanced with
  | nil =>
    cases left with
    | nil =>
      have := hsub.length_le
      rw [← hlength] at this
      exact this.trans (by simp [dueRanks])
    | cons oldest rest =>
      have hdue : (dueRanks [] (oldest :: rest)).length ≤ oldest.stage.rank + 1 := length_le_of_falling hfall hpos
      have hrank := (hleft hs oldest List.mem_cons_self).1
      have := hsub.length_le
      omega
  | cons oldest advanced =>
    have hdue : (dueRanks (oldest :: advanced) left).length ≤ oldest.stage.rank := length_le_of_falling hfall hpos
    have hrank := oldest.stage.rank_le
    rw [hlength, hstands.window] at hdue
    rw [hstands.window] at hsub
    rcases List.sublist_cons_iff.1 hsub with hsub | ⟨kept, hkept, -⟩
    · have : s.finish.window.length ≤ (advanced ++ left).length := hsub.length_le
      simp only [List.cons_append, List.length_cons] at hdue
      omega
    · have hne : oldest.stage.rank ≠ 5 := fun hfive =>
        hretired oldest (hkept ▸ List.mem_cons_self) (Stage.rank_eq_five.1 hfive)
      have := hsub.length_le
      omega

theorem State.SweepEnded.finish_betweenCycles {w : List Instance} {s : State} (h : s.SweepEnded w)
    (hw : StagesFall w) (hs : s.fault = none) : s.finish.BetweenCycles := by
  obtain ⟨hhonored, hfetched⟩ := h.squashed hs
  have hsub : s.finish.window ⊆ s.squash.window := by
    rw [State.finish_window]
    exact s.squash.retire_window_sublist.subset
  exact
    { wires_idle := State.finish_wires s
      window_four := h.finish_window_four hw hs
      none_retired := h.finish_none_retired hw
      fetched := fun hstalled inst hinst => hfetched (by rwa [← State.finish_stalledPrev]) inst (hsub hinst)
      honored := fun inst hinst => hhonored inst (hsub hinst) }

/-! ## The window as a whole -/

/-- The part of `State.Inv` that speaks of the window, faulted or not. -/
structure State.WindowOrdered (s : State) : Prop where
  window_five : s.window.length ≤ 5
  stages_fall : StagesFall s.window
  seqs_rise : s.window.Pairwise fun older younger => older.seq < younger.seq
  seqs_used : ∀ inst ∈ s.window, inst.seq < s.nextSeq

theorem State.WindowOrdered.sublist {s t : State} (h : s.WindowOrdered) (hwindow : t.window.Sublist s.window)
    (hnext : t.nextSeq = s.nextSeq) : t.WindowOrdered where
  window_five := hwindow.length_le.trans h.window_five
  stages_fall := h.stages_fall.sublist hwindow
  seqs_rise := h.seqs_rise.sublist hwindow
  seqs_used := fun inst hinst => hnext ▸ h.seqs_used inst (hwindow.subset hinst)

/-- A sweep keeps the order, since it changes no `seq` and no place. -/
theorem State.WindowOrdered.of_sweepStands {u v : State} {advanced left : List Instance} (h : u.WindowOrdered)
    (hstands : v.SweepStands u.window advanced left) (hnext : v.nextSeq = u.nextSeq) : v.WindowOrdered where
  window_five := by
    have hlength := congrArg List.length hstands.seqs
    rw [List.length_map, List.length_map] at hlength
    exact hlength ▸ h.window_five
  stages_fall := hstands.stagesFall h.stages_fall
  seqs_rise := by
    have hrise : (u.window.map (·.seq)).Pairwise (· < ·) := List.pairwise_map.2 h.seqs_rise
    rw [← hstands.seqs] at hrise
    exact List.pairwise_map.1 hrise
  seqs_used := by
    intro inst hinst
    have hmem : inst.seq ∈ v.window.map (·.seq) := List.mem_map_of_mem hinst
    rw [hstands.seqs] at hmem
    obtain ⟨old, hold, hseq⟩ := List.mem_map.1 hmem
    rw [← hseq, hnext]
    exact h.seqs_used old hold

/-- The issue step appends an instance younger than all, and only behind fetched ones (R172, R181). -/
theorem State.IssuesTo.windowOrdered {s u : State} (h : s.IssuesTo u) (hs : s.WindowOrdered)
    (hbetween : s.BetweenCycles) : u.WindowOrdered := by
  rcases h with ⟨rfl, -⟩ | ⟨i, hstalled, -, rfl⟩
  · exact hs.sublist (List.Sublist.refl _) rfl
  · refine ⟨?_, ?_, ?_, ?_⟩
    · have := hbetween.window_four
      simp only [State.issue_window, List.length_append, List.length_singleton]
      omega
    · refine List.pairwise_append.2 ⟨hs.stages_fall, List.pairwise_singleton _ _, fun a ha b hb => ?_⟩
      rw [List.mem_singleton.1 hb]
      exact Nat.pos_of_ne_zero fun hzero => hbetween.fetched hstalled a ha (Stage.rank_eq_zero.1 hzero)
    · refine List.pairwise_append.2 ⟨hs.seqs_rise, List.pairwise_singleton _ _, fun a ha b hb => ?_⟩
      rw [List.mem_singleton.1 hb]
      exact hs.seqs_used a ha
    · intro inst hinst
      rcases List.mem_append.1 hinst with hinst | hinst
      · exact Nat.lt_succ_of_lt (hs.seqs_used inst hinst)
      · rw [List.mem_singleton.1 hinst]
        exact Nat.lt_succ_self _

theorem State.IssuesTo.honored {s u : State} (h : s.IssuesTo u) (hbetween : s.BetweenCycles) :
    ∀ inst ∈ u.window, inst.Honored := by
  rcases h with ⟨rfl, -⟩ | ⟨i, -, -, rfl⟩
  · exact hbetween.honored
  · intro inst hinst
    rcases List.mem_append.1 hinst with hinst | hinst
    · exact hbetween.honored inst hinst
    · rw [List.mem_singleton.1 hinst]
      intro j hj
      cases hj

/-- Clearing the hazard state begins the sweep with every instance of the snapshot left to visit. -/
theorem State.sweepStands_clearHazards {u : State} (hhonored : ∀ inst ∈ u.window, inst.Honored) :
    u.clearHazards.SweepStands u.window [] u.window where
  window := rfl
  ranks := rfl
  seqs := rfl
  unjumped := fun _ => hhonored
  jumped := fun hyes => by cases hyes

/-! ## The step -/

theorem State.inv_iff (s : State) : s.Inv ↔ s.params.valid = true ∧ s.imem.length ≤ 2 ^ 30 ∧
    s.trace.length = s.cycle ∧ s.StoresSound ∧ s.WindowOrdered ∧ (s.fault = none → s.BetweenCycles) := by
  constructor
  · intro h
    exact ⟨h.params_valid, h.imem_length, h.trace_length, ⟨h.dmem_wf, h.dmem_range, h.ras_bound, h.btb_length⟩,
      ⟨h.window_five, h.stages_fall, h.seqs_rise, h.seqs_used⟩, h.between⟩
  · rintro ⟨hparams, himem, htrace, hstores, hwindow, hbetween⟩
    exact ⟨hparams, hstores.dmem_wf, hstores.dmem_range, hstores.ras_bound, hstores.btb_length, himem,
      hwindow.window_five, hwindow.stages_fall, hwindow.seqs_rise, hwindow.seqs_used, htrace, hbetween⟩

theorem step_trace_length {s t : State} (h : step s = .next t) (hs : s.trace.length = s.cycle) :
    t.trace.length = t.cycle := by
  rcases step_counts h with ⟨-, rfl⟩ | ⟨-, -, hcycle, htrace⟩ | ⟨-, -, hcycle, events, htrace⟩
  · exact hs
  · rw [hcycle, htrace, hs]
  · rw [hcycle, htrace, List.length_append, List.length_singleton, hs]

/-- A step from a state between cycles keeps the stores, the window's order and the rest between cycles. -/
theorem step_stores_and_window {s t : State} (h : step s = .next t) (hstores : s.StoresSound)
    (hwindow : s.WindowOrdered) (hbetween : s.BetweenCycles) :
    t.StoresSound ∧ t.WindowOrdered ∧ (t.fault = none → t.BetweenCycles) := by
  apply step_elim h
  · exact fun _ => ⟨hstores, hwindow, fun _ => hbetween⟩
  · exact fun _ w => ⟨hstores.congr rfl rfl rfl rfl, hwindow.sublist (List.Sublist.refl _) rfl,
      fun hnone => by cases hnone⟩
  intro _ u hu hissue v hv
  have hustores : u.clearHazards.StoresSound := by
    rcases hissue with ⟨rfl, -⟩ | ⟨i, -, -, rfl⟩ <;> exact hstores.congr rfl rfl rfl rfl
  have huwindow := hissue.windowOrdered hwindow hbetween
  have hvstores := sweep_storesSound (s := u.clearHazards) hu hustores hv
  have hended : v.SweepEnded u.window := sweep_ended (s := u.clearHazards) huwindow.stages_fall hu
    (State.sweepStands_clearHazards (hissue.honored hbetween)) hv
  have hvwindow : v.WindowOrdered := by
    obtain ⟨advanced, left, hstands, -⟩ := hended
    exact huwindow.of_sweepStands hstands (sweep_sameRun (s := u.clearHazards) hu hv).nextSeq
  refine ⟨fun hraised => ⟨hvstores, hvwindow, fun hnone => absurd hnone hraised⟩, fun hnone => ⟨?_, ?_, fun _ => ?_⟩⟩
  · exact hvstores.congr (by simp) (by simp) (by simp) (by simp)
  · exact hvwindow.sublist v.finish_window_sublist (State.finish_nextSeq v)
  · exact hended.finish_betweenCycles huwindow.stages_fall hnone

/-- Settles O8: the program and the sizes stay (O11), the trace follows the counter (O40), and the rest is kept by the
issue step, the sweep and the end of the cycle in turn. -/
theorem stepKeepsTheShape : Obligations.StepKeepsTheShape := by
  unfold Obligations.StepKeepsTheShape
  intro s t hs h
  have hbetween := hs.between (step_next h).1
  obtain ⟨hparams, himem, htrace, hstores, hwindow, -⟩ := (State.inv_iff s).1 hs
  obtain ⟨himem', hparams'⟩ := step_program h
  exact (State.inv_iff t).2 ⟨hparams' ▸ hparams, himem' ▸ himem, step_trace_length h htrace,
    step_stores_and_window h hstores hwindow hbetween⟩

end Sys2Proof.Machine

/-! PROOFS. The registers and the RAS as primitives (R21, R24, R36), the reset values (R53), and the first and the last
step of every instruction's life (R172, R117). -/

namespace Sys2Proof.Machine

/-! ## The ports of the register file (R20, R21, R24) -/

theorem regRead_of_lt (s : State) {i : Nat} (hi : i < 32) : regRead s i = .ok (s.reg i) := if_pos hi

theorem regRead_of_ge (s : State) {i : Nat} (hi : 32 ≤ i) : regRead s i = .error (.regIndexOutOfRange i) :=
  if_neg (Nat.not_lt.2 hi)

theorem regWrite_zero (s : State) (v : Word) : regWrite s 0 v = .error .regZeroWrite := rfl

theorem regWrite_of_lt (s : State) {i : Nat} (v : Word) (h0 : i ≠ 0) (hi : i < 32) :
    regWrite s i v = .ok (s.setReg i v) := by
  rw [regWrite, if_neg h0, if_pos hi]

theorem regWrite_of_ge (s : State) {i : Nat} (v : Word) (hi : 32 ≤ i) :
    regWrite s i v = .error (.regIndexOutOfRange i) := by
  rw [regWrite, if_neg (by omega), if_neg (Nat.not_lt.2 hi)]

/-- Settles O12: both ports at index 0, and the host's two accesses, which answer as the ports do. -/
theorem registerZeroReadsZeroAndRejectsWrites : Obligations.RegisterZeroReadsZeroAndRejectsWrites := by
  unfold Obligations.RegisterZeroReadsZeroAndRejectsWrites
  intro s v
  have hread : regRead s 0 = .ok 0 := regRead_of_lt s (by decide)
  have hwrite : regWrite s 0 v = .error .regZeroWrite := regWrite_zero s v
  refine ⟨hread, hwrite, ?_, ?_⟩
  · rw [hostReadReg, hread, HostReply.ofPrimitive]
  · rw [hostWriteReg, hwrite, HostReply.ofPrimitive]

/-- Settles O13: inside the file the write port sets the register and `State.reg_setReg` says what is read back; outside
it both ports raise. -/
theorem registerWriteThenRead : Obligations.RegisterWriteThenRead := by
  unfold Obligations.RegisterWriteThenRead
  refine ⟨fun s i j v h0 hi hj => ⟨s.setReg i v, regWrite_of_lt s v h0 hi, ?_, rfl⟩,
    fun s i v hi => ⟨regRead_of_ge s hi, regWrite_of_ge s v hi⟩⟩
  rw [regRead_of_lt _ hj, State.reg_setReg s i j v h0 hi]

/-! ## The return-address stack (R36) -/

theorem rasPush_of_not_full {s : State} (v : Word) (h : rasFull s = false) :
    rasPush s v = .ok { s with ras := s.ras ++ [v] } := by
  simp [rasPush, h]

theorem rasPush_of_full {s : State} (v : Word) (h : rasFull s = true) : rasPush s v = .error .stackOverflow := by
  simp [rasPush, h]

theorem rasPop_of_append {s : State} {older : List Word} {v : Word} (h : s.ras = older ++ [v]) :
    rasPop s = .ok (v, { s with ras := older }) := by
  simp [rasPop, h]

theorem rasPeek_of_append {s : State} {older : List Word} {v : Word} (h : s.ras = older ++ [v]) :
    rasPeek s = .ok v := by
  simp [rasPeek, h]

theorem rasPop_of_nil {s : State} (h : s.ras = []) : rasPop s = .error .stackUnderflow := by
  simp [rasPop, h]

theorem rasPeek_of_nil {s : State} (h : s.ras = []) : rasPeek s = .error .stackUnderflow := by
  simp [rasPeek, h]

/-- Settles O16: a push appends below the depth, `rasFull` says when that is, and pop and peek take the last entry. -/
theorem rasIsLastInFirstOut : Obligations.RasIsLastInFirstOut := by
  unfold Obligations.RasIsLastInFirstOut
  refine ⟨fun s v hfull => ⟨{ s with ras := s.ras ++ [v] }, rasPush_of_not_full v hfull, rfl, rasPop_of_append rfl,
    rasPeek_of_append rfl⟩, fun s v d hd hlen => ?_, fun s hd => ?_, fun s d hd hlt => ?_,
    fun s hnil => ⟨rasPop_of_nil hnil, rasPeek_of_nil hnil⟩⟩
  · refine rasPush_of_full v ?_
    rw [← Bool.not_eq_false, rasFull_eq_false_iff]
    intro hbelow
    exact absurd (hbelow d hd) (by omega)
  · rw [rasFull_eq_false_iff, hd]
    simp
  · rw [rasFull_eq_false_iff, hd]
    rintro _ ⟨⟩
    exact hlt

/-! ## The reset values (R53) -/

theorem State.resetWith_reg (p : Config.Params) (i : Nat) : (State.resetWith p).reg i = 0 := by
  unfold State.reg
  split
  · rfl
  · rw [State.resetWith, List.getD_eq_getElem?_getD, Vector.getElem?_toList, Vector.getElem?_replicate]
    split <;> rfl

/-- Settles O5: each field as `State.resetWith` gives it; the predictor is made of empty entries. -/
theorem resetLeavesTheTableOfValues : Obligations.ResetLeavesTheTableOfValues := by
  unfold Obligations.ResetLeavesTheTableOfValues
  intro p
  have hempty : ∀ e ∈ (State.resetWith p).btb, e.valid = false ∧ e.tag = 0 ∧ e.target = 0 ∧ e.taken = false := by
    intro e he
    rw [show e = BtbEntry.empty from List.eq_of_mem_replicate he]
    exact ⟨rfl, rfl, rfl, rfl⟩
  exact ⟨State.resetWith_reg p, rfl, fun _ => rfl, rfl, List.length_replicate, hempty, rfl, rfl, rfl, rfl, rfl, rfl,
    rfl, rfl, rfl⟩

/-! ## Creation and writeback (R172, R117) -/

/-- Settles O20: outside a sweep `exec` issues, whatever the instruction, and the new one has its fields fresh. -/
theorem execCreatesTheInstance : Obligations.ExecCreatesTheInstance := by
  unfold Obligations.ExecCreatesTheInstance
  intro i s hv
  exact ⟨Instance.fresh i (wordIndex s.pc) s.nextSeq, exec_not_visiting hv, rfl, rfl, rfl, rfl, rfl, rfl, rfl, rfl⟩

theorem exec_of_visits {i : Instr} {s : State} {inst : Instance} {st : Stage} {f : StageFn} (hv : s.visits inst st)
    (hf : stageFnOf i st = some f) : exec i s = .next (s.land (f s inst)) := by
  obtain ⟨hvisiting, rfl⟩ := hv
  exact exec_visiting hvisiting hf

theorem writebackOf_of_ne_lw {i : Instr} (h : ∀ rt rs imm, i ≠ .lw rt rs imm) : writebackOf i = writebackStage := by
  cases i
  case lw rt rs imm => exact absurd rfl (h rt rs imm)
  all_goals rfl

theorem writebackOf_cases (i : Instr) : writebackOf i = writebackStage ∨ writebackOf i = writebackPublishing := by
  cases i
  case lw => exact .inr rfl
  all_goals exact .inl rfl

theorem writebackOf_no_dest (i : Instr) (s : State) {inst : Instance} (hd : inst.dest = none) :
    writebackOf i s inst = .done inst s := by
  rcases writebackOf_cases i with e | e <;> rw [e]
  · simp [writebackStage, hd]
  · simp [writebackPublishing, hd]

/-- A write that the register port rejects is the instance's fault, for `lw` as for every other opcode. -/
theorem writebackOf_error (i : Instr) {s : State} {inst : Instance} {d : Nat} {c : Cause} (hd : inst.dest = some d)
    (hc : regWrite s d inst.result = .error c) : writebackOf i s inst = .raise (c.toFault inst) := by
  rcases writebackOf_cases i with e | e <;> rw [e]
  · simp [writebackStage, hd, hc]
  · simp [writebackPublishing, hd, hc]

theorem writebackStage_ok {s t : State} {inst : Instance} {d : Nat} (hd : inst.dest = some d)
    (ht : regWrite s d inst.result = .ok t) : writebackStage s inst = .done { inst with cleanup := true } t := by
  simp [writebackStage, hd, ht]

theorem writebackPublishing_ok {s t : State} {inst : Instance} {d : Nat} (hd : inst.dest = some d)
    (ht : regWrite s d inst.result = .ok t) :
    writebackPublishing s inst = .done { inst with fwd := some inst.result, cleanup := true } t := by
  simp [writebackPublishing, hd, ht]

/-- Settles O23: by what the register port answers for the destination. -/
theorem writebackCommitsTheResult : Obligations.WritebackCommitsTheResult := by
  unfold Obligations.WritebackCommitsTheResult
  intro i s inst hv
  have hexec : exec i s = .next (s.land (writebackOf i s inst)) := exec_of_visits hv rfl
  rw [hexec]
  refine ⟨fun hd => ?_, fun d hd h0 h32 hi => ?_, fun d rt rs imm hd h0 h32 hi => ?_, fun hd => ?_, fun d hd h32 => ?_⟩
  · rw [writebackOf_no_dest i s hd, State.land_done]
  · rw [writebackOf_of_ne_lw hi, writebackStage_ok hd (regWrite_of_lt s _ h0 h32), State.land_done]
    rfl
  · rw [hi, writebackOf, writebackPublishing_ok hd (regWrite_of_lt s _ h0 h32), State.land_done]
    rfl
  · rw [writebackOf_error i hd (regWrite_zero s _), State.land_raise]
    rfl
  · rw [writebackOf_error i hd (regWrite_of_ge s _ h32), State.land_raise]
    rfl

end Sys2Proof.Machine

/-! PROOFS. A legal word is the word of its record (R83 to R93, R99): each format put together again from the fields the
decoder takes out of it. -/

namespace Sys2Proof

/-! ## The fields of a word (R83 to R88) -/

theorem bits_lt (w : Word) (lo len : Nat) : bits w lo len < 2 ^ len := Nat.mod_lt _ (Nat.two_pow_pos len)

theorem regFits_bits (w : Word) (lo : Nat) : regFits (bits w lo 5) = true := decide_eq_true (bits_lt w lo 5)

theorem setWidth_sext16 (n : Nat) : (sext16 n).setWidth 16 = BitVec.ofNat 16 n := by
  ext i hi
  rw [sext16, BitVec.getElem_setWidth, BitVec.getLsbD_signExtend, if_pos hi]
  simp [hi, hi.trans (by decide : 16 < 32)]

theorem immFits_sext16 (n : Nat) : immFits (sext16 n) = true := by
  rw [immFits, setWidth_sext16]
  exact decide_eq_true rfl

theorem bits_sext16 (w : Word) : bits (sext16 (bits w 0 16)) 0 16 = bits w 0 16 := by
  have h := congrArg BitVec.toNat (setWidth_sext16 (bits w 0 16))
  rw [BitVec.toNat_setWidth, BitVec.toNat_ofNat, Nat.mod_eq_of_lt (bits_lt w 0 16)] at h
  conv_rhs => rw [← h]
  rw [bits, Nat.pow_zero, Nat.div_one]

theorem toNat_jumpTarget {n : Nat} (hn : n < 2 ^ 26) : (jumpTarget n).toNat = n * 4 := by
  rw [jumpTarget, BitVec.toNat_shiftLeft, BitVec.toNat_ofNat, Nat.shiftLeft_eq]
  omega

theorem targetFits_jumpTarget (w : Word) : targetFits (jumpTarget (bits w 0 26)) = true := by
  have hn := bits_lt w 0 26
  rw [targetFits, toNat_jumpTarget hn, Bool.and_eq_true, decide_eq_true_iff, decide_eq_true_iff]
  omega

theorem bits_jumpTarget (w : Word) : bits (jumpTarget (bits w 0 26)) 2 26 = bits w 0 26 := by
  have hn := bits_lt w 0 26
  rw [bits, toNat_jumpTarget hn]
  omega

/-! ## The three formats put together again (R83, R84, R85) -/

/-- The fields of the R format cover the word. -/
theorem encodeR_bits {w : Word} (hop : bits w 26 6 = 0) (hshamt : bits w 6 5 = 0) :
    encodeR (bits w 21 5) (bits w 16 5) (bits w 11 5) (bits w 0 6) = w := by
  apply BitVec.eq_of_toNat_eq
  have hw := w.isLt
  rw [encodeR, BitVec.toNat_ofNat]
  simp only [bits] at *
  omega

theorem encodeI_bits (w : Word) :
    encodeI (bits w 26 6) (bits w 21 5) (bits w 16 5) (sext16 (bits w 0 16)) = w := by
  apply BitVec.eq_of_toNat_eq
  have hw := w.isLt
  rw [encodeI, bits_sext16, BitVec.toNat_ofNat]
  simp only [bits] at *
  omega

theorem encodeJ_bits (w : Word) : encodeJ (bits w 26 6) (jumpTarget (bits w 0 26)) = w := by
  apply BitVec.eq_of_toNat_eq
  have hw := w.isLt
  rw [encodeJ, bits_jumpTarget, BitVec.toNat_ofNat]
  simp only [bits] at *
  omega

/-! ## The decoder -/

/-- Every word of opcode 0 that is legal (R83, R86, R93). -/
theorem decodeSpecial_legal {w : Word} {i : Instr} (hop : bits w 26 6 = 0) (h : decodeSpecial w = .legal i) :
    i.wellFormed = true ∧ encode i = w := by
  unfold decodeSpecial at h
  split at h
  · rename_i hzero
    cases h
    exact ⟨rfl, hzero.symm⟩
  · split at h
    · cases h
    · rename_i hshamt
      have hword := encodeR_bits hop (not_not.1 hshamt)
      split at h
      · rename_i hfunct
        cases h
        exact ⟨by simp [Instr.wellFormed, regFits_bits], by rw [encode, ← hfunct, hword]⟩
      · rename_i hfunct
        cases h
        exact ⟨by simp [Instr.wellFormed, regFits_bits], by rw [encode, ← hfunct, hword]⟩
      · rename_i hfunct
        cases h
        exact ⟨by simp [Instr.wellFormed, regFits_bits], by rw [encode, ← hfunct, hword]⟩
      · rename_i hfunct
        split at h
        · rename_i hunused
          cases h
          refine ⟨regFits_bits w 21, ?_⟩
          have hrt : bits w 16 5 = 0 := by
            simp only [bits] at *
            omega
          have hrd : bits w 11 5 = 0 := by
            simp only [bits] at *
            omega
          rw [hrt, hrd, hfunct] at hword
          rw [encode, hword]
        · cases h
      · cases h

/-- An I-format record of the decoder fits and encodes to its word. -/
theorem immediate_legal {w : Word} {opcode : Nat} (hop : bits w 26 6 = opcode) :
    (regFits (bits w 21 5) && regFits (bits w 16 5) && immFits (sext16 (bits w 0 16))) = true ∧
    (regFits (bits w 16 5) && regFits (bits w 21 5) && immFits (sext16 (bits w 0 16))) = true ∧
    encodeI opcode (bits w 21 5) (bits w 16 5) (sext16 (bits w 0 16)) = w := by
  refine ⟨?_, ?_, hop ▸ encodeI_bits w⟩ <;> rw [regFits_bits, regFits_bits, immFits_sext16] <;> rfl

/-- Settles O2, by the rows of the opcode map: each format's fields cover the word, and the decoder asks that those
without an operand are 0. -/
theorem encodeInvertsDecode : Obligations.EncodeInvertsDecode := by
  unfold Obligations.EncodeInvertsDecode
  intro w i h
  unfold decodeWord at h
  split at h <;> rename_i hop
  case h_1 => exact decodeSpecial_legal hop h
  case h_9 =>
    split at h
    · rename_i hunused
      cases h
      refine ⟨rfl, ?_⟩
      have hword := encodeJ_bits w
      rw [hop, hunused] at hword
      exact hword
    · cases h
  case h_10 => cases h
  all_goals cases h
  case h_4 =>
    obtain ⟨hfits, -, hword⟩ := immediate_legal hop
    exact ⟨hfits, hword⟩
  case h_5 | h_6 | h_7 =>
    obtain ⟨-, hfits, hword⟩ := immediate_legal hop
    exact ⟨hfits, hword⟩
  case h_2 | h_3 | h_8 =>
    have hword := encodeJ_bits w
    rw [hop] at hword
    exact ⟨targetFits_jumpTarget w, hword⟩

end Sys2Proof

/-! PROOFS. Which instance in flight can have changed what (R23, R37, R63, R68, R208, R220): the changes of a step are
those of the stage calls of its sweep. -/

namespace Sys2Proof.Machine

/-- Whatever of the stores differs in `t` from `s`, some instance of the list `w` stood before the stage that
changes it. -/
structure State.ChangedBy (w : List Instance) (s t : State) : Prop where
  regs : ∀ r, t.reg r ≠ s.reg r → ∃ inst ∈ w, inst.stage = .M ∧ inst.dest = some r
  dmem : ∀ k, t.dmem.read k ≠ s.dmem.read k →
    ∃ inst ∈ w, inst.stage = .E ∧ wordIndex inst.addr = k ∧ ∃ rt rs imm, inst.instr = .sw rt rs imm
  ras : t.ras ≠ s.ras → ∃ inst ∈ w, inst.stage = .F ∧ (inst.instr = .ret ∨ ∃ target, inst.instr = .call target)
  btb : t.btb ≠ s.btb → ∃ inst ∈ w, inst.stage = .D ∧ ∃ rs rt imm, inst.instr = .ble rs rt imm

theorem State.ChangedBy.of_eq {w : List Instance} {s t : State} (hregs : t.regs = s.regs) (hdmem : t.dmem = s.dmem)
    (hras : t.ras = s.ras) (hbtb : t.btb = s.btb) : s.ChangedBy w t where
  regs := fun r hne => absurd (by rw [State.reg, State.reg, hregs]) hne
  dmem := fun k hne => absurd (by rw [hdmem]) hne
  ras := fun hne => absurd hras hne
  btb := fun hne => absurd hbtb hne

theorem State.ChangedBy.trans {w : List Instance} {s t u : State} (h : s.ChangedBy w t) (g : t.ChangedBy w u) :
    s.ChangedBy w u where
  regs := fun r hne => (hne.ne_or_ne (t.reg r)).elim (g.regs r) fun hst => h.regs r hst.symm
  dmem := fun k hne => (hne.ne_or_ne (t.dmem.read k)).elim (g.dmem k) fun hst => h.dmem k hst.symm
  ras := fun hne => (hne.ne_or_ne t.ras).elim g.ras fun hst => h.ras hst.symm
  btb := fun hne => (hne.ne_or_ne t.btb).elim g.btb fun hst => h.btb hst.symm

/-- An unfetched instance changes nothing, so that the lists need not agree on those. -/
theorem State.ChangedBy.mono {w w' : List Instance} {s t : State} (h : s.ChangedBy w t)
    (hsub : ∀ inst ∈ w, inst.stage ≠ .PF → inst ∈ w') : s.ChangedBy w' t where
  regs := fun r hne => by
    obtain ⟨inst, hinst, hst, hd⟩ := h.regs r hne
    exact ⟨inst, hsub inst hinst (by simp [hst]), hst, hd⟩
  dmem := fun k hne => by
    obtain ⟨inst, hinst, hst, hsw⟩ := h.dmem k hne
    exact ⟨inst, hsub inst hinst (by simp [hst]), hst, hsw⟩
  ras := fun hne => by
    obtain ⟨inst, hinst, hst, hi⟩ := h.ras hne
    exact ⟨inst, hsub inst hinst (by simp [hst]), hst, hi⟩
  btb := fun hne => by
    obtain ⟨inst, hinst, hst, hi⟩ := h.btb hne
    exact ⟨inst, hsub inst hinst (by simp [hst]), hst, hi⟩

/-- A stage that is done changed only what its own instance may change. -/
theorem StageEffect.changedBy {s t : State} {inst inst' : Instance} {w : List Instance}
    (h : StageEffect inst.instr s inst inst' t) (hinst : inst ∈ w) : s.ChangedBy w t where
  regs := fun r hne => by
    by_contra hno
    exact hne (h.reg_eq fun hst hd => hno ⟨inst, hinst, hst, hd⟩)
  dmem := fun k hne => by
    rcases h.dmem with e | ⟨hst, hsw, -, -⟩
    · exact absurd (by rw [e]) hne
    · by_contra hno
      exact hne (h.read_eq fun hk => hno ⟨inst, hinst, hst, hk.symm, hsw⟩)
  ras := fun hne => by
    rcases h.ras with e | ⟨hst, hi, -⟩ | ⟨hst, hi, -⟩
    · exact absurd e hne
    · exact ⟨inst, hinst, hst, .inl hi⟩
    · exact ⟨inst, hinst, hst, .inr hi⟩
  btb := fun hne => by
    rcases h.btb with e | ⟨hst, hi, -⟩
    · exact absurd e hne
    · exact ⟨inst, hinst, hst, hi⟩

/-- A sweep, whether it raises or not, changes the stores only through the instances it visits. -/
theorem sweep_changedBy {w : List Instance} {k : Nat} {s t : State} (hs : s.fault = none)
    (h : sweep w k s = .next t) : s.ChangedBy w t := by
  refine sweep_induct_cases (P := fun left _ u => left ⊆ w ∧ s.ChangedBy w u) ?_ ?_ ?_ ?_ w k s t
    ⟨List.Subset.refl w, .of_eq rfl rfl rfl rfl⟩ hs h
  · exact fun _ _ hP _ => hP.2
  · exact fun _ _ _ _ _ _ hP _ _ _ => hP.2.trans (.of_eq rfl rfl rfl rfl)
  · exact fun _ _ _ _ hP _ _ => hP.2.trans (.of_eq rfl rfl rfl rfl)
  · rintro inst rest k u inst' v next ⟨hleft, hu⟩ - hv -
    obtain ⟨hinst, hrest⟩ := List.cons_subset.1 hleft
    have hvisit : u.ChangedBy w (u.visit inst) := .of_eq rfl rfl rfl rfl
    exact ⟨hrest, ((hu.trans hvisit).trans (hv.changedBy hinst)).trans
      (.of_eq (by simp) (by simp) (by simp) (by simp))⟩

/-- The issue step brings in only an unfetched instance. -/
theorem State.IssuesTo.mem_window {s u : State} (h : s.IssuesTo u) {inst : Instance} (hinst : inst ∈ u.window) :
    inst ∈ s.window ∨ ∃ i, s.at i ∧ inst = Instance.fresh i (wordIndex s.pc) s.nextSeq := by
  rcases h with ⟨rfl, -⟩ | ⟨i, -, hat, rfl⟩
  · exact .inl hinst
  · rcases List.mem_append.1 hinst with hinst | hinst
    · exact .inl hinst
    · exact .inr ⟨i, hat, List.mem_singleton.1 hinst⟩

theorem step_changedBy {s t : State} (h : step s = .next t) : s.ChangedBy s.window t := by
  apply step_elim h
  · exact fun _ => .of_eq rfl rfl rfl rfl
  · exact fun _ _ => .of_eq rfl rfl rfl rfl
  intro _ u hu hissue v hv
  have hbegin : s.ChangedBy u.window u.clearHazards := by
    rcases hissue with ⟨rfl, -⟩ | ⟨i, -, -, rfl⟩ <;> exact .of_eq rfl rfl rfl rfl
  have hswept : u.clearHazards.ChangedBy u.window v := sweep_changedBy (s := u.clearHazards) hu hv
  have hsv : s.ChangedBy s.window v := by
    refine (hbegin.trans hswept).mono fun inst hinst hst => ?_
    rcases hissue.mem_window hinst with hold | ⟨i, -, rfl⟩
    · exact hold
    · exact absurd rfl hst
  exact ⟨fun _ => hsv, fun _ => hsv.trans (.of_eq (by simp) (by simp) (by simp) (by simp))⟩

/-- Settles O49: the four clauses are those of `State.ChangedBy`. -/
theorem stepChangesOnlyThroughItsInstances : Obligations.StepChangesOnlyThroughItsInstances := by
  unfold Obligations.StepChangesOnlyThroughItsInstances
  intro s t h
  have hchanged := step_changedBy h
  exact ⟨hchanged.regs, hchanged.dmem, hchanged.ras, hchanged.btb⟩

end Sys2Proof.Machine

/-! PROOFS. Register indices above 31 (R24, R115, R247): whatever comes from a word has its indices in the file, so that
no port is given another; a record that presents one takes the fault. -/

namespace Sys2Proof.Machine

/-! ## The operand registers of an instruction -/

/-- The registers an instruction acquires, in the order in which it does (R112, R119). -/
def sourcesOf : Instr → List Nat
  | .add _ rs rt | .xor _ rs rt | .slt _ rs rt | .ble rs rt _ | .sw rt rs _ => [rs, rt]
  | .jr rs | .addi _ rs _ | .lw _ rs _ => [rs]
  | .nop | .j _ | .jal _ | .call _ | .ret => []

theorem sourcesOf_lt {i : Instr} (h : i.wellFormed = true) : ∀ r ∈ sourcesOf i, r < 32 := by
  cases i <;> simp_all [Instr.wellFormed, sourcesOf, regFits]

theorem destOf_lt {i : Instr} {d : Nat} (h : i.wellFormed = true) (hd : destOf i = some d) : d < 32 := by
  cases i
  case jal => cases hd; decide
  all_goals cases hd
  all_goals simp_all [Instr.wellFormed, regFits]

/-! ## The stages that raise `RegIndexOutOfRange` -/

theorem withReg_raise {s : State} {inst : Instance} {r : Nat} {k : Word → StageResult} {f : Fault}
    (hk : ∀ a, k a ≠ .raise f) (h : withReg s inst r k = .raise f) : 32 ≤ r ∧ f = .regIndexOutOfRange r := by
  rcases withReg_cases s inst r k with ⟨a, -, e⟩ | ⟨-, e⟩ | ⟨c, hc, e⟩ <;> rw [e] at h
  · exact absurd h (hk a)
  · cases h
  · obtain ⟨hr, rfl⟩ := acquire_raise hc
    cases h
    exact ⟨hr, rfl⟩

theorem withRegs_raise {s : State} {inst : Instance} {r q : Nat} {k : Word → Word → StageResult} {f : Fault}
    (hk : ∀ a b, k a b ≠ .raise f) (h : withRegs s inst r q k = .raise f) :
    ∃ x ∈ [r, q], 32 ≤ x ∧ f = .regIndexOutOfRange x := by
  rcases withRegs_cases s inst r q k with ⟨a, b, -, -, e⟩ | ⟨-, e⟩ | ⟨c, hc, e⟩ <;> rw [e] at h
  · exact absurd h (hk a b)
  · cases h
  · rcases hc with hc | hc
    · obtain ⟨hr, rfl⟩ := acquire_raise hc
      cases h
      exact ⟨r, by simp, hr, rfl⟩
    · obtain ⟨hq, rfl⟩ := acquire_raise hc
      cases h
      exact ⟨q, by simp, hq, rfl⟩

/-- An execute stage raises for a source register outside the file and for nothing else. -/
theorem executeOf_raise {i : Instr} {s : State} {inst : Instance} {f : Fault} (h : executeOf i s inst = .raise f) :
    ∃ x ∈ sourcesOf i, 32 ≤ x ∧ f = .regIndexOutOfRange x := by
  cases i
  case addi => exact ⟨_, List.mem_singleton_self _, withReg_raise (by simp [aluResult]) h⟩
  case lw => exact ⟨_, List.mem_singleton_self _, withReg_raise (by simp) h⟩
  case add => exact withRegs_raise (by simp [aluResult]) h
  case xor => exact withRegs_raise (by simp [aluResult]) h
  case slt => exact withRegs_raise (by simp [aluResult]) h
  case sw => exact withRegs_raise (by simp) h
  case ble => exact withRegs_raise (by simp) h
  all_goals cases h

/-- Of the decode stages only that of `jr` raises for a register. -/
theorem decodeOf_raise_index {i : Instr} {s : State} {inst : Instance} {x : Nat}
    (h : decodeOf i s inst = .raise (.regIndexOutOfRange x)) : x ∈ sourcesOf i ∧ 32 ≤ x := by
  cases i <;> simp only [decodeOf] at h
  case jr =>
    obtain ⟨hr, e⟩ := withReg_raise (by simp) h
    cases e
    exact ⟨List.mem_singleton_self _, hr⟩
  case call =>
    simp only [callDecode] at h
    split at h
    · cases h
    · rename_i c hc
      obtain ⟨-, rfl⟩ := rasPush_error hc
      cases h
  case ret =>
    simp only [retDecode] at h
    split at h
    · cases h
    · rename_i c hc
      obtain ⟨-, rfl⟩ := rasPop_error hc
      cases h
  case ble =>
    simp only [bleDecode] at h
    split at h
    · split at h <;> cases h
    · cases h
  all_goals cases h

theorem memoryOf_ne_raise_index (i : Instr) (s : State) (inst : Instance) (x : Nat) :
    memoryOf i s inst ≠ .raise (.regIndexOutOfRange x) := by
  intro h
  cases i <;> simp only [memoryOf] at h
  case lw =>
    simp only [lwMemory] at h
    split at h
    · cases h
    · rename_i c hc
      obtain ⟨-, rfl⟩ := memRead_error hc
      cases h
  case sw =>
    simp only [swMemory] at h
    split at h
    · cases h
    · rename_i c hc
      obtain ⟨-, rfl⟩ := memWrite_error hc
      cases h
  all_goals cases h

theorem writebackOf_raise_index {i : Instr} {s : State} {inst : Instance} {x : Nat}
    (h : writebackOf i s inst = .raise (.regIndexOutOfRange x)) : inst.dest = some x ∧ 32 ≤ x := by
  cases hd : inst.dest with
  | none =>
    rw [writebackOf_no_dest i s hd] at h
    cases h
  | some d =>
    cases hw : regWrite s d inst.result with
    | ok t =>
      rcases writebackOf_cases i with e | e <;> rw [e] at h
      · rw [writebackStage_ok hd hw] at h
        cases h
      · rw [writebackPublishing_ok hd hw] at h
        cases h
    | error c =>
      rw [writebackOf_error i hd hw] at h
      rcases regWrite_error hw with ⟨-, rfl⟩ | ⟨hge, rfl⟩
      · cases h
      · cases h
        exact ⟨rfl, hge⟩

/-- An index above 31 that a stage presents is one of the instruction's sources or the instance's destination. -/
theorem stage_raise_index {i : Instr} {s : State} {inst : Instance} {fn : StageFn} {x : Nat}
    (hfn : stageFnOf i inst.stage = some fn) (h : fn s inst = .raise (.regIndexOutOfRange x)) :
    32 ≤ x ∧ (x ∈ sourcesOf i ∨ inst.dest = some x) := by
  unfold stageFnOf stageFnAt at hfn
  split at hfn <;> cases hfn
  · cases h
  · obtain ⟨hx, hge⟩ := decodeOf_raise_index h
    exact ⟨hge, .inl hx⟩
  · obtain ⟨y, hy, hge, e⟩ := executeOf_raise h
    cases e
    exact ⟨hge, .inl hy⟩
  · exact absurd h (memoryOf_ne_raise_index i s inst x)
  · obtain ⟨hx, hge⟩ := writebackOf_raise_index h
    exact ⟨hge, .inr hx⟩

/-! ## In flight from words (R24, R115) -/

/-- The instance came from a word: its fields fit, and its destination is unset or its opcode's. -/
def Instance.FromWord (inst : Instance) : Prop :=
  inst.instr.wellFormed = true ∧ (inst.dest = none ∨ inst.dest = destOf inst.instr)

theorem Instance.FromWord.stage_raise {s : State} {inst : Instance} {fn : StageFn} {f : Fault} (h : inst.FromWord)
    (hfn : stageFnOf inst.instr inst.stage = some fn) (hf : fn s inst = .raise f) (x : Nat) :
    f ≠ .regIndexOutOfRange x := by
  rintro rfl
  obtain ⟨hwf, hdest⟩ := h
  obtain ⟨hge, hx | hx⟩ := stage_raise_index hfn hf
  · exact absurd (sourcesOf_lt hwf x hx) (Nat.not_lt.2 hge)
  · rcases hdest with e | e
    · rw [e] at hx
      cases hx
    · exact absurd (destOf_lt hwf (e ▸ hx)) (Nat.not_lt.2 hge)

theorem Instance.FromWord.stage_done {s t : State} {inst inst' : Instance} (h : inst.FromWord)
    (hu : StageEffect inst.instr s inst inst' t) : inst'.FromWord := by
  obtain ⟨hwf, hdest⟩ := h
  obtain ⟨hinstr, -, -, -⟩ := hu.named
  refine ⟨hinstr ▸ hwf, ?_⟩
  rw [hinstr]
  rcases hu.dest with e | ⟨-, e⟩
  · exact e ▸ hdest
  · exact .inr e

theorem Instance.FromWord.fresh {i : Instr} (h : i.wellFormed = true) (index seq : Nat) :
    (Instance.fresh i index seq).FromWord := ⟨h, .inl rfl⟩

/-- The bookkeeping puts the instance back with a new stage counter and perhaps another intent, all else as it was. -/
theorem settle_window (s : State) (k : Nat) (inst : Instance) (next : Stage) :
    ∃ jump, (settle s k inst next).window = s.window.set k { inst with stage := next, jump := jump } := by
  rcases settle_cases s k inst next with ⟨j, -, -, -, e⟩ | ⟨-, e⟩ <;> rw [e] <;> exact ⟨_, rfl⟩

/-- A sweep over instances from words leaves only such, and presents no bad index. -/
theorem sweep_fromWords {w : List Instance} {k : Nat} {s t : State} (hs : s.fault = none)
    (hw : ∀ inst ∈ w, inst.FromWord) (hwindow : s.inFlightFromWords) (h : sweep w k s = .next t) :
    t.inFlightFromWords ∧ ∀ x, t.fault ≠ some (.regIndexOutOfRange x) := by
  refine sweep_induct_cases (P := fun left _ u => (∀ inst ∈ left, inst.FromWord) ∧ u.inFlightFromWords)
    (Q := fun t => t.inFlightFromWords ∧ ∀ x, t.fault ≠ some (.regIndexOutOfRange x)) ?_ ?_ ?_ ?_ w k s t
    ⟨hw, hwindow⟩ hs h
  · exact fun _ u hP hu => ⟨hP.2, by simp [hu]⟩
  · rintro inst rest _ u fn f ⟨hleft, hu⟩ - hfn hf
    have hinst : inst.FromWord := hleft inst List.mem_cons_self
    exact ⟨hu, fun x e => hinst.stage_raise hfn hf x (Option.some.inj e)⟩
  · exact fun _ _ _ u hP hu _ => ⟨hP.2, by simp [hu]⟩
  · rintro inst rest k u inst' v next ⟨hleft, hu⟩ - hv -
    obtain ⟨hinst, hrest⟩ := List.forall_mem_cons.1 hleft
    refine ⟨hrest, fun a ha => ?_⟩
    obtain ⟨jump, e⟩ := settle_window (v.visit inst') k inst' next
    rw [e] at ha
    rcases List.mem_or_eq_of_mem_set ha with ha | rfl
    · rw [State.visit_window, hv.window_eq] at ha
      exact hu a ha
    · have hdone : inst'.FromWord := hinst.stage_done hv
      exact hdone

/-- What is issued from a program of words came from a word (R82, R99). -/
theorem State.at_wellFormed {s : State} {i : Instr} (hwords : s.programOfWords) (hat : s.at i) :
    i.wellFormed = true := by
  obtain ⟨slot, hslot, hi⟩ := hat
  obtain ⟨w, rfl⟩ := hwords slot (List.mem_of_getElem? hslot)
  exact (encodeInvertsDecode w i hi).1

theorem step_fromWords {s t : State} (hwords : s.programOfWords) (hflight : s.inFlightFromWords)
    (h : step s = .next t) : t.inFlightFromWords ∧ ∀ x, t.fault ≠ some (.regIndexOutOfRange x) := by
  apply step_elim h
  · exact fun _ => ⟨hflight, by simp [(step_next h).1]⟩
  · exact fun _ _ => ⟨hflight, by simp⟩
  intro _ u hu hissue v hv
  have huflight : ∀ inst ∈ u.window, inst.FromWord := by
    intro inst hinst
    rcases hissue.mem_window hinst with hold | ⟨i, hat, rfl⟩
    · exact hflight inst hold
    · exact .fresh (State.at_wellFormed hwords hat) _ _
  obtain ⟨hvflight, hvfault⟩ := sweep_fromWords (s := u.clearHazards) hu huflight huflight hv
  exact ⟨fun _ => ⟨hvflight, hvfault⟩, fun _ => ⟨fun inst hinst => hvflight inst (v.finish_window_sublist.subset hinst),
    fun x => (State.finish_fault v).symm ▸ hvfault x⟩⟩

/-! ## Records with an index above 31 (R247; log entry 8) -/

theorem acquire_of_ge {s : State} {r : Nat} (h : r ∉ s.wires.awaiting) (hr : 32 ≤ r) :
    acquire s r = .raise (.regIndexOutOfRange r) := by
  rw [acquire, if_neg h, regRead_of_ge s hr]

theorem acquire_ne_raise_of_lt {s : State} {r : Nat} (hr : r < 32) (c : Cause) : acquire s r ≠ .raise c :=
  fun h => absurd (acquire_raise h).1 (Nat.not_le.2 hr)

theorem withReg_of_raise {s : State} {inst : Instance} {r : Nat} {c : Cause} (k : Word → StageResult)
    (h : acquire s r = .raise c) : withReg s inst r k = .raise (c.toFault inst) := by
  rw [withReg, h]

theorem withRegs_of_raise_first {s : State} {inst : Instance} {r : Nat} {c : Cause} (q : Nat)
    (k : Word → Word → StageResult) (h : acquire s r = .raise c) :
    withRegs s inst r q k = .raise (c.toFault inst) := by
  rw [withRegs, h]

theorem withRegs_of_raise_second {s : State} {inst : Instance} {r q : Nat} {c : Cause}
    (k : Word → Word → StageResult) (hr : r < 32) (h : acquire s q = .raise c) :
    withRegs s inst r q k = .raise (c.toFault inst) := by
  rw [withRegs, h]
  cases hacq : acquire s r with
  | ready a => rfl
  | notReady => rfl
  | raise c' => exact absurd hacq (acquire_ne_raise_of_lt hr c')

/-- The execute stage of a record whose first register is above 31 and not awaiting. -/
theorem executeOf_of_bad_first (rd rt : Nat) (imm : Word) {rs : Nat} {s : State} {inst : Instance} (hrs : 32 ≤ rs)
    (hwait : rs ∉ s.wires.awaiting) :
    ∀ i ∈ [Instr.addi rt rs imm, .lw rt rs imm, .add rd rs rt, .xor rd rs rt, .slt rd rs rt, .sw rt rs imm,
      .ble rs rt imm], executeOf i s inst = .raise (.regIndexOutOfRange rs) := by
  have hacq := acquire_of_ge hwait hrs
  simp only [List.forall_mem_cons, List.not_mem_nil, IsEmpty.forall_iff, implies_true, and_true]
  exact ⟨withReg_of_raise _ hacq, withReg_of_raise _ hacq, withRegs_of_raise_first _ _ hacq,
    withRegs_of_raise_first _ _ hacq, withRegs_of_raise_first _ _ hacq, withRegs_of_raise_first _ _ hacq,
    withRegs_of_raise_first _ _ hacq⟩

/-- The execute stage of a record whose second register is the first that is above 31. -/
theorem executeOf_of_bad_second (rd : Nat) (imm : Word) {rs rt : Nat} {s : State} {inst : Instance} (hrs : rs < 32)
    (hrt : 32 ≤ rt) (hwait : rt ∉ s.wires.awaiting) :
    ∀ i ∈ [Instr.add rd rs rt, .xor rd rs rt, .slt rd rs rt, .sw rt rs imm, .ble rs rt imm],
      executeOf i s inst = .raise (.regIndexOutOfRange rt) := by
  have hacq := acquire_of_ge hwait hrt
  simp only [List.forall_mem_cons, List.not_mem_nil, IsEmpty.forall_iff, implies_true, and_true]
  exact ⟨withRegs_of_raise_second _ hrs hacq, withRegs_of_raise_second _ hrs hacq,
    withRegs_of_raise_second _ hrs hacq, withRegs_of_raise_second _ hrs hacq, withRegs_of_raise_second _ hrs hacq⟩

/-- Settles O44: from words by the invariant of the sweep (the program stays by O11), from records by what `Acquire`
answers for the index. -/
theorem wordsNeverPresentABadRegister : Obligations.WordsNeverPresentABadRegister := by
  unfold Obligations.WordsNeverPresentABadRegister
  refine ⟨fun s t hwords hflight h => ⟨?_, step_fromWords hwords hflight h⟩, fun rd rs rt imm s inst =>
    ⟨fun hv hrs hwait => ?_, fun hv hrs hwait i hi => ?_, fun hv hrs hrt hwait i hi => ?_⟩⟩
  · rw [State.programOfWords, (step_program h).1]
    exact hwords
  · have hraise : decodeOf (.jr rs) s inst = .raise (.regIndexOutOfRange rs) :=
      withReg_of_raise _ (acquire_of_ge hwait hrs)
    rw [exec_of_visits hv (f := decodeOf (.jr rs)) rfl, hraise, State.land_raise]
    rfl
  · rw [exec_of_visits hv (f := executeOf i) rfl, executeOf_of_bad_first rd rt imm hrs hwait i hi, State.land_raise]
    rfl
  · rw [exec_of_visits hv (f := executeOf i) rfl, executeOf_of_bad_second rd imm hrs hrt hwait i hi, State.land_raise]
    rfl

end Sys2Proof.Machine

/-! PROOFS. Data memory as a primitive (R61, R71, R72) and as `lw` and `sw` use it (R141, R142, R248), and what reset
alone does (R70, R230, R257, R270). -/

namespace Sys2Proof.Machine

/-! ## The ports of data memory (R61, R71, R72) -/

theorem memRead_of_lt {s : State} {a : Word} (h : a.toNat / 4 < s.params.dmemWords) :
    memRead s a = .ok (s.dmem.read (a.toNat / 4)) := if_pos h

theorem memRead_of_ge {s : State} {a : Word} (h : s.params.dmemWords ≤ a.toNat / 4) :
    memRead s a = .error (.memIndexOutOfRange a) := if_neg (Nat.not_lt.2 h)

theorem memWrite_of_lt {s : State} {a : Word} (v : Word) (h : a.toNat / 4 < s.params.dmemWords) :
    memWrite s a v = .ok { s with dmem := s.dmem.write (a.toNat / 4) v } := if_pos h

theorem memWrite_of_ge {s : State} {a : Word} (v : Word) (h : s.params.dmemWords ≤ a.toNat / 4) :
    memWrite s a v = .error (.memIndexOutOfRange a) := if_neg (Nat.not_lt.2 h)

/-- What each word reads as after a write: the laws of the written word and of every other one together. -/
theorem Memory.read_write {m : Memory} (k j : Nat) (v : Word) (h : Memory.wf m = true) :
    (m.write k v).read j = if j = k then v else m.read j := by
  split
  next hjk => rw [hjk, Memory.read_write_same m k v h]
  next hjk => exact Memory.read_write_other m k j v hjk

/-- Settles O15: the port writes by `Memory.write`, which keeps the canonical form, and `Memory.read_write` says what
each word of the result reads as; outside data memory both ports raise. -/
theorem storeThenLoad : Obligations.StoreThenLoad := by
  unfold Obligations.StoreThenLoad
  refine ⟨fun s a b v hwf ha hb => ⟨_, memWrite_of_lt v ha, Memory.write_wf _ _ _ hwf, rfl, ?_⟩,
    fun s a v ha => ⟨memRead_of_ge ha, memWrite_of_ge v ha⟩⟩
  have hread : memRead { s with dmem := s.dmem.write (a.toNat / 4) v } b =
      .ok ((s.dmem.write (a.toNat / 4) v).read (b.toNat / 4)) := memRead_of_lt hb
  rw [hread, memRead_of_lt hb, Memory.read_write _ _ _ hwf, apply_ite Except.ok]

/-- Settles O14: both addresses are inside data memory, where the ports use the quotient alone. -/
theorem lowAddressBitsAreDropped : Obligations.LowAddressBitsAreDropped := by
  unfold Obligations.LowAddressBitsAreDropped
  intro s a b v hab ha
  have hb : b.toNat / 4 < s.params.dmemWords := hab ▸ ha
  refine ⟨memRead_of_lt ha, ?_, memWrite_of_lt v ha, ?_⟩
  · rw [memRead_of_lt ha, memRead_of_lt hb, hab]
  · rw [memWrite_of_lt v ha, memWrite_of_lt v hb, hab]

/-! ## The memory stages of `lw` and `sw` (R141, R142, R248) -/

theorem lwMemory_of_lt {s : State} {inst : Instance} (h : inst.addr.toNat / 4 < s.params.dmemWords) :
    lwMemory s inst = .done { inst with result := s.dmem.read (inst.addr.toNat / 4) } s := by
  rw [lwMemory, memRead_of_lt h]

theorem lwMemory_of_ge {s : State} {inst : Instance} (h : s.params.dmemWords ≤ inst.addr.toNat / 4) :
    lwMemory s inst = .raise (.memIndexOutOfRange inst.addr inst.seq inst.index) := by
  simp only [lwMemory, memRead_of_ge h, Cause.toFault]

theorem swMemory_of_lt {s : State} {inst : Instance} (h : inst.addr.toNat / 4 < s.params.dmemWords) :
    swMemory s inst = .done inst { s with dmem := s.dmem.write (inst.addr.toNat / 4) inst.sdata } := by
  rw [swMemory, memWrite_of_lt _ h]

theorem swMemory_of_ge {s : State} {inst : Instance} (h : s.params.dmemWords ≤ inst.addr.toNat / 4) :
    swMemory s inst = .raise (.memIndexOutOfRange inst.addr inst.seq inst.index) := by
  simp only [swMemory, memWrite_of_ge _ h, Cause.toFault]

/-- Settles O27: the step lands what the memory stage answers for the latched address, and the written memory reads as
`Memory.read_write` says. -/
theorem loadAndStoreAccessTheWord : Obligations.LoadAndStoreAccessTheWord := by
  unfold Obligations.LoadAndStoreAccessTheWord
  intro rt rs imm s inst hv
  have hlw : exec (.lw rt rs imm) s = .next (s.land (lwMemory s inst)) := exec_of_visits hv rfl
  have hsw : exec (.sw rt rs imm) s = .next (s.land (swMemory s inst)) := exec_of_visits hv rfl
  rw [hlw, hsw]
  refine ⟨fun hin => ⟨?_, s.dmem.write (inst.addr.toNat / 4) inst.sdata, ?_,
    fun hwf k => Memory.read_write _ k _ hwf⟩, fun hout => ⟨?_, ?_⟩⟩
  · rw [lwMemory_of_lt hin, State.land_done]
  · rw [swMemory_of_lt hin, State.land_done]
  · rw [lwMemory_of_ge hout, State.land_raise, State.raise]
  · rw [swMemory_of_ge hout, State.land_raise, State.raise]

/-! ## Reset, load and a fault that stays (R70, R230, R257, R270; log entry 14) -/

theorem beforeFirstCycle_iff (s : State) :
    beforeFirstCycle s = true ↔ s.cycle = 0 ∧ s.nextSeq = 0 ∧ s.fault = none := by
  simp [beforeFirstCycle, and_assoc]

theorem beforeFirstCycle_hostReset (s : State) : beforeFirstCycle (hostReset s) = true := rfl

theorem loadSlots_of_started {s : State} (imem : List Slot) (h : beforeFirstCycle s = false) :
    loadSlots s imem = .refused .loadAfterStart := by
  simp [loadSlots, h]

theorem loadSlots_of_not_started {s : State} {imem : List Slot} (h : beforeFirstCycle s = true)
    (hlen : imem.length ≤ 2 ^ 30) : loadSlots s imem = .done { s with imem := imem } := by
  rw [loadSlots, h, if_neg (by decide), if_neg (Nat.not_lt.2 hlen)]

theorem loadProgram_of_loaded {s : State} (imem : List Slot) (h : beforeFirstCycle s = true) (hloaded : s.imem ≠ []) :
    loadProgram s imem = .refused .reloadWithoutReset := by
  simp [loadProgram, h, hloaded]

/-- Where it is no reload before the first cycle, a load of a whole program is a load of its slots. -/
theorem loadProgram_eq_loadSlots {s : State} (imem : List Slot) (h : beforeFirstCycle s = false ∨ s.imem = []) :
    loadProgram s imem = loadSlots s imem := by
  rcases h with h | h <;> simp [loadProgram, h]

theorem runSteps_of_fault {s : State} {f : Fault} (hf : s.fault = some f) (n : Nat) :
    runSteps (n + 1) s = .fault f := by
  rw [runSteps, step_of_fault hf]

/-- Settles O60: what the load answers turns on `beforeFirstCycle`, which holds again after reset, and a step from a
faulted state answers the fault. -/
theorem onlyResetReloadsOrClearsAFault : Obligations.OnlyResetReloadsOrClearsAFault := by
  unfold Obligations.OnlyResetReloadsOrClearsAFault
  intro s imem
  refine ⟨rfl, rfl, fun hstarted => ?_, fun hcycle hseq hfault hloaded => ?_, fun hlen => ?_,
    fun f hf n => runSteps_of_fault hf n⟩
  · have hbefore : beforeFirstCycle s = false := by
      rw [← Bool.not_eq_true, beforeFirstCycle_iff]
      rintro ⟨hcycle, -, hfault⟩
      exact hstarted.elim (fun h => absurd hcycle h.ne') (fun h => h hfault)
    rw [loadProgram_eq_loadSlots imem (.inl hbefore)]
    exact ⟨loadSlots_of_started imem hbefore, loadSlots_of_started imem hbefore⟩
  · exact loadProgram_of_loaded imem ((beforeFirstCycle_iff s).2 ⟨hcycle, hseq, hfault⟩) hloaded
  · rw [loadProgram_eq_loadSlots imem (.inr rfl), loadSlots_of_not_started (beforeFirstCycle_hostReset s) hlen]

end Sys2Proof.Machine

/-! PROOFS. The decoder read row by row (R91), the fields that `Encode` writes (R83 to R85, R99), and from the two that
decoding inverts encoding; the match and mask of every row (R91 to R93). -/

namespace Sys2Proof

open Sys2Proof.Laws

/-! ## The rows of the opcode map (R91) -/

theorem ne_zero_of_bits {w : Word} {lo len : Nat} (h : bits w lo len ≠ 0) : w ≠ 0#32 := by
  rintro rfl
  simp [bits] at h

theorem decodeWord_add {w : Word} (hop : bits w 26 6 = 0) (hshamt : bits w 6 5 = 0) (hfunct : bits w 0 6 = 0x20) :
    decodeWord w = .legal (.add (bits w 11 5) (bits w 21 5) (bits w 16 5)) := by
  have hw : w ≠ 0#32 := ne_zero_of_bits (by rw [hfunct]; decide)
  simp [decodeWord, hop, decodeSpecial, hw, hshamt, hfunct]

theorem decodeWord_xor {w : Word} (hop : bits w 26 6 = 0) (hshamt : bits w 6 5 = 0) (hfunct : bits w 0 6 = 0x26) :
    decodeWord w = .legal (.xor (bits w 11 5) (bits w 21 5) (bits w 16 5)) := by
  have hw : w ≠ 0#32 := ne_zero_of_bits (by rw [hfunct]; decide)
  simp [decodeWord, hop, decodeSpecial, hw, hshamt, hfunct]

theorem decodeWord_slt {w : Word} (hop : bits w 26 6 = 0) (hshamt : bits w 6 5 = 0) (hfunct : bits w 0 6 = 0x2A) :
    decodeWord w = .legal (.slt (bits w 11 5) (bits w 21 5) (bits w 16 5)) := by
  have hw : w ≠ 0#32 := ne_zero_of_bits (by rw [hfunct]; decide)
  simp [decodeWord, hop, decodeSpecial, hw, hshamt, hfunct]

/-- `rt`, `rd` and `shamt` are the 15 bits between `rs` and `funct`. -/
theorem decodeWord_jr {w : Word} (hop : bits w 26 6 = 0) (hunused : bits w 6 15 = 0) (hfunct : bits w 0 6 = 0x08) :
    decodeWord w = .legal (.jr (bits w 21 5)) := by
  have hw : w ≠ 0#32 := ne_zero_of_bits (by rw [hfunct]; decide)
  have hparts : bits w 6 5 = 0 ∧ bits w 11 10 = 0 := by
    simp only [bits] at *
    omega
  simp [decodeWord, hop, decodeSpecial, hw, hparts, hfunct]

theorem decodeWord_j {w : Word} (hop : bits w 26 6 = 0x02) :
    decodeWord w = .legal (.j (jumpTarget (bits w 0 26))) := by
  simp [decodeWord, hop]

theorem decodeWord_jal {w : Word} (hop : bits w 26 6 = 0x03) :
    decodeWord w = .legal (.jal (jumpTarget (bits w 0 26))) := by
  simp [decodeWord, hop]

theorem decodeWord_call {w : Word} (hop : bits w 26 6 = 0x3E) :
    decodeWord w = .legal (.call (jumpTarget (bits w 0 26))) := by
  simp [decodeWord, hop]

theorem decodeWord_ble {w : Word} (hop : bits w 26 6 = 0x06) :
    decodeWord w = .legal (.ble (bits w 21 5) (bits w 16 5) (sext16 (bits w 0 16))) := by
  simp [decodeWord, hop]

theorem decodeWord_addi {w : Word} (hop : bits w 26 6 = 0x08) :
    decodeWord w = .legal (.addi (bits w 16 5) (bits w 21 5) (sext16 (bits w 0 16))) := by
  simp [decodeWord, hop]

theorem decodeWord_lw {w : Word} (hop : bits w 26 6 = 0x23) :
    decodeWord w = .legal (.lw (bits w 16 5) (bits w 21 5) (sext16 (bits w 0 16))) := by
  simp [decodeWord, hop]

theorem decodeWord_sw {w : Word} (hop : bits w 26 6 = 0x2B) :
    decodeWord w = .legal (.sw (bits w 16 5) (bits w 21 5) (sext16 (bits w 0 16))) := by
  simp [decodeWord, hop]

/-! ## Fields that fit are read back (R41, R87, R88, R97) -/

theorem sext16_bits {imm : Word} (h : immFits imm = true) : sext16 (bits imm 0 16) = imm := by
  have hlow : BitVec.ofNat 16 (bits imm 0 16) = imm.setWidth 16 := by
    apply BitVec.eq_of_toNat_eq
    simp [bits]
  rw [sext16, hlow]
  exact of_decide_eq_true h

theorem jumpTarget_bits {target : Word} (h : targetFits target = true) : jumpTarget (bits target 2 26) = target := by
  rw [targetFits, Bool.and_eq_true, decide_eq_true_iff, decide_eq_true_iff] at h
  obtain ⟨hlt, hmod⟩ := h
  apply BitVec.eq_of_toNat_eq
  rw [toNat_jumpTarget (bits_lt target 2 26), bits]
  omega

/-! ## Each format through the decoder (R83, R84, R85, R99) -/

theorem encodeR_operands {rs rt rd funct : Nat} (hrs : rs < 32) (hrt : rt < 32) (hrd : rd < 32) (hfunct : funct < 64) :
    bits (encodeR rs rt rd funct) 21 5 = rs ∧ bits (encodeR rs rt rd funct) 16 5 = rt ∧
    bits (encodeR rs rt rd funct) 11 5 = rd := by
  simp only [encodeR, FixedFields.bits_ofNat]
  omega

theorem encodeI_operands (opcode : Nat) {rs rt : Nat} (imm : Word) (hrs : rs < 32) (hrt : rt < 32) :
    bits (encodeI opcode rs rt imm) 21 5 = rs ∧ bits (encodeI opcode rs rt imm) 16 5 = rt ∧
    bits (encodeI opcode rs rt imm) 0 16 = bits imm 0 16 := by
  have himm := bits_lt imm 0 16
  simp only [encodeI, FixedFields.bits_ofNat]
  omega

theorem encodeJ_operand (opcode : Nat) (target : Word) :
    bits (encodeJ opcode target) 0 26 = bits target 2 26 := by
  have htarget := bits_lt target 2 26
  simp only [encodeJ, FixedFields.bits_ofNat]
  omega

/-- A row of the R format, whose instruction the decoder makes by `mk` from `rd`, `rs` and `rt`. -/
theorem decodeWord_encodeR {mk : Nat → Nat → Nat → Instr} {funct rd rs rt : Nat} (hfunct : funct < 64)
    (hrow : ∀ {w : Word}, bits w 26 6 = 0 → bits w 6 5 = 0 → bits w 0 6 = funct →
      decodeWord w = .legal (mk (bits w 11 5) (bits w 21 5) (bits w 16 5)))
    (hfits : (regFits rd && regFits rs && regFits rt) = true) :
    decodeWord (encodeR rs rt rd funct) = .legal (mk rd rs rt) := by
  simp only [regFits, Bool.and_eq_true, decide_eq_true_iff] at hfits
  obtain ⟨⟨hrd, hrs⟩, hrt⟩ := hfits
  obtain ⟨hop, hshamt, hsel⟩ := FixedFields.encodeR_fields rs rt rd funct hfunct
  obtain ⟨ers, ert, erd⟩ := encodeR_operands hrs hrt hrd hfunct
  rw [hrow hop hshamt hsel, ers, ert, erd]

/-- A row of the I format, whose instruction the decoder makes by `mk` from `rs`, `rt` and the immediate. -/
theorem decodeWord_encodeI {mk : Nat → Nat → Word → Instr} {opcode rs rt : Nat} {imm : Word} (hopcode : opcode < 64)
    (hrow : ∀ {w : Word}, bits w 26 6 = opcode →
      decodeWord w = .legal (mk (bits w 21 5) (bits w 16 5) (sext16 (bits w 0 16))))
    (hrs : regFits rs = true) (hrt : regFits rt = true) (himm : immFits imm = true) :
    decodeWord (encodeI opcode rs rt imm) = .legal (mk rs rt imm) := by
  obtain ⟨ers, ert, eimm⟩ := encodeI_operands opcode imm (of_decide_eq_true hrs) (of_decide_eq_true hrt)
  rw [hrow (FixedFields.encodeI_opcode opcode rs rt imm hopcode), ers, ert, eimm, sext16_bits himm]

/-- A row of the J format, whose instruction the decoder makes by `mk` from the target. -/
theorem decodeWord_encodeJ {mk : Word → Instr} {opcode : Nat} {target : Word} (hopcode : opcode < 64)
    (hrow : ∀ {w : Word}, bits w 26 6 = opcode → decodeWord w = .legal (mk (jumpTarget (bits w 0 26))))
    (hfits : targetFits target = true) :
    decodeWord (encodeJ opcode target) = .legal (mk target) := by
  rw [hrow (FixedFields.encodeJ_opcode opcode target hopcode), encodeJ_operand opcode target, jumpTarget_bits hfits]

/-- Settles O1, instruction by instruction: its row of the decoder at its format. -/
theorem decodeInvertsEncode : Obligations.DecodeInvertsEncode := by
  unfold Obligations.DecodeInvertsEncode
  intro i hwf
  cases i <;> simp only [Instr.wellFormed, Bool.and_eq_true] at hwf
  case nop | ret => decide
  case add => exact decodeWord_encodeR (mk := .add) (by decide) decodeWord_add (by simpa using hwf)
  case xor => exact decodeWord_encodeR (mk := .xor) (by decide) decodeWord_xor (by simpa using hwf)
  case slt => exact decodeWord_encodeR (mk := .slt) (by decide) decodeWord_slt (by simpa using hwf)
  case jr rs =>
    obtain ⟨hop, hunused, hfunct⟩ : bits (encode (.jr rs)) 26 6 = 0 ∧ bits (encode (.jr rs)) 6 15 = 0 ∧
        bits (encode (.jr rs)) 0 6 = 0x08 := by simpa [FixedFields.Statement, fixedFields] using FixedFields.jr rs
    obtain ⟨ers, -, -⟩ := encodeR_operands (rt := 0) (rd := 0) (funct := 0x08) (of_decide_eq_true hwf) (by decide)
      (by decide) (by decide)
    rw [decodeWord_jr hop hunused hfunct, encode, ers]
  case j => exact decodeWord_encodeJ (mk := .j) (by decide) decodeWord_j hwf
  case jal => exact decodeWord_encodeJ (mk := .jal) (by decide) decodeWord_jal hwf
  case call => exact decodeWord_encodeJ (mk := .call) (by decide) decodeWord_call hwf
  case ble =>
    obtain ⟨⟨hrs, hrt⟩, himm⟩ := hwf
    exact decodeWord_encodeI (mk := .ble) (by decide) decodeWord_ble hrs hrt himm
  case addi =>
    obtain ⟨⟨hrt, hrs⟩, himm⟩ := hwf
    exact decodeWord_encodeI (mk := fun rs rt => .addi rt rs) (by decide) decodeWord_addi hrs hrt himm
  case lw =>
    obtain ⟨⟨hrt, hrs⟩, himm⟩ := hwf
    exact decodeWord_encodeI (mk := fun rs rt => .lw rt rs) (by decide) decodeWord_lw hrs hrt himm
  case sw =>
    obtain ⟨⟨hrt, hrs⟩, himm⟩ := hwf
    exact decodeWord_encodeI (mk := fun rs rt => .sw rt rs) (by decide) decodeWord_sw hrs hrt himm

/-! ## Match and mask (R91) -/

/-- The mask of a row of the opcode map: the opcode and the low `k` bits. Every row's mask has this form. -/
def rowMask (k : Nat) : Word := BitVec.ofNat 32 (63 * 2 ^ 26 + (2 ^ k - 1))

/-- What is left of a word under a row's mask. -/
theorem toNat_and_rowMask (w : Word) {k : Nat} (hk : k ≤ 26) :
    (w &&& rowMask k).toNat = bits w 26 6 * 2 ^ 26 + bits w 0 k := by
  have hpow : 2 ^ k ≤ 2 ^ 26 := Nat.pow_le_pow_right (by decide) hk
  have hpos : 0 < 2 ^ k := Nat.two_pow_pos k
  have hmask : (rowMask k).toNat = 63 * 2 ^ 26 + (2 ^ k - 1) := by
    rw [rowMask, BitVec.toNat_ofNat]
    omega
  have hhigh : (w.toNat &&& (rowMask k).toNat) / 2 ^ 26 = bits w 26 6 := by
    have hdiv : (rowMask k).toNat / 2 ^ 26 = 2 ^ 6 - 1 := by omega
    rw [Nat.and_div_two_pow, hdiv, Nat.and_two_pow_sub_one_eq_mod, bits]
  have hlow : (w.toNat &&& (rowMask k).toNat) % 2 ^ 26 = bits w 0 k := by
    have hmod : (rowMask k).toNat % 2 ^ 26 = 2 ^ k - 1 := by omega
    rw [Nat.and_mod_two_pow, hmod, Nat.and_two_pow_sub_one_eq_mod, Nat.mod_mod_of_dvd _ (pow_dvd_pow 2 hk), bits,
      pow_zero, Nat.div_one]
  rw [BitVec.toNat_and, ← hhigh, ← hlow, Nat.div_add_mod']

/-- A word matches a row when it has the row's opcode and its low bits. -/
theorem and_rowMask_iff (w : Word) {k op low : Nat} (hk : k ≤ 26) (hop : op < 64) (hlow : low < 2 ^ k) :
    w &&& rowMask k = BitVec.ofNat 32 (op * 2 ^ 26 + low) ↔ bits w 26 6 = op ∧ bits w 0 k = low := by
  have hpow : 2 ^ k ≤ 2 ^ 26 := Nat.pow_le_pow_right (by decide) hk
  have hlt : bits w 0 k < 2 ^ k := bits_lt w 0 k
  rw [← BitVec.toNat_inj, toNat_and_rowMask w hk, BitVec.toNat_ofNat]
  omega

/-- A row that fixes the opcode alone. -/
theorem and_opcodeMask_iff (w : Word) {op : Nat} (hop : op < 64) :
    w &&& 0xFC000000 = BitVec.ofNat 32 (op * 2 ^ 26) ↔ bits w 26 6 = op := by
  have h := and_rowMask_iff w (k := 0) (low := 0) (by decide) hop (by decide)
  have hmask : rowMask 0 = 0xFC000000 := by decide
  rwa [hmask, Nat.add_zero, and_iff_left (show bits w 0 0 = 0 by rw [bits, pow_zero, Nat.mod_one])] at h

/-- A row of opcode 0 that fixes `shamt` and `funct`. -/
theorem and_functMask_iff (w : Word) {funct : Nat} (hfunct : funct < 64) :
    w &&& 0xFC0007FF = BitVec.ofNat 32 funct ↔ bits w 26 6 = 0 ∧ bits w 6 5 = 0 ∧ bits w 0 6 = funct := by
  have h := and_rowMask_iff w (k := 11) (op := 0) (low := funct) (by decide) (by decide) (by omega)
  have hmask : rowMask 11 = 0xFC0007FF := by decide
  rw [hmask, Nat.zero_mul, Nat.zero_add] at h
  refine h.trans (and_congr_right fun _ => ?_)
  simp only [bits]
  omega

/-- The row of `jr`, which fixes everything but `rs`. -/
theorem and_jrMask_iff (w : Word) :
    w &&& 0xFC1FFFFF = 0x00000008 ↔ bits w 26 6 = 0 ∧ bits w 6 15 = 0 ∧ bits w 0 6 = 0x08 := by
  refine (and_rowMask_iff w (k := 21) (op := 0) (low := 8) (by decide) (by decide) (by decide)).trans
    (and_congr_right fun _ => ?_)
  simp only [bits]
  omega

/-- A legal word has the fixed fields of its instruction's row (R91): it is the word of that instruction. -/
theorem fixedFields_of_legal {w : Word} {i : Instr} (h : decodeWord w = .legal i) :
    ∀ f ∈ fixedFields i, bits w f.1 f.2.1 = f.2.2 := by
  obtain ⟨-, rfl⟩ := encodeInvertsDecode w i h
  cases i
  case nop => exact FixedFields.nop
  case add rd rs rt => exact FixedFields.add rd rs rt
  case xor rd rs rt => exact FixedFields.xor rd rs rt
  case slt rd rs rt => exact FixedFields.slt rd rs rt
  case jr rs => exact FixedFields.jr rs
  case j target => exact FixedFields.j target
  case jal target => exact FixedFields.jal target
  case ble rs rt imm => exact FixedFields.ble rs rt imm
  case addi rt rs imm => exact FixedFields.addi rt rs imm
  case lw rt rs imm => exact FixedFields.lw rt rs imm
  case sw rt rs imm => exact FixedFields.sw rt rs imm
  case call target => exact FixedFields.call target
  case ret => exact FixedFields.ret

/-- Settles O3: a word under a row's mask tells the fields the decoder selects by; and a legal word has the fixed fields
of its instruction, so that it matches that row. -/
theorem decodeFollowsMatchAndMask : Obligations.DecodeFollowsMatchAndMask := by
  unfold Obligations.DecodeFollowsMatchAndMask
  intro w
  have hall : w &&& 0xFFFFFFFF = w := BitVec.and_allOnes
  rw [hall]
  refine ⟨fun h => ?_, fun h => ?_, fun h => ?_, fun h => ?_, fun h => ?_, fun h => ?_, fun h => ?_, fun h => ?_,
    fun h => ?_, fun h => ?_, fun h => ?_, fun h => ?_, fun h => ?_,
    fun nop add xor slt jr j jal ble addi lw sw call ret => ?_⟩
  · rw [h]
    decide
  · obtain ⟨hop, hshamt, hfunct⟩ := (and_functMask_iff w (by decide)).1 h
    exact ⟨_, _, _, decodeWord_add hop hshamt hfunct⟩
  · obtain ⟨hop, hshamt, hfunct⟩ := (and_functMask_iff w (by decide)).1 h
    exact ⟨_, _, _, decodeWord_xor hop hshamt hfunct⟩
  · obtain ⟨hop, hshamt, hfunct⟩ := (and_functMask_iff w (by decide)).1 h
    exact ⟨_, _, _, decodeWord_slt hop hshamt hfunct⟩
  · obtain ⟨hop, hunused, hfunct⟩ := (and_jrMask_iff w).1 h
    exact ⟨_, decodeWord_jr hop hunused hfunct⟩
  · exact ⟨_, decodeWord_j ((and_opcodeMask_iff w (by decide)).1 h)⟩
  · exact ⟨_, decodeWord_jal ((and_opcodeMask_iff w (by decide)).1 h)⟩
  · exact ⟨_, _, _, decodeWord_ble ((and_opcodeMask_iff w (by decide)).1 h)⟩
  · exact ⟨_, _, _, decodeWord_addi ((and_opcodeMask_iff w (by decide)).1 h)⟩
  · exact ⟨_, _, _, decodeWord_lw ((and_opcodeMask_iff w (by decide)).1 h)⟩
  · exact ⟨_, _, _, decodeWord_sw ((and_opcodeMask_iff w (by decide)).1 h)⟩
  · exact ⟨_, decodeWord_call ((and_opcodeMask_iff w (by decide)).1 h)⟩
  · rw [h]
    decide
  · cases hd : decodeWord w with
    | illegal => rfl
    | legal i =>
      exfalso
      have hfields := fixedFields_of_legal hd
      obtain ⟨-, hword⟩ := encodeInvertsDecode w i hd
      cases i <;> simp only [fixedFields, List.forall_mem_cons, List.not_mem_nil, IsEmpty.forall_iff, implies_true,
        and_true] at hfields
      case nop => exact nop hword.symm
      case ret => exact ret hword.symm
      case add => exact add ((and_functMask_iff w (by decide)).2 hfields)
      case xor => exact xor ((and_functMask_iff w (by decide)).2 hfields)
      case slt => exact slt ((and_functMask_iff w (by decide)).2 hfields)
      case jr => exact jr ((and_jrMask_iff w).2 hfields)
      case j => exact j ((and_opcodeMask_iff w (by decide)).2 hfields)
      case jal => exact jal ((and_opcodeMask_iff w (by decide)).2 hfields)
      case ble => exact ble ((and_opcodeMask_iff w (by decide)).2 hfields)
      case addi => exact addi ((and_opcodeMask_iff w (by decide)).2 hfields)
      case lw => exact lw ((and_opcodeMask_iff w (by decide)).2 hfields)
      case sw => exact sw ((and_opcodeMask_iff w (by decide)).2 hfields)
      case call => exact call ((and_opcodeMask_iff w (by decide)).2 hfields)

/-- Settles O4: each word evaluated. -/
theorem sampleWordsDecode : Obligations.SampleWordsDecode := by
  unfold Obligations.SampleWordsDecode
  decide

end Sys2Proof

/-! PROOFS. The issue step on a word that is no instruction, and the programs that hold none (R92, R172, R230, R251). -/

namespace Sys2Proof.Machine

/-! ## A fault at the issue step (R251, R253) -/

theorem issueStep_of_illegal {s : State} {w : Word} (hstalled : s.stalledPrev = false)
    (hslot : s.imem[wordIndex s.pc]? = some (.word w)) (hw : decodeWord w = .illegal) :
    issueStep s = .next (s.raise (.illegalInstruction w (wordIndex s.pc))) := by
  simp [issueStep, hstalled, hslot, slotInstr, hw, slotWord]

theorem hasWork_of_slot {s : State} {slot : Slot} (h : s.imem[wordIndex s.pc]? = some slot) : hasWork s = true :=
  (hasWork_iff s).2 (.inl (List.getElem?_eq_some_iff.1 h).1)

/-- The cycle of a state with work, by its issue step (R171, R172). -/
theorem step_of_issue {s u : State} (hs : s.fault = none) (hw : hasWork s = true)
    (hu : issueStep { s with wires := Wires.idle } = .next u) : step s = afterIssue u := by
  rw [step, oneCycle, hu, hw]
  simp [hs]

theorem afterIssue_of_fault {u : State} {f : Fault} (hu : u.fault = some f) : afterIssue u = .next u := by
  simp [afterIssue, hu]

/-- Settles O42: the issue step raises, and a cycle that has a fault after its issue step ends there. -/
theorem illegalWordRaisesAtIssue : Obligations.IllegalWordRaisesAtIssue := by
  unfold Obligations.IllegalWordRaisesAtIssue
  intro s w hs hstalled hwires hslot hw
  have hissue : issueStep { s with wires := Wires.idle } =
      .next ({ s with wires := Wires.idle }.raise (.illegalInstruction w (wordIndex s.pc))) :=
    issueStep_of_illegal hstalled hslot hw
  rw [step_of_issue hs (hasWork_of_slot hslot) hissue, afterIssue_of_fault (State.raise_fault _ _), ← hwires]
  rfl

/-! ## Programs that hold an illegal word, and programs that hold none (R92, R230) -/

/-- The report of the load is the part of the program that does not decode, each word with its index. -/
theorem illegalWords_eq_filter (words : List Word) (n : Nat) :
    illegalWords words n = (words.zipIdx n).filter fun e => decodeWord e.1 = .illegal := by
  induction words generalizing n with
  | nil => rfl
  | cons w words ih =>
    rw [illegalWords, ih (n + 1), List.zipIdx_cons]
    cases h : decodeWord w <;> simp [h]

theorem mem_illegalWords (words : List Word) (w : Word) (k : Nat) :
    (w, k) ∈ illegalWords words 0 ↔ words[k]? = some w ∧ decodeWord w = .illegal := by
  rw [illegalWords_eq_filter, List.mem_filter, List.mk_mem_zipIdx_iff_getElem?, decide_eq_true_iff]

theorem hostLoadWords_of_none_illegal (s : State) {words : List Word} (h : illegalWords words 0 = []) :
    hostLoadWords s words = loadProgram s (words.map .word) := by
  rw [hostLoadWords, h]

theorem hostLoadWords_of_illegal (s : State) {words : List Word} (h : illegalWords words 0 ≠ []) :
    hostLoadWords s words = .refused (.illegalProgram (illegalWords words 0)) := by
  unfold hostLoadWords
  split
  next hnil => exact absurd hnil h
  next => rfl

/-- A program with nothing to report decodes everywhere. -/
theorem slotInstr_of_none_illegal {words : List Word} (h : illegalWords words 0 = []) :
    ∀ slot ∈ words.map Slot.word, ∃ i, slotInstr slot = .legal i := by
  intro slot hslot
  obtain ⟨w, hmem, rfl⟩ := List.mem_map.1 hslot
  cases hw : decodeWord w with
  | legal i => exact ⟨i, hw⟩
  | illegal =>
    obtain ⟨k, hk⟩ := List.mem_iff_getElem?.1 hmem
    exact absurd ((mem_illegalWords words w k).2 ⟨hk, hw⟩) (by simp [h])

/-- No stage raises `IllegalInstruction`: a sweep that begins without a fault does not end in that one (R120, R253). -/
theorem sweep_never_illegal {l : List Instance} {k : Nat} {s t : State} (hs : s.fault = none)
    (h : sweep l k s = .next t) (w : Word) (j : Nat) : t.fault ≠ some (.illegalInstruction w j) := by
  refine sweep_induct_cases (P := fun _ _ _ => True) (Q := fun t => t.fault ≠ some (.illegalInstruction w j))
    ?_ ?_ ?_ ?_ l k s t trivial hs h
  · exact fun _ u _ hu => by simp [hu]
  · intro inst rest _ u fn f _ _ hfn hf
    obtain ⟨c, rfl⟩ := stage_raise hfn hf
    simpa using c.toFault_ne_illegal inst w j
  · exact fun _ _ _ u _ hu _ => by simp [hu]
  · exact fun _ _ _ _ _ _ _ _ _ _ _ => trivial

/-- The word a step reports as illegal is the one at the pc. -/
theorem step_illegal {s t : State} {w : Word} {k : Nat} (h : step s = .next t)
    (ht : t.fault = some (.illegalInstruction w k)) :
    s.imem[wordIndex s.pc]? = some (.word w) ∧ decodeWord w = .illegal := by
  obtain ⟨hs, ⟨-, rfl⟩ | ⟨-, u, hu, hafter⟩⟩ := step_next h
  · rw [hs] at ht
    cases ht
  · rcases hafter with ⟨hne, rfl⟩ | ⟨hnone, v, hv, hend⟩
    · rcases issueStep_next rfl hu with ⟨rfl, -⟩ | ⟨i, -, -, rfl⟩ | ⟨w', -, hslot, hillegal, rfl⟩
      · exact absurd hs hne
      · exact absurd hs hne
      · cases ht
        exact ⟨hslot, hillegal⟩
    · have hsweep := sweep_never_illegal (s := u.clearHazards) hnone hv w k
      rcases hend with ⟨-, rfl⟩ | ⟨-, rfl⟩
      · exact absurd ht hsweep
      · exact absurd (v.finish_fault ▸ ht) hsweep

/-- Settles O43: the load reports `illegalWords`, and the one place that raises `IllegalInstruction` is the issue step
on a slot that does not decode. -/
theorem checkedProgramsAreLegal : Obligations.CheckedProgramsAreLegal := by
  unfold Obligations.CheckedProgramsAreLegal
  refine ⟨fun s t words h => ?_, fun s words ⟨w, hmem, hw⟩ => ?_, fun s t hlegal h w k ht => ?_⟩
  · by_cases hnil : illegalWords words 0 = []
    · rw [hostLoadWords_of_none_illegal s hnil] at h
      obtain ⟨-, -, -, rfl⟩ := loadProgram_done h
      exact ⟨rfl, slotInstr_of_none_illegal hnil⟩
    · rw [hostLoadWords_of_illegal s hnil] at h
      cases h
  · obtain ⟨k, hk⟩ := List.mem_iff_getElem?.1 hmem
    have hreport : illegalWords words 0 ≠ [] := List.ne_nil_of_mem ((mem_illegalWords words w k).2 ⟨hk, hw⟩)
    exact ⟨_, hostLoadWords_of_illegal s hreport, mem_illegalWords words⟩
  · obtain ⟨hslot, hw⟩ := step_illegal h ht
    obtain ⟨i, hi⟩ := hlegal _ (List.mem_of_getElem? hslot)
    cases hw.symm.trans hi

end Sys2Proof.Machine

/-! PROOFS. Execute of `lw` and `sw` (R140 to R142) and decode of `ble` (R89, R156), where an address is computed. -/

namespace Sys2Proof.Machine

/-! ## Acquired operands (R112, R113) -/

theorem withReg_of_gives {s : State} {r : Nat} {a : Word} (inst : Instance) (k : Word → StageResult)
    (h : s.gives r a) : withReg s inst r k = k a := by
  rw [State.gives] at h
  rw [withReg, h]

theorem withRegs_of_gives {s : State} {r q : Nat} {a b : Word} (inst : Instance) (k : Word → Word → StageResult)
    (hr : s.gives r a) (hq : s.gives q b) : withRegs s inst r q k = k a b := by
  rw [State.gives] at hr hq
  rw [withRegs, hr, hq]

/-! ## The effective address (R90, R140) -/

theorem effectiveAddress_eq (base imm : Word) : effectiveAddress base imm = BitVec.ofNat 32 (base.toNat + imm.toNat) :=
  BitVec.add_def base imm

/-- Settles O26: with its operands acquired, execute latches the sum of base and immediate. -/
theorem loadAndStoreLatchTheAddress : Obligations.LoadAndStoreLatchTheAddress := by
  unfold Obligations.LoadAndStoreLatchTheAddress
  intro rt rs imm a v s inst hv hbase
  rw [← effectiveAddress_eq]
  refine ⟨?_, fun hdata => ?_⟩
  · rw [exec_of_visits hv (f := lwExecute rt rs imm) rfl, lwExecute, withReg_of_gives inst _ hbase, State.land_done]
  · rw [exec_of_visits hv (f := swExecute rt rs imm) rfl, swExecute, withRegs_of_gives inst _ hbase hdata,
      State.land_done]

/-! ## The branch target and the prediction (R89, R156, R217) -/

/-- The target as integer arithmetic: shifting left by 2 multiplies by 4. -/
theorem branchTarget_eq (p imm : Word) : branchTarget p imm = BitVec.ofInt 32 (p.toInt + (imm.toInt + 1) * 4) := by
  have hone : BitVec.ofInt 32 1 = 1#32 := by decide
  have hfour : BitVec.ofInt 32 4 = BitVec.twoPow 32 2 := by decide
  rw [branchTarget, BitVec.shiftLeft_eq_mul_twoPow, BitVec.ofInt_add, BitVec.ofInt_mul, BitVec.ofInt_add,
    BitVec.ofInt_toInt, BitVec.ofInt_toInt, hone, hfour]
  rfl

theorem bleDecode_of_taken {imm : Word} {s : State} {inst : Instance} {e : BtbEntry}
    (h : btbLookup s inst.pcSnap = some e) (htaken : e.taken = true) :
    bleDecode imm s inst = .done ({ bleLatched imm inst with pred := true }.setJump .direct e.target) s := by
  simp [bleDecode, h, htaken]

/-- A miss, or a hit whose outcome bit is clear. -/
theorem bleDecode_of_not_taken {imm : Word} {s : State} {inst : Instance}
    (h : ∀ e, btbLookup s inst.pcSnap = some e → e.taken = false) :
    bleDecode imm s inst = .done { bleLatched imm inst with pred := false } s := by
  unfold bleDecode
  split
  next e he => simp [h e he]
  next => rfl

/-- Settles O32, by what the predictor answers for the instance's own pc. -/
theorem branchDecodePredicts : Obligations.BranchDecodePredicts := by
  unfold Obligations.BranchDecodePredicts
  rintro rs rt imm s inst hv _ _ rfl rfl
  rw [exec_of_visits hv (f := bleDecode imm) rfl, ← branchTarget_eq]
  refine ⟨fun e he htaken => ?_, fun hnot => ?_⟩
  · rw [bleDecode_of_taken he htaken, State.land_done]
    rfl
  · rw [bleDecode_of_not_taken hnot, State.land_done]
    rfl

end Sys2Proof.Machine

/-! PROOFS. One instruction alone in the pipeline (R187): its steps one at a time, from its fetch to the fault of a
destination 0 (R94, R246, R254). -/

namespace Sys2Proof.Machine

/-! ## One instance of a sweep (R174 to R177) -/

theorem sweep_cons_of_done {inst inst' : Instance} {s u : State} {fn : StageFn} {next : Stage}
    (rest : List Instance) (k : Nat) (hfn : stageFnOf inst.instr inst.stage = some fn)
    (hdone : fn (s.visit inst) inst = .done inst' u) (hu : u.fault = none) (hnext : inst.stage.next = some next) :
    sweep (inst :: rest) k s = sweep rest (k + 1) (settle (u.visit inst') k inst' next) := by
  rw [sweep, exec_visiting rfl hfn, hdone]
  simp [hu, hnext]

theorem sweep_cons_of_raise {inst : Instance} {s : State} {fn : StageFn} {f : Fault} (rest : List Instance) (k : Nat)
    (hfn : stageFnOf inst.instr inst.stage = some fn) (hraise : fn (s.visit inst) inst = .raise f) :
    sweep (inst :: rest) k s = .next ((s.visit inst).raise f) := by
  rw [sweep, exec_visiting rfl hfn, hraise]
  simp

theorem settle_of_no_jump (s : State) (k : Nat) {inst : Instance} (next : Stage) (h : inst.jump = none) :
    settle s k inst next = { s with
      window := s.window.set k { inst with stage := next }
      wires := { hazardUpdate s.wires { inst with stage := next } with
        events := s.wires.events ++ [{ stage := next, seq := inst.seq }]
        visiting := none } } := by
  simp [settle, honor, h]

/-! ## The end of a cycle after its sweep (R178 to R182) -/

theorem afterIssue_of_finished {u v : State} (hu : u.fault = none) (hv : sweep u.window 0 u.clearHazards = .next v)
    (hvf : v.fault = none) : afterIssue u = .next v.finish := by
  simp [afterIssue, hu, hv, hvf]

theorem afterIssue_of_raised {u v : State} {f : Fault} (hu : u.fault = none)
    (hv : sweep u.window 0 u.clearHazards = .next v) (hvf : v.fault = some f) : afterIssue u = .next v := by
  simp [afterIssue, hu, hv, hvf]

/-- The window and the pc behind a cycle without a jump and without a stall that has one instance in flight. -/
theorem State.finish_window_of_lone {s : State} {inst : Instance} (hjumped : s.wires.jumped = false)
    (hwindow : s.window = [inst]) (hst : inst.stage ≠ .W) : s.finish.window = [inst] := by
  have hsquash : s.squash.window = [inst] := (State.squash_window_of_unjumped hjumped).trans hwindow
  rw [State.finish_window, State.retire_window_cons hsquash, if_neg hst]

theorem State.finish_pc (s : State) :
    s.finish.pc = if !s.wires.jumped && !s.wires.stalled && fetchable s then s.pc + 4 else s.pc := by
  have hfetch : fetchable s.squash.retire = fetchable s := by simp [fetchable]
  simp only [State.finish, State.endCycle_pc, State.advancePc, hfetch, State.retire_wires, State.squash_wires]
  split <;> simp

/-- What a cycle leaves of one instance in flight that advances, without an intent, to a stage before writeback. -/
theorem afterIssue_of_lone {u w : State} {inst inst' : Instance} {fn : StageFn} {next : Stage} (hu : u.fault = none)
    (hwindow : u.window = [inst]) (hfn : stageFnOf inst.instr inst.stage = some fn)
    (hdone : fn (u.clearHazards.visit inst) inst = .done inst' w) (hjump : inst'.jump = none)
    (hnext : inst.stage.next = some next) (hne : next ≠ .W) :
    ∃ t, afterIssue u = .next t ∧ t.fault = none ∧ t.window = [{ inst' with stage := next }] ∧ t.imem = u.imem ∧
      t.pc = (if fetchable u then u.pc + 4 else u.pc) ∧ t.cycle = u.cycle + 1 := by
  have heffect : StageEffect inst.instr (u.clearHazards.visit inst) inst inst' w := stage_done hfn hdone
  have hrun := heffect.sameRun
  have hwf : w.fault = none := by rw [heffect.rest]; exact hu
  have hsweep : sweep u.window 0 u.clearHazards = .next (settle (w.visit inst') 0 inst' next) := by
    rw [hwindow, sweep_cons_of_done [] 0 hfn hdone hwf hnext, sweep]
  have hwires : (settle (w.visit inst') 0 inst' next).wires.jumped = false ∧
      (settle (w.visit inst') 0 inst' next).wires.stalled = false := by
    simp [settle_of_no_jump _ _ _ hjump, heffect.wires_eq, Wires.idle]
  obtain ⟨hjumped, hstalled⟩ := hwires
  have hpc : (settle (w.visit inst') 0 inst' next).pc = u.pc := by
    simp [settle_of_no_jump _ _ _ hjump, heffect.pc_eq]
  have himem : (settle (w.visit inst') 0 inst' next).imem = u.imem := by simp [hrun.imem]
  refine ⟨_, afterIssue_of_finished hu hsweep (by simpa using hwf), by simpa using hwf,
    State.finish_window_of_lone hjumped ?_ hne, by simpa using himem, ?_, by simp [hrun.cycle]⟩
  · simp [settle_of_no_jump _ _ _ hjump, heffect.window_eq, hwindow]
  · rw [State.finish_pc, hjumped, hstalled, hpc, fetchable, fetchable, hpc, himem]
    rfl

/-! ## One instance in flight behind the end of the program -/

/-- Only `inst` is in flight, and the pc is past the program, so that nothing more is issued. -/
structure State.Alone (s : State) (inst : Instance) : Prop where
  fault : s.fault = none
  window : s.window = [inst]
  past : fetchable s = false

theorem issueStep_of_not_fetchable {s : State} (h : fetchable s = false) : issueStep s = .next s := by
  have hslot : s.imem[wordIndex s.pc]? = none := by simpa [fetchable] using h
  simp [issueStep, hslot]

theorem State.Alone.step_eq {s : State} {inst : Instance} (h : s.Alone inst) :
    step s = afterIssue { s with wires := Wires.idle } :=
  step_of_issue h.fault ((hasWork_iff s).2 (.inr (by simp [h.window])))
    (issueStep_of_not_fetchable (s := { s with wires := Wires.idle }) h.past)

/-- The fetched instance of the instruction at the pc (R111, R172). -/
def Instance.fetched (s : State) (i : Instr) : Instance :=
  { Instance.fresh i (wordIndex s.pc) s.nextSeq with pcSnap := s.pc, stage := .F }

theorem wordIndex_add_four {p : Word} (h : wordIndex p + 1 < 2 ^ 30) : wordIndex (p + 4) = wordIndex p + 1 := by
  have hfour : (4 : Word).toNat = 4 := rfl
  rw [wordIndex_eq] at *
  rw [wordIndex_eq, BitVec.toNat_add, hfour]
  omega

/-- The first step of a run of the last instruction of the program (R172, R281). -/
theorem State.drained.step_alone {s : State} {i : Instr} (hd : s.drained) (hat : s.at i) (hend : s.programEndsAfter 1) :
    ∃ t, step s = .next t ∧ t.Alone (.fetched s i) ∧ t.cycle = s.cycle + 1 := by
  obtain ⟨hs, hwindow, hstalled⟩ := hd
  obtain ⟨slot, hslot, hi⟩ := hat
  obtain ⟨hlen, hbound⟩ := hend
  have hissue : issueStep { s with wires := Wires.idle } = .next ({ s with wires := Wires.idle }.issue i) := by
    simp [issueStep, hstalled, hslot, hi, exec_not_visiting, Wires.idle]
  have hfetchable : fetchable ({ s with wires := Wires.idle }.issue i) = true :=
    decide_eq_true (show wordIndex s.pc < s.imem.length by omega)
  obtain ⟨t, ht, hfault, hwindow', himem, hpc, hcycle⟩ := afterIssue_of_lone
    (u := { s with wires := Wires.idle }.issue i) (fn := fetchStage) hs
    (by rw [State.issue_window, hwindow]; rfl) rfl rfl rfl rfl (by decide)
  rw [hfetchable, if_pos rfl] at hpc
  refine ⟨t, (step_of_issue hs (hasWork_of_slot hslot) hissue).trans ht, ⟨hfault, hwindow', ?_⟩, hcycle⟩
  rw [fetchable, hpc, himem, State.issue_pc, State.issue_imem, wordIndex_add_four hbound, hlen]
  simp

/-- A further step of the lone instance, one that does not complete its writeback and leaves no intent. -/
theorem State.Alone.step_of_done {s w : State} {inst inst' : Instance} {fn : StageFn} {next : Stage}
    (h : s.Alone inst) (hfn : stageFnOf inst.instr inst.stage = some fn)
    (hdone : fn (s.clearHazards.visit inst) inst = .done inst' w) (hjump : inst'.jump = none)
    (hnext : inst.stage.next = some next) (hne : next ≠ .W) :
    ∃ t, step s = .next t ∧ t.Alone { inst' with stage := next } ∧ t.cycle = s.cycle + 1 := by
  obtain ⟨t, ht, hfault, hwindow, himem, hpc, hcycle⟩ :=
    afterIssue_of_lone (u := { s with wires := Wires.idle }) h.fault h.window hfn hdone hjump hnext hne
  have hpast : fetchable { s with wires := Wires.idle } = false := h.past
  rw [hpast, if_neg Bool.false_ne_true] at hpc
  refine ⟨t, h.step_eq.trans ht, ⟨hfault, hwindow, ?_⟩, hcycle⟩
  rw [fetchable, hpc, himem]
  exact h.past

/-- The step in which the lone instance raises: the cycle is abandoned there (R254). -/
theorem State.Alone.step_of_raise {s : State} {inst : Instance} {fn : StageFn} {f : Fault} (h : s.Alone inst)
    (hfn : stageFnOf inst.instr inst.stage = some fn) (hraise : fn (s.clearHazards.visit inst) inst = .raise f) :
    ∃ t, step s = .next t ∧ t.fault = some f ∧ t.cycle = s.cycle := by
  have hsweep : sweep s.window 0 s.clearHazards = .next ((s.clearHazards.visit inst).raise f) := by
    rw [h.window, sweep_cons_of_raise [] 0 hfn hraise]
  exact ⟨_, h.step_eq.trans (afterIssue_of_raised (u := { s with wires := Wires.idle }) h.fault hsweep rfl), rfl, rfl⟩

/-! ## `add` with destination 0 (R94, R117, R246) -/

/-- Execute of `add` with nothing awaited: the sum and the destination are latched (R131). -/
theorem addExecute_of_none_awaiting {s : State} {rs rt : Nat} (rd : Nat) (inst : Instance)
    (hwait : s.wires.awaiting = []) (hrs : rs < 32) (hrt : rt < 32) :
    addExecute rd rs rt s inst = .done { inst with result := s.reg rs + s.reg rt, dest := some rd } s := by
  have hgives : ∀ r, r < 32 → s.gives r (s.reg r) := fun r hr => acquire_of_not_awaiting (by simp [hwait]) hr
  rw [addExecute, withRegs_of_gives inst _ (hgives rs hrs) (hgives rt hrt), aluResult]

theorem runSteps_of_step {s t : State} (h : step s = .next t) (n : Nat) : runSteps (n + 1) s = runSteps n t := by
  rw [runSteps, h]

/-- Settles O53: fetch, the idle decode, execute and memory advance the lone `add`; its writeback presents register 0 to
the write port. -/
theorem loneWriteToRegisterZeroFaults : Obligations.LoneWriteToRegisterZeroFaults := by
  unfold Obligations.LoneWriteToRegisterZeroFaults
  intro s rs rt hd hend hrs hrt hat
  obtain ⟨fetched, hfetch, hF, cF⟩ := hd.step_alone hat hend
  obtain ⟨decoded, hdecode, hD, cD⟩ := hF.step_of_done (fn := idleStage) (next := .D) rfl rfl rfl rfl (by decide)
  obtain ⟨executed, hexecute, hE, cE⟩ := hD.step_of_done (fn := addExecute 0 rs rt) (next := .E) rfl
    (addExecute_of_none_awaiting 0 _ rfl hrs hrt) rfl rfl (by decide)
  obtain ⟨published, hmemory, hM, cM⟩ := hE.step_of_done (fn := publishResult) (next := .M) rfl rfl rfl rfl (by decide)
  obtain ⟨t, hwriteback, hfault, ct⟩ := hM.step_of_raise rfl
    (writebackOf_error (.add 0 rs rt) rfl (regWrite_zero _ _))
  have hrun : ∀ n, runSteps (n + 5) s = runSteps n t := fun n => by
    rw [runSteps_of_step hfetch, runSteps_of_step hdecode, runSteps_of_step hexecute, runSteps_of_step hmemory,
      runSteps_of_step hwriteback]
  exact ⟨t, hrun 0, hfault, by omega, (hrun 1).trans (runSteps_of_fault hfault 0)⟩

end Sys2Proof.Machine

/-! PROOFS. The protocol between a stage and the engine (R11, R110): the stages with nothing to do (R114, R119), the
ones that wait (R112, R113, R209), and the ones that raise (R120). -/

namespace Sys2Proof.Machine

/-! ## Acquire (R112) -/

theorem acquire_of_forwarded {s : State} {r : Nat} {v : Word} (hwait : r ∈ s.wires.awaiting)
    (hfwd : s.wires.forward.lookup r = some v) : acquire s r = .ready v := by
  rw [acquire, if_pos hwait, forwarded, hfwd]

theorem acquire_of_unforwarded {s : State} {r : Nat} (hwait : r ∈ s.wires.awaiting)
    (hfwd : s.wires.forward.lookup r = none) : acquire s r = .notReady := by
  rw [acquire, if_pos hwait, forwarded, hfwd]

/-- Settles O19: one lemma about `acquire` for each of its four branches. -/
theorem acquireReadsForwardsOrWaits : Obligations.AcquireReadsForwardsOrWaits := by
  unfold Obligations.AcquireReadsForwardsOrWaits
  exact fun _ _ => ⟨acquire_of_not_awaiting, fun _ => acquire_of_forwarded, acquire_of_unforwarded, acquire_of_ge⟩

/-! ## Stages that always complete (R111, R114, R116, R119) -/

/-- Settles O21: the fetch stage is the same for every instruction. -/
theorem fetchRecordsThePc : Obligations.FetchRecordsThePc := by
  unfold Obligations.FetchRecordsThePc
  intro i s inst hv
  rw [exec_of_visits hv (f := fetchStage) rfl, fetchStage, State.land_done]

theorem exec_of_idle {i : Instr} {s : State} {inst : Instance} {st : Stage} (hv : s.visits inst st)
    (hidle : stageFnOf i st = some idleStage) : exec i s = .next (s.visit inst) := by
  rw [exec_of_visits hv hidle, idleStage, State.land_done]

theorem exec_of_writeback_no_dest {i : Instr} {s : State} {inst : Instance} (hv : s.visits inst .M)
    (hd : inst.dest = none) : exec i s = .next (s.visit inst) := by
  rw [exec_of_visits hv (f := writebackOf i) rfl, writebackOf_no_dest i s hd, State.land_done]

/-- Settles O22: up to memory the listed stages are `idleStage`; a writeback has nothing to write. -/
theorem idleStagesAreIdle : Obligations.IdleStagesAreIdle := by
  unfold Obligations.IdleStagesAreIdle
  intro rd rs rt imm target s inst
  simp only [List.forall_mem_cons, List.not_mem_nil, IsEmpty.forall_iff, implies_true, and_true]
  refine ⟨fun hv => ?_, fun hv => ?_, fun hv => ?_, fun hv hd => ?_⟩
  · and_intros <;> exact exec_of_idle hv rfl
  · and_intros <;> exact exec_of_idle hv rfl
  · and_intros <;> exact exec_of_idle hv rfl
  · and_intros <;> exact exec_of_writeback_no_dest hv hd

/-- Settles O25: the four share one memory stage. -/
theorem aluMemoryPublishesTheResult : Obligations.AluMemoryPublishesTheResult := by
  unfold Obligations.AluMemoryPublishesTheResult
  intro rd rs rt imm s inst hv
  have hpublish : ∀ i, memoryOf i = publishResult → exec i s = .next (s.visit { inst with fwd := some inst.result }) :=
    fun i hi => by rw [exec_of_visits hv (f := memoryOf i) rfl, hi, publishResult, State.land_done]
  simp only [List.forall_mem_cons, List.not_mem_nil, IsEmpty.forall_iff, implies_true, and_true]
  exact ⟨hpublish _ rfl, hpublish _ rfl, hpublish _ rfl, hpublish _ rfl⟩

/-! ## Waiting (R113, R209) -/

/-- A call that leaves the status `NotReady` is of a stage function that answered so, and changes nothing else. -/
theorem exec_notReady {i : Instr} {s t : State} (hs : s.wires.status = .done) (h : exec i s = .next t)
    (ht : t.wires.status = .notReady) :
    t = { s with wires := { s.wires with status := .notReady } } ∧
    ∃ inst fn, s.wires.visiting = some inst ∧ stageFnOf i inst.stage = some fn ∧ fn s inst = .notReady := by
  rcases exec_next h with ⟨-, rfl⟩ | ⟨inst, fn, hv, hfn, rfl⟩
  · rw [State.issue_wires, hs] at ht
    cases ht
  · cases hr : fn s inst with
    | done inst' u =>
      rw [hr] at ht
      cases ht
    | notReady => exact ⟨rfl, inst, fn, hv, hfn, hr⟩
    | raise f =>
      rw [hr, State.land_raise, State.raise_wires, hs] at ht
      cases ht

/-- Settles O34. -/
theorem notReadyChangesNothing : Obligations.NotReadyChangesNothing := by
  unfold Obligations.NotReadyChangesNothing
  exact fun i s t hs h ht => (exec_notReady hs h ht).1

/-- What a stage that needs one register waits for, if its own work does not wait. -/
theorem withReg_notReady {s : State} {inst : Instance} {r : Nat} {k : Word → StageResult}
    (hk : ∀ a, k a ≠ .notReady) (h : withReg s inst r k = .notReady) : acquire s r = .notReady := by
  rcases withReg_cases s inst r k with ⟨a, -, e⟩ | ⟨hr, -⟩ | ⟨c, -, e⟩
  · exact absurd (e ▸ h) (hk a)
  · exact hr
  · cases e.symm.trans h

theorem withRegs_notReady {s : State} {inst : Instance} {r q : Nat} {k : Word → Word → StageResult}
    (hk : ∀ a b, k a b ≠ .notReady) (h : withRegs s inst r q k = .notReady) :
    acquire s r = .notReady ∨ acquire s q = .notReady := by
  rcases withRegs_cases s inst r q k with ⟨a, b, -, -, e⟩ | ⟨hr, -⟩ | ⟨c, -, e⟩
  · exact absurd (e ▸ h) (hk a b)
  · exact hr
  · cases e.symm.trans h

/-- Decode of `ble` reads the predictor and so always completes. -/
theorem bleDecode_done (imm : Word) (s : State) (inst : Instance) : ∃ inst', bleDecode imm s inst = .done inst' s := by
  unfold bleDecode
  split
  · split <;> exact ⟨_, rfl⟩
  · exact ⟨_, rfl⟩

theorem callDecode_cases (target : Word) (s : State) (inst : Instance) :
    (∃ inst' t, callDecode target s inst = .done inst' t) ∨
    callDecode target s inst = .raise (.stackOverflow inst.seq inst.index) := by
  unfold callDecode
  cases h : rasPush s (nextAddress inst.pcSnap) with
  | ok t => exact .inl ⟨_, _, rfl⟩
  | error c =>
    obtain ⟨-, rfl⟩ := rasPush_error h
    exact .inr rfl

theorem retDecode_cases (s : State) (inst : Instance) :
    (∃ inst' t, retDecode s inst = .done inst' t) ∨
    retDecode s inst = .raise (.stackUnderflow inst.seq inst.index) := by
  unfold retDecode
  cases h : rasPop s with
  | ok p => exact .inl ⟨_, _, rfl⟩
  | error c =>
    obtain ⟨-, rfl⟩ := rasPop_error h
    exact .inr rfl

/-- Of the decode stages only that of `jr` waits. -/
theorem decodeOf_notReady {i : Instr} {s : State} {inst : Instance} (h : decodeOf i s inst = .notReady) :
    ∃ rs, i = .jr rs ∧ acquire s rs = .notReady := by
  cases i
  case jr rs => exact ⟨rs, rfl, withReg_notReady (by simp) h⟩
  case ble _ _ imm =>
    obtain ⟨inst', e⟩ := bleDecode_done imm s inst
    cases e.symm.trans h
  case call target => rcases callDecode_cases target s inst with ⟨_, _, e⟩ | e <;> cases e.symm.trans h
  case ret => rcases retDecode_cases s inst with ⟨_, _, e⟩ | e <;> cases e.symm.trans h
  all_goals cases h

/-- An execute stage waits for a source register and for nothing else. -/
theorem executeOf_notReady {i : Instr} {s : State} {inst : Instance} (h : executeOf i s inst = .notReady) :
    ∃ rd rs rt imm, (i ∈ [Instr.addi rt rs imm, .lw rt rs imm] ∧ acquire s rs = .notReady) ∨
      (i ∈ [Instr.add rd rs rt, .xor rd rs rt, .slt rd rs rt, .sw rt rs imm, .ble rs rt imm] ∧
        (acquire s rs = .notReady ∨ acquire s rt = .notReady)) := by
  cases i
  case addi rt rs imm => exact ⟨0, rs, rt, imm, .inl ⟨by simp, withReg_notReady (by simp [aluResult]) h⟩⟩
  case lw rt rs imm => exact ⟨0, rs, rt, imm, .inl ⟨by simp, withReg_notReady (by simp) h⟩⟩
  case add rd rs rt => exact ⟨rd, rs, rt, 0, .inr ⟨by simp, withRegs_notReady (by simp [aluResult]) h⟩⟩
  case xor rd rs rt => exact ⟨rd, rs, rt, 0, .inr ⟨by simp, withRegs_notReady (by simp [aluResult]) h⟩⟩
  case slt rd rs rt => exact ⟨rd, rs, rt, 0, .inr ⟨by simp, withRegs_notReady (by simp [aluResult]) h⟩⟩
  case sw rt rs imm => exact ⟨0, rs, rt, imm, .inr ⟨by simp, withRegs_notReady (by simp) h⟩⟩
  case ble rs rt imm => exact ⟨0, rs, rt, imm, .inr ⟨by simp, withRegs_notReady (by simp) h⟩⟩
  all_goals cases h

theorem withReg_of_notReady {s : State} {r : Nat} (inst : Instance) (k : Word → StageResult)
    (h : acquire s r = .notReady) : withReg s inst r k = .notReady := by
  rw [withReg, h]

/-- The register that is not ready decides, if the other one cannot raise. -/
theorem withRegs_of_notReady {s : State} {r q : Nat} (inst : Instance) (k : Word → Word → StageResult)
    (h : acquire s r = .notReady ∧ q < 32 ∨ r < 32 ∧ acquire s q = .notReady) :
    withRegs s inst r q k = .notReady := by
  rcases h with ⟨hr, hq⟩ | ⟨hr, hq⟩
  · rw [withRegs, hr]
    cases e : acquire s q with
    | raise c => exact absurd e (acquire_ne_raise_of_lt hq c)
    | ready b => rfl
    | notReady => rfl
  · rw [withRegs, hq]
    cases e : acquire s r with
    | raise c => exact absurd e (acquire_ne_raise_of_lt hr c)
    | ready a => rfl
    | notReady => rfl

theorem executeOf_of_base_notReady (rt : Nat) (imm : Word) {rs : Nat} {s : State} {inst : Instance}
    (h : acquire s rs = .notReady) :
    ∀ i ∈ [Instr.addi rt rs imm, .lw rt rs imm], executeOf i s inst = .notReady := by
  simp only [List.forall_mem_cons, List.not_mem_nil, IsEmpty.forall_iff, implies_true, and_true]
  exact ⟨withReg_of_notReady inst _ h, withReg_of_notReady inst _ h⟩

theorem executeOf_of_pair_notReady (rd : Nat) (imm : Word) {rs rt : Nat} {s : State} {inst : Instance}
    (h : acquire s rs = .notReady ∧ rt < 32 ∨ rs < 32 ∧ acquire s rt = .notReady) :
    ∀ i ∈ [Instr.add rd rs rt, .xor rd rs rt, .slt rd rs rt, .sw rt rs imm, .ble rs rt imm],
      executeOf i s inst = .notReady := by
  have hwait := fun k => withRegs_of_notReady inst k h
  simp only [List.forall_mem_cons, List.not_mem_nil, IsEmpty.forall_iff, implies_true, and_true]
  exact ⟨hwait _, hwait _, hwait _, hwait _, hwait _⟩

/-- Settles O35: the status comes from the stage function's own answer, which only an acquiring stage gives. -/
theorem onlyAcquiringStagesWait : Obligations.OnlyAcquiringStagesWait := by
  unfold Obligations.OnlyAcquiringStagesWait
  refine ⟨fun i s t inst hv hs h ht => ?_, fun rd rs rt imm s inst =>
    ⟨fun hv hrs => ?_, fun hv hrs i hi => ?_, fun hv hregs i hi => ?_⟩⟩
  · obtain ⟨-, inst₀, fn, hv₀, hfn, hwait⟩ := exec_notReady hs h ht
    cases hv.symm.trans hv₀
    rcases stage_notReady hfn hwait with hst | hst <;> rw [hst] at hfn <;> cases hfn
    · obtain ⟨rs, hi, hrs⟩ := decodeOf_notReady hwait
      exact .inl ⟨rs, hi, hst, hrs⟩
    · exact .inr ⟨hst, executeOf_notReady hwait⟩
  · rw [exec_of_visits hv (f := jrDecode rs) rfl, jrDecode, withReg_of_notReady inst _ hrs, State.land_notReady]
  · rw [exec_of_visits hv (f := executeOf i) rfl, executeOf_of_base_notReady rt imm hrs i hi, State.land_notReady]
  · rw [exec_of_visits hv (f := executeOf i) rfl, executeOf_of_pair_notReady rd imm hregs i hi, State.land_notReady]

/-! ## Raising (R120, R246, R248 to R250) -/

/-- Of the decode stages those of `call` and `return` raise for the stack, and that of `jr` for its register. -/
theorem decodeOf_raise {i : Instr} {s : State} {inst : Instance} {f : Fault} (h : decodeOf i s inst = .raise f) :
    (∃ rs, i = .jr rs ∧ 32 ≤ rs) ∨
    ((∃ target, i = .call target) ∧ f = .stackOverflow inst.seq inst.index) ∨
    (i = .ret ∧ f = .stackUnderflow inst.seq inst.index) := by
  cases i
  case jr rs => exact .inl ⟨rs, rfl, (withReg_raise (by simp) h).1⟩
  case ble _ _ imm =>
    obtain ⟨inst', e⟩ := bleDecode_done imm s inst
    cases e.symm.trans h
  case call target =>
    rcases callDecode_cases target s inst with ⟨_, _, e⟩ | e <;> cases e.symm.trans h
    exact .inr (.inl ⟨⟨target, rfl⟩, rfl⟩)
  case ret =>
    rcases retDecode_cases s inst with ⟨_, _, e⟩ | e <;> cases e.symm.trans h
    exact .inr (.inr ⟨rfl, rfl⟩)
  all_goals cases h

/-- A memory stage raises for an address outside data memory and for nothing else. -/
theorem memoryOf_raise {i : Instr} {s : State} {inst : Instance} {f : Fault} (h : memoryOf i s inst = .raise f) :
    (∃ rt rs imm, i = .lw rt rs imm ∨ i = .sw rt rs imm) ∧ f = .memIndexOutOfRange inst.addr inst.seq inst.index := by
  cases i
  case lw rt rs imm =>
    refine ⟨⟨rt, rs, imm, .inl rfl⟩, ?_⟩
    rcases Nat.lt_or_ge (inst.addr.toNat / 4) s.params.dmemWords with hlt | hge
    · cases (lwMemory_of_lt hlt).symm.trans h
    · cases (lwMemory_of_ge hge).symm.trans h
      rfl
  case sw rt rs imm =>
    refine ⟨⟨rt, rs, imm, .inr rfl⟩, ?_⟩
    rcases Nat.lt_or_ge (inst.addr.toNat / 4) s.params.dmemWords with hlt | hge
    · cases (swMemory_of_lt hlt).symm.trans h
    · cases (swMemory_of_ge hge).symm.trans h
      rfl
  all_goals cases h

/-- A writeback raises for a destination that the write port rejects. -/
theorem writebackOf_raise {i : Instr} {s : State} {inst : Instance} {f : Fault}
    (h : writebackOf i s inst = .raise f) :
    (inst.dest = some 0 ∧ f = .regZeroWrite inst.seq inst.index) ∨ ∃ d, inst.dest = some d ∧ 32 ≤ d := by
  cases hd : inst.dest with
  | none => cases (writebackOf_no_dest i s hd).symm.trans h
  | some d =>
    cases hw : regWrite s d inst.result with
    | ok t =>
      rcases writebackOf_cases i with e | e <;> rw [e] at h
      · cases (writebackStage_ok hd hw).symm.trans h
      · cases (writebackPublishing_ok hd hw).symm.trans h
    | error c =>
      cases (writebackOf_error i hd hw).symm.trans h
      rcases regWrite_error hw with ⟨rfl, rfl⟩ | ⟨hge, -⟩
      · exact .inl ⟨rfl, rfl⟩
      · exact .inr ⟨d, rfl, hge⟩

/-- A call that sets the fault register is of a stage function that raised, and changes nothing else. -/
theorem exec_raise {i : Instr} {s t : State} {f : Fault} (hs : s.fault = none) (h : exec i s = .next t)
    (ht : t.fault = some f) :
    t = s.raise f ∧
    ∃ inst fn, s.wires.visiting = some inst ∧ stageFnOf i inst.stage = some fn ∧ fn s inst = .raise f := by
  rcases exec_next h with ⟨-, rfl⟩ | ⟨inst, fn, hv, hfn, rfl⟩
  · rw [State.issue_fault, hs] at ht
    cases ht
  · cases hr : fn s inst with
    | done inst' u =>
      rw [hr, State.land_done, State.visit_fault, (stage_done hfn hr).rest] at ht
      cases hs.symm.trans ht
    | notReady =>
      rw [hr] at ht
      cases hs.symm.trans ht
    | raise e =>
      rw [hr] at ht
      cases ht
      exact ⟨rfl, inst, fn, hv, hfn, hr⟩

/-- What a stage function of an instruction from a word can raise: its register indices are below 32, so no port
rejects one. -/
theorem stage_raise_of_wellFormed {i : Instr} {s : State} {inst : Instance} {fn : StageFn} {f : Fault}
    (hwf : i.wellFormed = true) (hdest : inst.dest = none ∨ inst.dest = destOf i)
    (hfn : stageFnOf i inst.stage = some fn) (hraise : fn s inst = .raise f) :
    (inst.stage = .F ∧ (∃ target, i = .call target) ∧ f = .stackOverflow inst.seq inst.index) ∨
    (inst.stage = .F ∧ i = .ret ∧ f = .stackUnderflow inst.seq inst.index) ∨
    (inst.stage = .E ∧ (∃ rt rs imm, i = .lw rt rs imm ∨ i = .sw rt rs imm) ∧
      f = .memIndexOutOfRange inst.addr inst.seq inst.index) ∨
    (inst.stage = .M ∧ destOf i = some 0 ∧ (∀ target, i ≠ .jal target) ∧ f = .regZeroWrite inst.seq inst.index) := by
  have hdestOf : ∀ d, inst.dest = some d → destOf i = some d := fun d hd =>
    (hdest.resolve_left (by simp [hd])).symm.trans hd
  unfold stageFnOf stageFnAt at hfn
  split at hfn <;> rename_i hst <;> cases hfn
  · cases hraise
  · rcases decodeOf_raise hraise with ⟨rs, rfl, hge⟩ | ⟨hcall, hf⟩ | ⟨hret, hf⟩
    · exact absurd (sourcesOf_lt hwf rs (List.mem_singleton_self rs)) (Nat.not_lt.2 hge)
    · exact .inl ⟨hst, hcall, hf⟩
    · exact .inr (.inl ⟨hst, hret, hf⟩)
  · obtain ⟨x, hx, hge, -⟩ := executeOf_raise hraise
    exact absurd (sourcesOf_lt hwf x hx) (Nat.not_lt.2 hge)
  · obtain ⟨hi, hf⟩ := memoryOf_raise hraise
    exact .inr (.inr (.inl ⟨hst, hi, hf⟩))
  · rcases writebackOf_raise hraise with ⟨hzero, hf⟩ | ⟨d, hd, hge⟩
    · have hjal : ∀ target, i ≠ .jal target := by
        rintro target rfl
        cases hdestOf 0 hzero
      exact .inr (.inr (.inr ⟨hst, hdestOf 0 hzero, hjal, hf⟩))
    · exact absurd (destOf_lt hwf (hdestOf d hd)) (Nat.not_lt.2 hge)

/-- Settles O36: the fault comes from the stage function that raised. -/
theorem faultsAStageCanRaise : Obligations.FaultsAStageCanRaise := by
  unfold Obligations.FaultsAStageCanRaise
  intro i s t inst hwf hv hdest hs h f hf
  obtain ⟨ht, inst₀, fn, hv₀, hfn, hraise⟩ := exec_raise hs h hf
  cases hv.symm.trans hv₀
  exact ⟨ht, stage_raise_of_wellFormed hwf hdest hfn hraise⟩

end Sys2Proof.Machine

/-! PROOFS. The arithmetic instructions (R130 to R136): what execute latches, and the runs of five cycles (R187) of one
instruction alone in the pipeline that transfers no control: `nop`, `add`, `xor`, `slt`, `addi`, `lw`, `sw`. -/

namespace Sys2Proof.Machine

/-! ## Execute with the operands acquired (R131 to R134) -/

theorem addExecute_of_gives {s : State} {rs rt : Nat} {a b : Word} (rd : Nat) (inst : Instance) (ha : s.gives rs a)
    (hb : s.gives rt b) : addExecute rd rs rt s inst = .done { inst with result := a + b, dest := some rd } s :=
  withRegs_of_gives inst _ ha hb

theorem xorExecute_of_gives {s : State} {rs rt : Nat} {a b : Word} (rd : Nat) (inst : Instance) (ha : s.gives rs a)
    (hb : s.gives rt b) : xorExecute rd rs rt s inst = .done { inst with result := a ^^^ b, dest := some rd } s :=
  withRegs_of_gives inst _ ha hb

theorem sltExecute_of_gives {s : State} {rs rt : Nat} {a b : Word} (rd : Nat) (inst : Instance) (ha : s.gives rs a)
    (hb : s.gives rt b) :
    sltExecute rd rs rt s inst = .done { inst with result := sltValue a b, dest := some rd } s :=
  withRegs_of_gives inst _ ha hb

theorem addiExecute_of_gives {s : State} {rs : Nat} {a : Word} (rt : Nat) (imm : Word) (inst : Instance)
    (ha : s.gives rs a) :
    addiExecute rt rs imm s inst = .done { inst with result := a + imm, dest := some rt } s :=
  withReg_of_gives inst _ ha

theorem lwExecute_of_gives {s : State} {rs : Nat} {a : Word} (rt : Nat) (imm : Word) (inst : Instance)
    (ha : s.gives rs a) : lwExecute rt rs imm s inst = .done { inst with addr := a + imm, dest := some rt } s :=
  withReg_of_gives inst _ ha

theorem swExecute_of_gives {s : State} {rt rs : Nat} {a v : Word} (imm : Word) (inst : Instance) (ha : s.gives rs a)
    (hv : s.gives rt v) : swExecute rt rs imm s inst = .done { inst with addr := a + imm, sdata := v } s :=
  withRegs_of_gives inst _ ha hv

theorem sltValue_eq (a b : Word) : sltValue a b = if a.toInt < b.toInt then 1 else 0 := by
  simp [sltValue, signedLess]

theorem ofNat_toNat_xor (a b : Word) : BitVec.ofNat 32 (a.toNat ^^^ b.toNat) = a ^^^ b := by
  rw [← BitVec.toNat_xor, BitVec.ofNat_toNat, BitVec.setWidth_eq]

/-- Settles O24: the step lands what execute answers for the acquired operands; the sums and `xor` are those of
words. -/
theorem aluExecuteComputesTheResult : Obligations.AluExecuteComputesTheResult := by
  unfold Obligations.AluExecuteComputesTheResult
  intro rd rs rt imm a b s inst hv ha
  rw [← BitVec.add_def, ← BitVec.add_def, ofNat_toNat_xor, ← sltValue_eq]
  refine ⟨fun hb => ⟨?_, ?_, ?_⟩, ?_⟩
  · rw [exec_of_visits hv (f := addExecute rd rs rt) rfl, addExecute_of_gives rd inst ha hb, State.land_done]
  · rw [exec_of_visits hv (f := xorExecute rd rs rt) rfl, xorExecute_of_gives rd inst ha hb, State.land_done]
  · rw [exec_of_visits hv (f := sltExecute rd rs rt) rfl, sltExecute_of_gives rd inst ha hb, State.land_done]
  · rw [exec_of_visits hv (f := addiExecute rt rs imm) rfl, addiExecute_of_gives rt imm inst ha, State.land_done]

/-! ## A cycle with one instance in flight, as a whole state (R178 to R182) -/

/-- `s` with the contents of the register file, data memory, RAS and predictor of `w`: all a stage function can have
written (`StageEffect.rest`). -/
def State.withStores (s w : State) : State := { s with regs := w.regs, dmem := w.dmem, ras := w.ras, btb := w.btb }

theorem StageEffect.eq_withStores {i : Instr} {s t : State} {inst inst' : Instance}
    (h : StageEffect i s inst inst' t) : t = s.withStores t := h.rest

/-- The stages after execute give their instance no intent (R150). -/
theorem StageEffect.jump_eq {i : Instr} {s t : State} {inst inst' : Instance} (h : StageEffect i s inst inst' t)
    (hF : inst.stage ≠ .F) (hD : inst.stage ≠ .D) : inst'.jump = inst.jump := by
  rcases h.intent with hjump | hst | hst
  · exact hjump
  · exact absurd hst hF
  · exact absurd hst hD

/-- The end of a cycle, with the fields it writes. -/
theorem State.finish_eq (s : State) : s.finish = { s with
    pc := s.finish.pc
    window := s.finish.window
    stalledPrev := s.wires.stalled && !s.wires.jumped
    cycle := s.cycle + 1
    trace := s.trace ++ [s.wires.events]
    wires := Wires.idle } := by
  rw [← s.finish_stalledPrev, ← s.finish_cycle, ← s.finish_trace, ← s.finish_wires, ← s.finish_params,
    ← s.finish_regs, ← s.finish_dmem, ← s.finish_ras, ← s.finish_btb, ← s.finish_imem, ← s.finish_nextSeq,
    ← s.finish_fault]

theorem issueStep_of_at {s : State} {i : Instr} (hidle : s.wires = Wires.idle) (hstalled : s.stalledPrev = false)
    (hat : s.at i) : issueStep s = .next (s.issue i) := by
  obtain ⟨slot, hslot, hi⟩ := hat
  simp [issueStep, hstalled, hslot, hi, exec_not_visiting, hidle, Wires.idle]

/-- A cycle of one instance in flight that advances without an intent. -/
theorem afterIssue_of_lone_eq {u w : State} {inst inst' : Instance} {fn : StageFn} {next : Stage} (hu : u.fault = none)
    (hwindow : u.window = [inst]) (hfn : stageFnOf inst.instr inst.stage = some fn)
    (hdone : fn (u.clearHazards.visit inst) inst = .done inst' w) (hjump : inst'.jump = none)
    (hnext : inst.stage.next = some next) :
    afterIssue u = .next { u.withStores w with
      pc := if fetchable u then u.pc + 4 else u.pc
      window := if next = .W then [] else [{ inst' with stage := next }]
      stalledPrev := false
      cycle := u.cycle + 1
      trace := u.trace ++ [[⟨next, inst.seq⟩]]
      wires := Wires.idle } := by
  have heffect : StageEffect inst.instr (u.clearHazards.visit inst) inst inst' w := stage_done hfn hdone
  obtain ⟨-, -, -, hseq⟩ := heffect.named
  have hw : w = (u.clearHazards.visit inst).withStores w := heffect.eq_withStores
  have hwf : w.fault = none := by rw [hw]; exact hu
  have hsweep : sweep u.window 0 u.clearHazards = .next (settle (w.visit inst') 0 inst' next) := by
    rw [hwindow, sweep_cons_of_done [] 0 hfn hdone hwf hnext, sweep]
  generalize hv : settle (w.visit inst') 0 inst' next = v at hsweep
  rw [settle_of_no_jump _ _ _ hjump, hw] at hv
  have hjumped : v.wires.jumped = false := by simp [← hv, State.withStores, Wires.idle]
  have hstalled : v.wires.stalled = false := by simp [← hv, State.withStores, Wires.idle]
  have hevents : v.wires.events = [⟨next, inst.seq⟩] := by simp [← hv, State.withStores, Wires.idle, hseq]
  have hvwindow : v.squash.window = [{ inst' with stage := next }] := by
    rw [State.squash_window_of_unjumped hjumped]
    simp [← hv, State.withStores, hwindow]
  have hfetchable : fetchable v = fetchable u := by simp [← hv, State.withStores, fetchable]
  rw [afterIssue_of_finished hu hsweep (by simpa [← hv, State.withStores] using hu), State.finish_eq, State.finish_pc,
    State.finish_window, State.retire_window_cons hvwindow, hjumped, hstalled, hevents, hfetchable, ← hv]
  rfl

/-! ## The run of one instance, cycle by cycle (R187) -/

/-- `s`, in which a run of one instruction began, as it stands when `inst` has completed the stages its counter
says. -/
def State.loneRun (s : State) (inst : Instance) : State :=
  { s with
    pc := s.pc + 4
    window := if inst.stage = .W then [] else [inst]
    cycle := s.cycle + inst.stage.rank
    nextSeq := s.nextSeq + 1
    trace := s.trace ++ (loneTrace s.nextSeq).take inst.stage.rank
    wires := Wires.idle }

/-- What the next stage function of `inst` sees. -/
def State.loneView (s : State) (inst : Instance) : State := (s.loneRun inst).clearHazards.visit inst

theorem State.loneRun_of_retired {s : State} {inst : Instance} (hwindow : s.window = []) (hst : inst.stage = .W) :
    s.loneRun inst = s.afterLoneRun (s.pc + 4) := by
  rw [State.loneRun, if_pos hst, hst, ← hwindow]
  rfl

theorem State.withStores_loneView (s : State) (inst : Instance) : s.withStores (s.loneView inst) = s := rfl

theorem State.withStores_withStores (s m w : State) : (s.withStores m).withStores w = s.withStores w := rfl

theorem State.withStores_loneView_withStores (s m : State) (inst : Instance) :
    s.withStores ((s.withStores m).loneView inst) = s.withStores m := rfl

theorem State.withStores_loneView_setReg (s : State) (inst : Instance) (d : Nat) (v : Word) :
    s.withStores ((s.loneView inst).setReg d v) = s.setReg d v := rfl

theorem State.loneView_gives (s : State) (inst : Instance) {r : Nat} (hr : r < 32) :
    (s.loneView inst).gives r (s.reg r) :=
  acquire_of_not_awaiting List.not_mem_nil hr

/-- `inst` of instruction `i` is fetched and under way in a run that began in `s` with `i` the last instruction of the
program. -/
structure State.RunsAlone (s : State) (i : Instr) (inst : Instance) : Prop where
  fault : s.fault = none
  stalledPrev : s.stalledPrev = false
  past : s.imem.length ≤ wordIndex (s.pc + 4)
  instr : inst.instr = i
  seq : inst.seq = s.nextSeq
  fetched : inst.stage ≠ .PF

/-- `inst` when it has completed stage `st` (R176). -/
def Instance.completing (inst : Instance) (st : Stage) : Instance := { inst with stage := st }

/-- The fetched instance of the instruction at the pc behind an idle decode stage. -/
def Instance.decoded (s : State) (i : Instr) : Instance := (Instance.fetched s i).completing .D

theorem loneTrace_take_rank_succ {st next : Stage} (seq : Nat) (hst : st ≠ .PF) (h : st.next = some next) :
    (loneTrace seq).take (st.rank + 1) = (loneTrace seq).take st.rank ++ [[⟨next, seq⟩]] := by
  cases st <;> cases h
  case PF => exact absurd rfl hst
  all_goals rfl

/-- The first cycle: the instruction is issued and fetched. -/
theorem State.drained.step_loneRun {s : State} {i : Instr} (hd : s.drained) (hat : s.at i)
    (hend : s.programEndsAfter 1) :
    step s = .next (s.loneRun (.fetched s i)) ∧ s.RunsAlone i (.fetched s i) := by
  obtain ⟨hs, hwindow, hstalled⟩ := hd
  obtain ⟨hlen, hbound⟩ := hend
  have hin : wordIndex s.pc < s.imem.length := by omega
  have hissued : ({ s with wires := Wires.idle }.issue i).window =
      [Instance.fresh i (wordIndex s.pc) s.nextSeq] := by
    rw [State.issue_window, hwindow]
    rfl
  have hfetchable : fetchable ({ s with wires := Wires.idle }.issue i) = true := decide_eq_true hin
  have hcycle := afterIssue_of_lone_eq (u := { s with wires := Wires.idle }.issue i) (fn := fetchStage) hs hissued
    rfl rfl rfl rfl
  refine ⟨(step_of_issue hs ((hasWork_iff s).2 (.inl hin)) (issueStep_of_at rfl hstalled hat)).trans
    (hcycle.trans ?_), hs, hstalled, (wordIndex_add_four hbound ▸ hlen.le), rfl, rfl, by simp [Instance.fetched]⟩
  rw [hfetchable, if_pos rfl]
  simp only [State.loneRun, State.withStores, State.issue, Instance.fetched, hstalled]
  rfl

/-- A further cycle: the next stage function is done, without an intent. -/
theorem State.RunsAlone.step_loneRun {s w : State} {i : Instr} {inst inst' : Instance} {fn : StageFn} {next : Stage}
    (h : s.RunsAlone i inst) (hfn : stageFnOf i inst.stage = some fn)
    (hdone : fn (s.loneView inst) inst = .done inst' w) (hjump : inst'.jump = none)
    (hnext : inst.stage.next = some next) :
    step (s.loneRun inst) = .next ((s.withStores w).loneRun (inst'.completing next)) ∧
      (s.withStores w).RunsAlone i (inst'.completing next) := by
  obtain ⟨hs, hstalled, hpast, rfl, hseq, hfetched⟩ := h
  obtain ⟨hunretired, hnextfetched⟩ := Stage.next_eq_some hnext
  obtain ⟨hinstr, -, -, hseq'⟩ := (stage_done hfn hdone).named
  have hwindow : (s.loneRun inst).window = [inst] := if_neg hunretired
  have hfetchable : fetchable (s.loneRun inst) = false := decide_eq_false (Nat.not_lt.2 hpast)
  have halone : (s.loneRun inst).Alone inst := ⟨hs, hwindow, hfetchable⟩
  have hcycle := afterIssue_of_lone_eq (u := s.loneRun inst) hs hwindow hfn hdone hjump hnext
  refine ⟨halone.step_eq.trans (hcycle.trans ?_), hs, hstalled, hpast, hinstr, hseq'.trans hseq, hnextfetched⟩
  rw [hfetchable, if_neg Bool.false_ne_true, hseq]
  simp only [State.loneRun, State.withStores, Instance.completing, hstalled, Stage.rank_next hnext,
    loneTrace_take_rank_succ s.nextSeq hfetched hnext, List.append_assoc, Nat.add_assoc]
  rfl

/-! ## The five cycles (R187) -/

/-- With a destination 1 to 31 the writeback of every instruction commits the result (R117). -/
theorem writebackOf_commits (i : Instr) (s : State) {inst : Instance} {d : Nat} (hdest : inst.dest = some d)
    (h0 : d ≠ 0) (h32 : d < 32) : ∃ inst', writebackOf i s inst = .done inst' (s.setReg d inst.result) := by
  rcases writebackOf_cases i with e | e <;> rw [e]
  · exact ⟨_, writebackStage_ok hdest (regWrite_of_lt s _ h0 h32)⟩
  · exact ⟨_, writebackPublishing_ok hdest (regWrite_of_lt s _ h0 h32)⟩

/-- The five cycles of an instruction whose decode stage is idle: `m` is the state its memory stage leaves, `w` the one
its writeback leaves. -/
theorem State.drained.runSteps_five {s m w : State} {i : Instr} {executed accessed retired : Instance}
    (hd : s.drained) (hat : s.at i) (hend : s.programEndsAfter 1) (hdecode : decodeOf i = idleStage)
    (hexecute : executeOf i (s.loneView (.decoded s i)) (.decoded s i) =
      .done executed (s.loneView (.decoded s i)))
    (hjump : executed.jump = none)
    (hmemory : memoryOf i (s.loneView (executed.completing .E)) (executed.completing .E) = .done accessed m)
    (hwriteback : writebackOf i ((s.withStores m).loneView (accessed.completing .M)) (accessed.completing .M) =
      .done retired w) :
    runSteps 5 s = .next ((s.withStores w).afterLoneRun (s.pc + 4)) := by
  have hwindow : s.window = [] := hd.2.1
  have haccessed : accessed.jump = none :=
    ((stage_done (i := i) rfl hmemory).jump_eq nofun nofun).trans hjump
  have hretired : retired.jump = none :=
    ((stage_done (i := i) rfl hwriteback).jump_eq nofun nofun).trans haccessed
  obtain ⟨hF, rF⟩ := hd.step_loneRun hat hend
  obtain ⟨hD, rD⟩ := rF.step_loneRun (next := .D) rfl (congrFun₂ hdecode _ _) rfl rfl
  rw [State.withStores_loneView] at hD rD
  obtain ⟨hE, rE⟩ := rD.step_loneRun (next := .E) rfl hexecute hjump rfl
  rw [State.withStores_loneView] at hE rE
  obtain ⟨hM, rM⟩ := rE.step_loneRun (next := .M) rfl hmemory haccessed rfl
  obtain ⟨hW, -⟩ := rM.step_loneRun (next := .W) rfl hwriteback hretired rfl
  rw [runSteps_of_step hF, runSteps_of_step hD, runSteps_of_step hE, runSteps_of_step hM, runSteps_of_step hW,
    State.withStores_withStores, State.loneRun_of_retired (s := s.withStores w) hwindow rfl]
  rfl

/-- The five cycles of an instruction whose memory stage leaves the machine as it is and the value `v` for register
`d`. -/
theorem State.drained.runSteps_of_commit {s : State} {i : Instr} {executed accessed : Instance} {d : Nat} {v : Word}
    (hd : s.drained) (hat : s.at i) (hend : s.programEndsAfter 1) (hdecode : decodeOf i = idleStage)
    (hexecute : executeOf i (s.loneView (.decoded s i)) (.decoded s i) =
      .done executed (s.loneView (.decoded s i)))
    (hjump : executed.jump = none)
    (hmemory : memoryOf i (s.loneView (executed.completing .E)) (executed.completing .E) =
      .done accessed (s.loneView (executed.completing .E)))
    (hdest : accessed.dest = some d) (hresult : accessed.result = v) (h0 : d ≠ 0) (h32 : d < 32) :
    runSteps 5 s = .next ((s.setReg d v).afterLoneRun (s.pc + 4)) := by
  obtain ⟨retired, hwriteback⟩ :=
    writebackOf_commits i (s.loneView (accessed.completing .M)) (inst := accessed.completing .M) hdest h0 h32
  rw [hd.runSteps_five hat hend hdecode hexecute hjump hmemory hwriteback, State.withStores_loneView_setReg,
    ← hresult]
  rfl

/-- The five cycles of an instruction without a destination: the machine is as its memory stage leaves it. -/
theorem State.drained.runSteps_of_no_dest {s m : State} {i : Instr} {executed accessed : Instance}
    (hd : s.drained) (hat : s.at i) (hend : s.programEndsAfter 1) (hdecode : decodeOf i = idleStage)
    (hexecute : executeOf i (s.loneView (.decoded s i)) (.decoded s i) =
      .done executed (s.loneView (.decoded s i)))
    (hjump : executed.jump = none)
    (hmemory : memoryOf i (s.loneView (executed.completing .E)) (executed.completing .E) = .done accessed m)
    (hdest : accessed.dest = none) :
    runSteps 5 s = .next ((s.withStores m).afterLoneRun (s.pc + 4)) := by
  have hwriteback := writebackOf_no_dest i ((s.withStores m).loneView (accessed.completing .M))
    (inst := accessed.completing .M) hdest
  rw [hd.runSteps_five hat hend hdecode hexecute hjump hmemory hwriteback, State.withStores_loneView_withStores]

/-- Settles O50: with nothing else in flight the operands are read from the register file, and the value that execute
computes of them is published and written back. -/
theorem loneAluInstructionRetires : Obligations.LoneAluInstructionRetires := by
  unfold Obligations.LoneAluInstructionRetires
  intro s rd rs rt imm hd hend h0 h32 hrs hrt
  have ha : ∀ inst, (s.loneView inst).gives rs (s.reg rs) := fun inst => s.loneView_gives inst hrs
  have hb : ∀ inst, (s.loneView inst).gives rt (s.reg rt) := fun inst => s.loneView_gives inst hrt
  rw [← sltValue_eq]
  refine ⟨fun hat => ?_, fun hat => ?_, fun hat => ?_, fun hat => ?_⟩
  · exact hd.runSteps_of_commit hat hend rfl (addExecute_of_gives rd _ (ha _) (hb _)) rfl rfl rfl rfl h0 h32
  · exact hd.runSteps_of_commit hat hend rfl (xorExecute_of_gives rd _ (ha _) (hb _)) rfl rfl rfl rfl h0 h32
  · exact hd.runSteps_of_commit hat hend rfl (sltExecute_of_gives rd _ (ha _) (hb _)) rfl rfl rfl rfl h0 h32
  · exact hd.runSteps_of_commit hat hend rfl (addiExecute_of_gives rd imm _ (ha _)) rfl rfl rfl rfl h0 h32

/-- Settles O51: `nop` is idle at every stage; `lw` writes back the word its memory stage read, `sw` leaves data memory
as its memory stage wrote it. -/
theorem loneMemoryInstructionRetires : Obligations.LoneMemoryInstructionRetires := by
  unfold Obligations.LoneMemoryInstructionRetires
  intro s hd hend
  refine ⟨fun hat => ?_, fun rt rs imm hrt hrs hin => ?_⟩
  · rw [hd.runSteps_of_no_dest hat hend rfl (executed := .decoded s .nop) rfl rfl rfl rfl, State.withStores_loneView]
  · have hbase : ∀ inst, (s.loneView inst).gives rs (s.reg rs) := fun inst => s.loneView_gives inst hrs
    have hdata : ∀ inst, (s.loneView inst).gives rt (s.reg rt) := fun inst => s.loneView_gives inst hrt
    refine ⟨fun hat h0 => ?_, fun hat => ?_⟩
    · exact hd.runSteps_of_commit hat hend rfl (lwExecute_of_gives rt imm _ (hbase _)) rfl (lwMemory_of_lt hin) rfl rfl
        h0 hrt
    · exact hd.runSteps_of_no_dest hat hend rfl (swExecute_of_gives imm _ (hbase _) (hdata _)) rfl
        (swMemory_of_lt hin) rfl

end Sys2Proof.Machine

/-! PROOFS. Two instructions in flight behind the end of the program (R174 to R182), and from it the stall of a load-use
pair (R205, R292). -/

namespace Sys2Proof.Machine

/-! ## One instance of a sweep, as a whole state (R175, R176) -/

/-- `s`, in a sweep, when the instance at window position `k` has completed stage `next` as `inst`, without an intent,
and its stage function has left the stores of `w`. -/
def State.advanced (s w : State) (k : Nat) (inst : Instance) (next : Stage) : State :=
  { s.withStores w with
    window := s.window.set k (inst.completing next)
    wires := { hazardUpdate s.wires (inst.completing next) with
      events := s.wires.events ++ [⟨next, inst.seq⟩]
      visiting := none
      status := .done } }

@[simp] theorem State.advanced_jumped (s w : State) (k : Nat) (inst : Instance) (next : Stage) :
    (s.advanced w k inst next).wires.jumped = s.wires.jumped := hazardUpdate_jumped _ _

@[simp] theorem State.advanced_stalled (s w : State) (k : Nat) (inst : Instance) (next : Stage) :
    (s.advanced w k inst next).wires.stalled = s.wires.stalled := hazardUpdate_stalled _ _

@[simp] theorem State.advanced_window (s w : State) (k : Nat) (inst : Instance) (next : Stage) :
    (s.advanced w k inst next).window = s.window.set k (inst.completing next) := rfl

/-- The bookkeeping reads neither of the model's own wires. -/
theorem hazardUpdate_visit (s : State) (inst last : Instance) :
    hazardUpdate (s.visit inst).wires last =
      { hazardUpdate s.wires last with visiting := some inst, status := .done } := by
  unfold hazardUpdate
  split
  · rfl
  · split <;> rfl

theorem sweep_cons_of_advance {inst inst' : Instance} {s w : State} {fn : StageFn} {next : Stage}
    (rest : List Instance) (k : Nat) (hs : s.fault = none) (hfn : stageFnOf inst.instr inst.stage = some fn)
    (hdone : fn (s.visit inst) inst = .done inst' w) (hjump : inst'.jump = none)
    (hnext : inst.stage.next = some next) :
    sweep (inst :: rest) k s = sweep rest (k + 1) (s.advanced w k inst' next) := by
  have hw : w = (s.visit inst).withStores w := (stage_done hfn hdone).eq_withStores
  have hwf : w.fault = none := by rw [hw]; exact hs
  have hwires : w.visit inst' = { s.withStores w with wires := (s.visit inst').wires } := by
    conv_lhs => rw [hw]
    rfl
  rw [sweep_cons_of_done rest k hfn hdone hwf hnext, settle_of_no_jump _ k next hjump, hwires, hazardUpdate_visit]
  rfl

/-- An instance that waits ends the sweep (R175). -/
theorem sweep_cons_of_notReady {inst : Instance} {s : State} {fn : StageFn} (rest : List Instance) (k : Nat)
    (hs : s.fault = none) (hfn : stageFnOf inst.instr inst.stage = some fn)
    (hwait : fn (s.visit inst) inst = .notReady) :
    sweep (inst :: rest) k s =
      .next { s with wires := { s.wires with stalled := true, visiting := none, status := .notReady } } := by
  rw [sweep, exec_visiting rfl hfn, hwait]
  simp [hs, State.markStalled, State.visit]

/-! ## A cycle without a jump, as a whole state (R178 to R182) -/

/-- `u`, behind the issue step, at the end of a cycle without a jump that leaves `window` and completes the stages
`events`. -/
def State.cycled (u : State) (window : List Instance) (stalled : Bool) (events : List Event) : State :=
  { u with
    pc := if !stalled && fetchable u then u.pc + 4 else u.pc
    window := window
    stalledPrev := stalled
    cycle := u.cycle + 1
    trace := u.trace ++ [events]
    wires := Wires.idle }

theorem afterIssue_of_unjumped {u v : State} {oldest : Instance} {rest : List Instance} (hu : u.fault = none)
    (hsweep : sweep u.window 0 u.clearHazards = .next v) (hv : v.fault = none) (hjumped : v.wires.jumped = false)
    (hwindow : v.window = oldest :: rest) :
    afterIssue u = .next
      (v.cycled (if oldest.stage = .W then rest else oldest :: rest) v.wires.stalled v.wires.events) := by
  have hsquash : v.squash.window = oldest :: rest := (State.squash_window_of_unjumped hjumped).trans hwindow
  rw [afterIssue_of_finished hu hsweep hv, State.finish_eq, State.finish_pc, State.finish_window,
    State.retire_window_cons hsquash, hjumped]
  simp [State.cycled]

/-- A cycle of two instances in flight that both advance. -/
theorem afterIssue_of_pair {u w x : State} {older older' younger younger' : Instance} {fn gn : StageFn}
    {next next' : Stage} (hu : u.fault = none) (hwindow : u.window = [older, younger])
    (hfn : stageFnOf older.instr older.stage = some fn) (hgn : stageFnOf younger.instr younger.stage = some gn)
    (hdone : fn (u.clearHazards.visit older) older = .done older' w)
    (hdone' : gn ((u.clearHazards.advanced w 0 older' next).visit younger) younger = .done younger' x)
    (hjump : older'.jump = none) (hjump' : younger'.jump = none) (hnext : older.stage.next = some next)
    (hnext' : younger.stage.next = some next') :
    afterIssue u = .next ((u.withStores x).cycled
      (if next = .W then [younger'.completing next'] else [older'.completing next, younger'.completing next'])
      false [⟨next, older'.seq⟩, ⟨next', younger'.seq⟩]) := by
  have hsweep : sweep u.window 0 u.clearHazards =
      .next ((u.clearHazards.advanced w 0 older' next).advanced x 1 younger' next') := by
    rw [hwindow, sweep_cons_of_advance (s := u.clearHazards) [younger] 0 hu hfn hdone hjump hnext,
      sweep_cons_of_advance (s := u.clearHazards.advanced w 0 older' next) [] 1 hu hgn hdone' hjump' hnext', sweep]
  rw [afterIssue_of_unjumped (oldest := older'.completing next) (rest := [younger'.completing next']) hu hsweep hu
    (by simp [Wires.idle]) (by simp [hwindow]), State.advanced_stalled, State.advanced_stalled]
  rfl

/-- A cycle of two instances in flight of which the younger one waits (R175): it stays as it is. -/
theorem afterIssue_of_waiting {u w : State} {older older' younger : Instance} {fn gn : StageFn} {next : Stage}
    (hu : u.fault = none) (hwindow : u.window = [older, younger])
    (hfn : stageFnOf older.instr older.stage = some fn) (hgn : stageFnOf younger.instr younger.stage = some gn)
    (hdone : fn (u.clearHazards.visit older) older = .done older' w)
    (hwait : gn ((u.clearHazards.advanced w 0 older' next).visit younger) younger = .notReady)
    (hjump : older'.jump = none) (hnext : older.stage.next = some next) :
    afterIssue u = .next ((u.withStores w).cycled
      (if next = .W then [younger] else [older'.completing next, younger]) true [⟨next, older'.seq⟩]) := by
  have hsweep := sweep_cons_of_advance (s := u.clearHazards) [younger] 0 hu hfn hdone hjump hnext
  rw [sweep_cons_of_notReady (s := u.clearHazards.advanced w 0 older' next) [] 1 hu hgn hwait, ← hwindow] at hsweep
  rw [afterIssue_of_unjumped (oldest := older'.completing next) (rest := [younger]) hu hsweep hu
    (by simp [Wires.idle]) (by simp [hwindow])]
  rfl

/-! ## A run without a jump, cycle by cycle (R187) -/

/-- `s`, in which a run began, when `n` instructions have been brought in and the completed stages were `events`, one
list a cycle. -/
def State.underWay (s : State) (n : Nat) (window : List Instance) (stalled : Bool) (events : List (List Event)) :
    State :=
  { s with
    pc := s.pc + BitVec.ofNat 32 (4 * n)
    window := window
    stalledPrev := stalled
    cycle := s.cycle + events.length
    nextSeq := s.nextSeq + n
    trace := s.trace ++ events
    wires := Wires.idle }

theorem State.drained.underWay_zero {s : State} (hd : s.drained) :
    { s with wires := Wires.idle } = s.underWay 0 [] false [] := by
  obtain ⟨-, hwindow, hstalled⟩ := hd
  simp [State.underWay, ← hwindow, ← hstalled]

theorem wordIndex_add_four_mul {p : Word} {n : Nat} (h : wordIndex p + n < 2 ^ 30) :
    wordIndex (p + BitVec.ofNat 32 (4 * n)) = wordIndex p + n := by
  rw [wordIndex_eq] at *
  rw [wordIndex_eq, BitVec.toNat_add, BitVec.toNat_ofNat]
  omega

/-- A cycle that brings the next instruction in. -/
theorem State.issue_cycled {s : State} {n : Nat} {window : List Instance} {events : List (List Event)} {i : Instr}
    (hat : (s.underWay n window false events).at i) (window' : List Instance) (e : List Event) :
    ((s.underWay n window false events).issue i).cycled window' false e =
      s.underWay (n + 1) window' false (events ++ [e]) := by
  obtain ⟨slot, hslot, -⟩ := hat
  have hfetchable : fetchable ((s.underWay n window false events).issue i) = true :=
    decide_eq_true (List.getElem?_eq_some_iff.1 hslot).1
  have hpc : s.pc + BitVec.ofNat 32 (4 * n) + 4#32 = s.pc + BitVec.ofNat 32 (4 * (n + 1)) := by
    rw [BitVec.add_assoc, Nat.mul_succ, BitVec.ofNat_add]
  rw [State.cycled, hfetchable]
  simp [State.underWay, State.issue, hpc, Nat.add_assoc]

theorem step_of_at {s : State} {i : Instr} (hs : s.fault = none) (hstalled : s.stalledPrev = false) (hat : s.at i) :
    step s = afterIssue ({ s with wires := Wires.idle }.issue i) := by
  have ⟨slot, hslot, _⟩ := hat
  exact step_of_issue hs (hasWork_of_slot hslot) (issueStep_of_at rfl hstalled hat)

theorem State.withStores_underWay (s : State) (n : Nat) (window : List Instance) (stalled : Bool)
    (events : List (List Event)) (inst : Instance) :
    s.withStores ((s.underWay n window stalled events).clearHazards.visit inst) = s := rfl

theorem State.withStores_underWay_setReg (s : State) (n : Nat) (window : List Instance) (stalled : Bool)
    (events : List (List Event)) (inst : Instance) (d : Nat) (v : Word) :
    s.withStores (((s.underWay n window stalled events).clearHazards.visit inst).setReg d v) = s.setReg d v := rfl

theorem State.withStores_advanced (s u w : State) (k : Nat) (inst inst' : Instance) (next : Stage) :
    s.withStores ((u.advanced w k inst next).visit inst') = s.withStores w := rfl

/-- The `n` instructions of the run have been brought in, and the program holds no more (R28). -/
structure State.PastEnd (s : State) (n : Nat) : Prop where
  fault : s.fault = none
  past : s.imem.length ≤ wordIndex (s.pc + BitVec.ofNat 32 (4 * n))

section PastEnd

variable {s : State} {n : Nat} {stalled : Bool} {events : List (List Event)}

theorem State.programEndsAfter.pastEnd (h : s.programEndsAfter n) (hs : s.fault = none) : s.PastEnd n := by
  obtain ⟨hlen, hbound⟩ := h
  exact ⟨hs, by rw [wordIndex_add_four_mul hbound, hlen]⟩

theorem State.PastEnd.not_fetchable (h : s.PastEnd n) (window : List Instance) :
    fetchable (s.underWay n window stalled events) = false :=
  decide_eq_false (Nat.not_lt.2 h.past)

/-- A cycle behind the end of the program leaves the pc where it is (R180). -/
theorem State.PastEnd.cycled (h : s.PastEnd n) (window window' : List Instance) (stalled' : Bool) (e : List Event) :
    (s.underWay n window stalled events).cycled window' stalled' e =
      s.underWay n window' stalled' (events ++ [e]) := by
  rw [State.cycled, h.not_fetchable]
  simp [State.underWay, Nat.add_assoc]

theorem State.PastEnd.step_eq (h : s.PastEnd n) {window : List Instance} (hwindow : window ≠ []) :
    step (s.underWay n window stalled events) = afterIssue (s.underWay n window stalled events) :=
  step_of_issue h.fault ((hasWork_iff _).2 (.inr hwindow))
    (issueStep_of_not_fetchable (s := s.underWay n window stalled events) (h.not_fetchable window))

theorem State.PastEnd.withStores (h : s.PastEnd n) (w : State) : (s.withStores w).PastEnd n := ⟨h.fault, h.past⟩

theorem State.PastEnd.setReg (h : s.PastEnd n) (d : Nat) (v : Word) : (s.setReg d v).PastEnd n := ⟨h.fault, h.past⟩

/-- A cycle of two instances in flight that both advance, `window` being what is left of them. -/
theorem State.PastEnd.step_pair {t w x : State} {older older' younger younger' : Instance} {fn gn : StageFn}
    {next next' : Stage} {window : List Instance} (h : s.PastEnd n)
    (hfn : stageFnOf older.instr older.stage = some fn) (hgn : stageFnOf younger.instr younger.stage = some gn)
    (hdone : fn ((s.underWay n [older, younger] stalled events).clearHazards.visit older) older = .done older' w)
    (hdone' : gn (((s.underWay n [older, younger] stalled events).clearHazards.advanced w 0 older' next).visit younger)
      younger = .done younger' x)
    (hjump : older'.jump = none) (hjump' : younger'.jump = none) (hnext : older.stage.next = some next)
    (hnext' : younger.stage.next = some next') (hstores : s.withStores x = t)
    (hwindow : (if next = .W then [younger'.completing next']
      else [older'.completing next, younger'.completing next']) = window) :
    step (s.underWay n [older, younger] stalled events) =
      .next (t.underWay n window false (events ++ [[⟨next, older.seq⟩, ⟨next', younger.seq⟩]])) := by
  obtain ⟨-, -, -, hseq⟩ := (stage_done hfn hdone).named
  obtain ⟨-, -, -, hseq'⟩ := (stage_done hgn hdone').named
  rw [h.step_eq (List.cons_ne_nil _ _), ← hstores, ← hwindow, ← hseq, ← hseq',
    ← (h.withStores x).cycled (stalled := stalled) [older, younger],
    afterIssue_of_pair (u := s.underWay n [older, younger] stalled events) h.fault rfl hfn hgn hdone hdone' hjump hjump'
      hnext hnext']
  rfl

/-- A cycle of two instances in flight of which the younger one waits. -/
theorem State.PastEnd.step_waiting {t w : State} {older older' younger : Instance} {fn gn : StageFn}
    {next : Stage} (h : s.PastEnd n) (hfn : stageFnOf older.instr older.stage = some fn)
    (hgn : stageFnOf younger.instr younger.stage = some gn)
    (hdone : fn ((s.underWay n [older, younger] stalled events).clearHazards.visit older) older = .done older' w)
    (hwait : gn (((s.underWay n [older, younger] stalled events).clearHazards.advanced w 0 older' next).visit younger)
      younger = .notReady)
    (hjump : older'.jump = none) (hnext : older.stage.next = some next) (hne : next ≠ .W)
    (hstores : s.withStores w = t) :
    step (s.underWay n [older, younger] stalled events) =
      .next (t.underWay n [older'.completing next, younger] true (events ++ [[⟨next, older.seq⟩]])) := by
  obtain ⟨-, -, -, hseq⟩ := (stage_done hfn hdone).named
  have hcycle := afterIssue_of_waiting (u := s.underWay n [older, younger] stalled events) h.fault rfl hfn hgn hdone
    hwait hjump hnext
  rw [if_neg hne] at hcycle
  rw [h.step_eq (List.cons_ne_nil _ _), ← hstores, ← hseq,
    ← (h.withStores w).cycled (stalled := stalled) [older, younger], hcycle]
  rfl

/-- A cycle of one instance in flight. -/
theorem State.PastEnd.step_lone {t w : State} {inst inst' : Instance} {fn : StageFn} {next : Stage}
    {window : List Instance} (h : s.PastEnd n) (hfn : stageFnOf inst.instr inst.stage = some fn)
    (hdone : fn ((s.underWay n [inst] stalled events).clearHazards.visit inst) inst = .done inst' w)
    (hjump : inst'.jump = none) (hnext : inst.stage.next = some next) (hstores : s.withStores w = t)
    (hwindow : (if next = .W then [] else [inst'.completing next]) = window) :
    step (s.underWay n [inst] stalled events) =
      .next (t.underWay n window false (events ++ [[⟨next, inst.seq⟩]])) := by
  rw [h.step_eq (List.cons_ne_nil _ _), ← hstores, ← hwindow,
    ← (h.withStores w).cycled (stalled := stalled) [inst],
    afterIssue_of_lone_eq (u := s.underWay n [inst] stalled events) h.fault rfl hfn hdone hjump hnext]
  rfl

/-- Behind the end of the program, with nothing in flight, the run is over (R171). -/
theorem State.PastEnd.drained (h : s.PastEnd n) : (s.underWay n [] false events).drained := ⟨h.fault, rfl, rfl⟩

theorem State.PastEnd.no_work (h : s.PastEnd n) : hasWork (s.underWay n [] stalled events) = false := by
  rw [hasWork, h.not_fetchable]
  rfl

end PastEnd

/-! ## Two instructions, the last of the program -/

/-- The fetched instance of the instruction `n` places behind the one at the pc of `s`. -/
def Instance.fetchedBehind (s : State) (n : Nat) (i : Instr) : Instance := .fetched (s.underWay n [] false []) i

/-- The second of the last two instructions is the one at the pc when the first has been brought in (R180). -/
theorem State.programEndsAfter.at_second {s : State} {i : Instr} {slot : Slot} (hend : s.programEndsAfter 2)
    (hslot : s.imem[s.pc.toNat / 4 + 1]? = some slot) (hi : slotInstr slot = .legal i) :
    (s.underWay 1 [] false []).at i := by
  obtain ⟨-, hbound⟩ := hend
  have hpc : wordIndex (s.pc + BitVec.ofNat 32 (4 * 1)) = wordIndex s.pc + 1 := wordIndex_add_four_mul (by omega)
  exact ⟨slot, hpc ▸ hslot, hi⟩

theorem Instance.fetchedBehind_zero (s : State) (i : Instr) : Instance.fetchedBehind s 0 i = .fetched s i := by
  simp [Instance.fetchedBehind, Instance.fetched, State.underWay]

section Fetch

variable {s : State} {n : Nat} {events : List (List Event)} {i : Instr}

/-- A cycle that fetches an instruction into an empty window. -/
theorem State.underWay_step_fetch (hs : s.fault = none) (hat : (s.underWay n [] false events).at i) :
    step (s.underWay n [] false events) =
      .next (s.underWay (n + 1) [.fetchedBehind s n i] false (events ++ [[⟨.F, s.nextSeq + n⟩]])) := by
  have hcycle := afterIssue_of_lone_eq (u := (s.underWay n [] false events).issue i) (fn := fetchStage) hs rfl
    rfl rfl rfl rfl
  rw [step_of_at (s := s.underWay n [] false events) hs rfl hat, ← State.issue_cycled hat]
  exact hcycle

/-- A cycle that fetches an instruction behind another one, which advances. -/
theorem State.underWay_step_fetch_behind {w : State} {older older' : Instance} {fn : StageFn} {next : Stage}
    (hs : s.fault = none) (hat : (s.underWay n [older] false events).at i)
    (hfn : stageFnOf older.instr older.stage = some fn)
    (hdone : fn (((s.underWay n [older] false events).issue i).clearHazards.visit older) older = .done older' w)
    (hjump : older'.jump = none) (hnext : older.stage.next = some next) (hne : next ≠ .W) :
    step (s.underWay n [older] false events) = .next ((s.withStores w).underWay (n + 1)
      [older'.completing next, .fetchedBehind s n i] false
      (events ++ [[⟨next, older'.seq⟩, ⟨.F, s.nextSeq + n⟩]])) := by
  have hcycle := afterIssue_of_pair (u := (s.underWay n [older] false events).issue i) (gn := fetchStage) hs rfl hfn
    rfl hdone rfl hjump rfl hnext rfl
  rw [if_neg hne] at hcycle
  rw [step_of_at (s := s.underWay n [older] false events) hs rfl hat,
    ← State.issue_cycled (s := s.withStores w) (window := [older]) hat]
  exact hcycle

end Fetch

/-- The first two cycles: both instructions are fetched, and the first one has an idle decode stage. -/
theorem State.drained.runSteps_fetch_pair {s : State} {i j : Instr} (hd : s.drained) (hat : s.at i)
    (hat' : (s.underWay 1 [] false []).at j) (hdecode : decodeOf i = idleStage) (n : Nat) :
    runSteps (n + 2) s = runSteps n (s.underWay 2 [.decoded s i, .fetchedBehind s 1 j] false
      [[⟨.F, s.nextSeq⟩], [⟨.D, s.nextSeq⟩, ⟨.F, s.nextSeq + 1⟩]]) := by
  have ⟨hs, _, hstalled⟩ := hd
  have hissue : (s.underWay 0 [] false []).at i := hd.underWay_zero ▸ hat
  have hfirst : step s = .next (s.underWay 1 [.fetched s i] false [[⟨.F, s.nextSeq⟩]]) := by
    have hcycle := State.underWay_step_fetch hs hissue
    rw [Instance.fetchedBehind_zero] at hcycle
    calc step s = afterIssue ((s.underWay 0 [] false []).issue i) := by
          rw [step_of_at hs hstalled hat, hd.underWay_zero]
      _ = step (s.underWay 0 [] false []) := (step_of_at (s := s.underWay 0 [] false []) hs rfl hissue).symm
      _ = .next (s.underWay 1 [.fetched s i] false [[⟨.F, s.nextSeq⟩]]) := hcycle
  have hsecond := State.underWay_step_fetch_behind (older := .fetched s i) (events := [[⟨.F, s.nextSeq⟩]]) hs hat'
    rfl (congrFun₂ hdecode _ _) rfl rfl nofun
  rw [runSteps_of_step hfirst, runSteps_of_step hsecond]
  rfl

/-- With nothing awaited a register is read from the register file, here that of `m` (R112). -/
theorem State.gives_of_none_awaiting {s m : State} {r : Nat} (hwait : s.wires.awaiting = []) (hregs : s.regs = m.regs)
    (hr : r < 32) : s.gives r (m.reg r) := by
  rw [State.gives, acquire_of_not_awaiting (by simp [hwait]) hr, State.reg, State.reg, hregs]

/-! ## The load-use pair (R203, R205) -/

section LoadUse

variable {s : State} {rt rs rd : Nat} {imm v : Word} (events : List (List Event))

/-- The `lw` behind its execute stage, with its base read from the register file. -/
def Instance.loadExecuted (s : State) (rt rs : Nat) (imm : Word) : Instance :=
  { Instance.decoded s (.lw rt rs imm) with addr := s.reg rs + imm, dest := some rt }.completing .E

/-- The `lw` behind its memory stage, with the word `v` it has read. -/
def Instance.loadRead (s : State) (rt rs : Nat) (imm v : Word) : Instance :=
  { Instance.loadExecuted s rt rs imm with result := v }.completing .M

/-- The `add` behind the `lw`, before its execute stage. -/
def Instance.useDecoded (s : State) (rd rt : Nat) : Instance :=
  (Instance.fetchedBehind s 1 (.add rd rt rt)).completing .D

/-- The `add` behind its execute stage, with the value `v` for its register. -/
def Instance.useExecuted (s : State) (rd rt : Nat) (v : Word) : Instance :=
  { Instance.useDecoded s rd rt with result := v + v, dest := some rd }.completing .E

/-- The `add` behind its memory stage. -/
def Instance.usePublished (s : State) (rd rt : Nat) (v : Word) : Instance :=
  { Instance.useExecuted s rd rt v with fwd := some (v + v) }.completing .M

/-- Nothing is pending when the `lw` acquires its base; the `add` has an idle decode stage. -/
theorem State.PastEnd.step_loadExecuted (h : s.PastEnd 2) (hrs : rs < 32) :
    step (s.underWay 2 [.decoded s (.lw rt rs imm), .fetchedBehind s 1 (.add rd rt rt)] false events) =
      .next (s.underWay 2 [.loadExecuted s rt rs imm, .useDecoded s rd rt] false
        (events ++ [[⟨.E, s.nextSeq⟩, ⟨.D, s.nextSeq + 1⟩]])) :=
  h.step_pair (gn := idleStage) (next := .E) (next' := .D) rfl rfl
    (lwExecute_of_gives rt imm _ (State.gives_of_none_awaiting rfl rfl hrs)) rfl rfl rfl rfl rfl
    ((s.withStores_advanced ..).trans (s.withStores_underWay ..)) rfl

/-- The stall: the `lw` has its destination pending and has published no value, so the `add` waits. -/
theorem State.PastEnd.step_loadRead (h : s.PastEnd 2) (hrt : rt < 32)
    (hin : (s.reg rs + imm).toNat / 4 < s.params.dmemWords) :
    step (s.underWay 2 [.loadExecuted s rt rs imm, .useDecoded s rd rt] false events) =
      .next (s.underWay 2 [.loadRead s rt rs imm (s.dmem.read ((s.reg rs + imm).toNat / 4)), .useDecoded s rd rt] true
        (events ++ [[⟨.M, s.nextSeq⟩]])) :=
  h.step_waiting (gn := addExecute rd rt rt) rfl rfl (lwMemory_of_lt hin)
    (withRegs_of_notReady _ _ (.inl ⟨acquire_of_unforwarded List.mem_cons_self rfl, hrt⟩)) rfl rfl nofun
    (s.withStores_underWay ..)

/-- The `lw` writes back before the `add` is visited, which reads the loaded value from the register file. -/
theorem State.PastEnd.step_loadRetired (h : s.PastEnd 2) (hrt0 : rt ≠ 0) (hrt : rt < 32) :
    step (s.underWay 2 [.loadRead s rt rs imm v, .useDecoded s rd rt] true events) =
      .next ((s.setReg rt v).underWay 2 [.useExecuted s rd rt v] false
        (events ++ [[⟨.W, s.nextSeq⟩, ⟨.E, s.nextSeq + 1⟩]])) := by
  have hval : (s.setReg rt v).reg rt = v := by rw [State.reg_setReg s rt rt v hrt0 hrt, if_pos rfl]
  have hgives : ∀ t : State, t.wires.awaiting = [] → t.regs = (s.setReg rt v).regs → t.gives rt v :=
    fun t hwait hregs => hval ▸ t.gives_of_none_awaiting hwait hregs hrt
  exact h.step_pair (fn := writebackPublishing) rfl rfl (writebackPublishing_ok rfl (regWrite_of_lt _ _ hrt0 hrt))
    (addExecute_of_gives rd _ (hgives _ rfl rfl) (hgives _ rfl rfl)) rfl rfl rfl rfl
    ((s.withStores_advanced ..).trans (s.withStores_underWay_setReg ..)) rfl

theorem State.PastEnd.step_usePublished {m : State} (h : m.PastEnd 2) :
    step (m.underWay 2 [.useExecuted s rd rt v] false events) =
      .next (m.underWay 2 [.usePublished s rd rt v] false (events ++ [[⟨.M, s.nextSeq + 1⟩]])) :=
  h.step_lone (fn := publishResult) rfl rfl rfl rfl (m.withStores_underWay ..) rfl

theorem State.PastEnd.step_useRetired {m : State} (h : m.PastEnd 2) (hrd0 : rd ≠ 0) (hrd : rd < 32) :
    step (m.underWay 2 [.usePublished s rd rt v] false events) =
      .next ((m.setReg rd (v + v)).underWay 2 [] false (events ++ [[⟨.W, s.nextSeq + 1⟩]])) :=
  h.step_lone (fn := writebackStage) rfl (writebackStage_ok rfl (regWrite_of_lt _ _ hrd0 hrd)) rfl rfl
    (m.withStores_underWay_setReg ..) rfl

end LoadUse

/-- The trace of a load-use pair (R205): in the fourth cycle the second instruction completes no stage. -/
def loadUseTrace (seq : Nat) : List (List Event) :=
  [[⟨.F, seq⟩], [⟨.D, seq⟩, ⟨.F, seq + 1⟩], [⟨.E, seq⟩, ⟨.D, seq + 1⟩], [⟨.M, seq⟩],
    [⟨.W, seq⟩, ⟨.E, seq + 1⟩], [⟨.M, seq + 1⟩], [⟨.W, seq + 1⟩]]

/-- The run of a load-use pair, as a whole state. -/
theorem State.drained.runSteps_loadUse {s : State} {rt rs rd : Nat} {imm v : Word} (hd : s.drained)
    (hend : s.programEndsAfter 2) (hload : s.at (.lw rt rs imm)) (huse : (s.underWay 1 [] false []).at (.add rd rt rt))
    (hrt0 : rt ≠ 0) (hrt : rt < 32) (hrs : rs < 32) (hrd0 : rd ≠ 0) (hrd : rd < 32)
    (hin : (s.reg rs + imm).toNat / 4 < s.params.dmemWords) (hv : s.dmem.read ((s.reg rs + imm).toNat / 4) = v) :
    runSteps 7 s = .next (((s.setReg rt v).setReg rd (v + v)).underWay 2 [] false (loadUseTrace s.nextSeq)) := by
  have h : s.PastEnd 2 := hend.pastEnd hd.1
  rw [hd.runSteps_fetch_pair hload huse rfl, runSteps_of_step (h.step_loadExecuted _ hrs),
    runSteps_of_step (h.step_loadRead _ hrt hin), hv, runSteps_of_step (h.step_loadRetired _ hrt0 hrt),
    runSteps_of_step ((h.setReg rt v).step_usePublished _),
    runSteps_of_step ((h.setReg rt v).step_useRetired _ hrd0 hrd)]
  rfl

/-- Settles O55: the run of the pair as a whole state has its seven cycles, the two register writes, nothing in flight
and the pc past the program. -/
theorem loadUseStallsOneCycle : Obligations.LoadUseStallsOneCycle := by
  unfold Obligations.LoadUseStallsOneCycle
  intro s rt rs rd imm slot hd hend hload hslot huse hrt0 hrt hrs hrd0 hrd hin
  generalize hv : s.dmem.read ((s.reg rs + imm).toNat / 4) = v
  have hat : (s.underWay 1 [] false []).at (.add rd rt rt) := hend.at_second hslot huse
  have h : s.PastEnd 2 := hend.pastEnd hd.1
  have hover := (h.setReg rt v).setReg rd (v + v)
  exact ⟨_, hd.runSteps_loadUse hend hload hat hrt0 hrt hrs hrd0 hrd hin hv, hover.drained, rfl, hover.no_work, rfl⟩

end Sys2Proof.Machine

/-! PROOFS. The stages in which control is transferred (R150 to R156): decode of `j`, `jal`, `jr`, `call` and `return`,
execute of `jal` and `ble`. -/

namespace Sys2Proof.Machine

/-! ## Jumps with a target of their own or in a register (R151 to R153) -/

theorem jrDecode_of_gives {s : State} {rs : Nat} {a : Word} (inst : Instance) (h : s.gives rs a) :
    jrDecode rs s inst = .done (inst.setJump .direct a) s :=
  withReg_of_gives inst _ h

/-- Settles O28: decode of `j` and `jal` always completes, that of `jr` with its register acquired. -/
theorem jumpsSetTheirIntent : Obligations.JumpsSetTheirIntent := by
  unfold Obligations.JumpsSetTheirIntent
  intro rs target a s inst hv
  refine ⟨?_, ?_, fun ha => ?_⟩
  · rw [exec_of_visits hv (f := jDecode target) rfl, jDecode, State.land_done, Instance.setJump]
  · rw [exec_of_visits hv (f := jalDecode target) rfl, jalDecode, State.land_done, Instance.setJump, nextAddress]
  · rw [exec_of_visits hv (f := jrDecode rs) rfl, jrDecode_of_gives inst ha, State.land_done, Instance.setJump]

/-- Settles O29. -/
theorem jalExecutePublishesTheLink : Obligations.JalExecutePublishesTheLink := by
  unfold Obligations.JalExecutePublishesTheLink
  intro target s inst hv
  rw [exec_of_visits hv (f := jalExecute) rfl, jalExecute, State.land_done]

/-! ## The return-address stack at decode (R154, R155) -/

theorem rasFull_of_length_eq {s : State} {d : Nat} (hdepth : s.params.rasDepth = some d) (hlen : s.ras.length = d) :
    rasFull s = true := by
  rw [← Bool.not_eq_false, rasFull_eq_false_iff]
  exact fun hroom => absurd hlen (hroom d hdepth).ne

theorem callDecode_of_not_full {s : State} (target : Word) (inst : Instance) (h : rasFull s = false) :
    callDecode target s inst =
      .done (inst.setJump .masked target) { s with ras := s.ras ++ [nextAddress inst.pcSnap] } := by
  rw [callDecode, rasPush_of_not_full _ h]

theorem callDecode_of_full {s : State} (target : Word) (inst : Instance) (h : rasFull s = true) :
    callDecode target s inst = .raise (.stackOverflow inst.seq inst.index) := by
  rw [callDecode, rasPush_of_full _ h]
  rfl

theorem retDecode_of_append {s : State} {older : List Word} {a : Word} (inst : Instance) (h : s.ras = older ++ [a]) :
    retDecode s inst = .done (inst.setJump .direct a) { s with ras := older } := by
  rw [retDecode, rasPop_of_append h]

theorem retDecode_of_nil {s : State} (inst : Instance) (h : s.ras = []) :
    retDecode s inst = .raise (.stackUnderflow inst.seq inst.index) := by
  rw [retDecode, rasPop_of_nil h]
  rfl

/-- Settles O30: below the depth the push succeeds; at the depth the RAS is full. -/
theorem callPushesTheReturnAddress : Obligations.CallPushesTheReturnAddress := by
  unfold Obligations.CallPushesTheReturnAddress
  intro target s inst hv
  rw [exec_of_visits hv (f := callDecode target) rfl]
  refine ⟨fun hroom => ?_, fun d hdepth hlen => ?_⟩
  · rw [callDecode_of_not_full target inst ((rasFull_eq_false_iff s).2 hroom), State.land_done, Instance.setJump,
      nextAddress]
  · rw [callDecode_of_full target inst (rasFull_of_length_eq hdepth hlen), State.land_raise, State.raise]

/-- Settles O31: the pop answers the last entry, or there is none. -/
theorem returnPopsTheNewestEntry : Obligations.ReturnPopsTheNewestEntry := by
  unfold Obligations.ReturnPopsTheNewestEntry
  intro s inst hv
  rw [exec_of_visits hv (f := retDecode) rfl]
  refine ⟨fun older a hras => ?_, fun hnil => ?_⟩
  · rw [retDecode_of_append inst hras, State.land_done, Instance.setJump]
  · rw [retDecode_of_nil inst hnil, State.land_raise, State.raise]

/-! ## Execute of `ble` (R156, R218, R220) -/

theorem signedLessEq_of_le {a b : Word} (h : a.toInt ≤ b.toInt) : signedLessEq a b = true := decide_eq_true h

theorem signedLessEq_of_gt {a b : Word} (h : b.toInt < a.toInt) : signedLessEq a b = false :=
  decide_eq_false (Int.not_le.2 h)

theorem bleCorrected_of_right {inst : Instance} {actual : Bool} (h : inst.pred = actual) :
    bleCorrected inst actual = inst := if_pos h.symm

theorem bleCorrected_of_missed {inst : Instance} (h : inst.pred = false) :
    bleCorrected inst true = inst.setJump .direct inst.btarget := by
  simp [bleCorrected, h]

theorem bleCorrected_of_mistaken {inst : Instance} (h : inst.pred = true) :
    bleCorrected inst false = inst.setJump .direct inst.fall := by
  simp [bleCorrected, h]

theorem bleExecute_of_gives {s : State} {rs rt : Nat} {a b : Word} (inst : Instance) (ha : s.gives rs a)
    (hb : s.gives rt b) : bleExecute rs rt s inst =
      .done (bleCorrected inst (signedLessEq a b)) (btbUpdate s inst.pcSnap inst.btarget (signedLessEq a b)) :=
  withRegs_of_gives inst _ ha hb

/-- Settles O33: the outcome is the signed comparison, and the correction is by outcome and prediction. -/
theorem branchExecuteCorrectsAndUpdates : Obligations.BranchExecuteCorrectsAndUpdates := by
  unfold Obligations.BranchExecuteCorrectsAndUpdates
  intro rs rt imm a b s inst hv ha hb
  rw [exec_of_visits hv (f := bleExecute rs rt) rfl, bleExecute_of_gives inst ha hb, State.land_done]
  refine ⟨fun hle hpred => ?_, fun hgt hpred => ?_, fun hle hpred => ?_, fun hgt hpred => ?_⟩
  · rw [signedLessEq_of_le hle, bleCorrected_of_right hpred]
  · rw [signedLessEq_of_gt hgt, bleCorrected_of_right hpred]
  · rw [signedLessEq_of_le hle, bleCorrected_of_missed hpred, Instance.setJump]
  · rw [signedLessEq_of_gt hgt, bleCorrected_of_mistaken hpred, Instance.setJump]

end Sys2Proof.Machine

/-! PROOFS. The run of one jump alone in the pipeline (R150 to R155, R160, R187): the engine honors the intent in the
cycle of decode (R177), and the three cycles that follow find the pc at the target, outside the program. -/

namespace Sys2Proof.Machine

/-! ## Where an intent leads (R177, R221) -/

/-- The pc that the intent, when honored, makes of `p` (R221). -/
def JumpIntent.pcFrom (j : JumpIntent) (p : Word) : Word :=
  match j.kind with
  | .direct => j.target
  | .masked => (p &&& 0xF0000000) ||| (j.target &&& 0x0FFFFFFF)

theorem applyJump_pc (s : State) (j : JumpIntent) : (applyJump s j).pc = j.pcFrom s.pc := by
  unfold applyJump JumpIntent.pcFrom
  cases j.kind <;> rfl

theorem and_lowMask_of_lt {p : Word} (h : p.toNat < 2 ^ 28) : p &&& 0x0FFFFFFF = p := by
  have hmask : (0x0FFFFFFF : Word).toNat = 2 ^ 28 - 1 := rfl
  rw [← BitVec.toNat_inj, BitVec.toNat_and, hmask, Nat.and_two_pow_sub_one_of_lt_two_pow h]

theorem and_highMask_of_lt {p : Word} (h : p.toNat < 2 ^ 28) : p &&& 0xF0000000 = 0 := by
  have hdisjoint : (0x0FFFFFFF : Word) &&& 0xF0000000 = 0 := by decide
  rw [← and_lowMask_of_lt h, BitVec.and_assoc, hdisjoint]
  exact BitVec.and_zero

/-- Below 2^28 a masked jump leads to its target, as a direct one does everywhere. -/
theorem JumpIntent.pcFrom_masked_of_lt {p target : Word} (taken : Bool) (hp : p.toNat < 2 ^ 28)
    (htarget : target.toNat < 2 ^ 28) : JumpIntent.pcFrom ⟨.masked, target, taken⟩ p = target := by
  change (p &&& 0xF0000000) ||| (target &&& 0x0FFFFFFF) = target
  rw [and_highMask_of_lt hp, and_lowMask_of_lt htarget]
  exact BitVec.zero_or

/-- The pc behind the bookkeeping of the instance, if no other has jumped: that of its intent if there is one to honor,
else the pc as it was. -/
def Instance.pcFrom (inst : Instance) (p : Word) : Word :=
  match inst.jump with
  | some j => if j.taken then j.pcFrom p else p
  | none => p

/-- `inst` with its intent, if it has one, honored. -/
def Instance.spent (inst : Instance) : Instance :=
  { inst with jump := inst.jump.map fun j => { j with taken := false } }

theorem Instance.spent_honored (inst : Instance) : inst.spent.Honored := by
  intro j h
  obtain ⟨j', -, rfl⟩ := Option.map_eq_some_iff.1 h
  rfl

theorem Instance.pcFrom_of_taken {inst : Instance} {j : JumpIntent} (p : Word) (hj : inst.jump = some j)
    (ht : j.taken = true) : inst.pcFrom p = j.pcFrom p := by
  simp [Instance.pcFrom, hj, ht]

theorem Instance.Honored.pcFrom_eq {inst : Instance} (h : inst.Honored) (p : Word) : inst.pcFrom p = p := by
  unfold Instance.pcFrom
  split
  next j hj => simp [h j hj]
  next => rfl

theorem Instance.Honored.spent_eq {inst : Instance} (h : inst.Honored) : inst.spent = inst := by
  have hjump : (inst.jump.map fun j => { j with taken := false }) = inst.jump := by
    cases hj : inst.jump with
    | none => rfl
    | some j => rw [Option.map_some, ← h j hj]
  rw [Instance.spent, hjump]

/-- The bookkeeping of an advanced instance when no other has jumped in this cycle (R176, R177). -/
theorem settle_of_unjumped {s : State} (k : Nat) (inst : Instance) (next : Stage) (hs : s.wires.jumped = false) :
    ∃ wires, wires.stalled = s.wires.stalled ∧ wires.events = s.wires.events ++ [⟨next, inst.seq⟩] ∧
      settle s k inst next = { s with
        pc := inst.pcFrom s.pc, window := s.window.set k (inst.spent.completing next), wires := wires } := by
  refine ⟨(settle s k inst next).wires, ?_⟩
  rcases settle_cases s k inst next with ⟨j, hj, ht, -, e⟩ | ⟨hnot, e⟩ <;> rw [e] <;>
    refine ⟨hazardUpdate_stalled _ _, rfl, ?_⟩
  · rw [inst.pcFrom_of_taken s.pc hj ht, applyJump_pc, Instance.spent, hj]
    rfl
  · have hhonored : inst.Honored := fun j hj =>
      Bool.eq_false_iff.2 fun ht => Bool.false_ne_true (hs.symm.trans (hnot j hj ht))
    rw [hhonored.pcFrom_eq, hhonored.spent_eq]
    rfl

/-! ## A cycle of a lone instance that may jump (R178 to R182) -/

theorem State.squash_window_of_lone {s : State} {inst : Instance} (h : s.window = [inst]) :
    s.squash.window = [inst] := by
  unfold State.squash
  split <;> simp [h]

/-- The end of a cycle with one instance in flight and the pc, jumped to or not, outside the program. -/
theorem State.finish_of_lone_past {s : State} {inst : Instance} (hwindow : s.window = [inst])
    (hpast : fetchable s = false) : s.finish = { s with
      window := if inst.stage = .W then [] else [inst]
      stalledPrev := s.wires.stalled && !s.wires.jumped
      cycle := s.cycle + 1
      trace := s.trace ++ [s.wires.events]
      wires := Wires.idle } := by
  rw [State.finish_eq, State.finish_pc, State.finish_window,
    State.retire_window_cons (State.squash_window_of_lone hwindow), hpast]
  simp

/-- `s` with its pc such that `State.loneRun`, which is 4 past it, stands at `pc`: a run that has jumped there. -/
def State.sentTo (s : State) (pc : Word) : State := { s with pc := pc - 4 }

theorem State.loneRun_sentTo (s : State) (pc : Word) (inst : Instance) :
    (s.sentTo pc).loneRun inst = { s.loneRun inst with pc := pc } := by
  simp [State.loneRun, State.sentTo]

theorem State.sentTo_self (s : State) : s.sentTo (s.pc + 4) = s := by
  simp [State.sentTo]

/-- The sweep of a lone instance whose next stage function is done: the pc is that of its intent, if it has left one. -/
theorem State.RunsAlone.sweep_eq {s w : State} {i : Instr} {inst inst' : Instance} {fn : StageFn} {next : Stage}
    (h : s.RunsAlone i inst) (hfn : stageFnOf i inst.stage = some fn)
    (hdone : fn (s.loneView inst) inst = .done inst' w) (hnext : inst.stage.next = some next) :
    ∃ wires, wires.stalled = false ∧ wires.events = [⟨next, inst.seq⟩] ∧
      sweep (s.loneRun inst).window 0 (s.loneRun inst).clearHazards = .next { (s.loneRun inst).withStores w with
        pc := inst'.pcFrom (s.pc + 4), window := [inst'.spent.completing next], wires := wires } := by
  obtain ⟨hs, -, -, rfl, -, -⟩ := h
  have hwindow : (s.loneRun inst).window = [inst] := if_neg (Stage.next_eq_some hnext).1
  have heffect : StageEffect inst.instr (s.loneView inst) inst inst' w := stage_done hfn hdone
  obtain ⟨-, -, -, hseq⟩ := heffect.named
  have hw : w = (s.loneView inst).withStores w := heffect.eq_withStores
  have hwf : w.fault = none := by rw [hw]; exact hs
  have hwwires : w.wires = (s.loneView inst).wires := heffect.wires_eq
  obtain ⟨wires, hstalled, hevents, hsettle⟩ :=
    settle_of_unjumped (s := w.visit inst') 0 inst' next (congrArg Wires.jumped hwwires)
  refine ⟨wires, hstalled.trans (congrArg Wires.stalled hwwires), ?_, ?_⟩
  · rw [hevents, hseq, State.visit_wires, hwwires]
    rfl
  · rw [hwindow, sweep_cons_of_done [] 0 hfn hdone hwf hnext, sweep, hsettle, hw, State.visit_window]
    simp [State.withStores, State.loneView, hwindow]
    rfl

/-- A further cycle of a run of one instruction: the next stage function is done, and the intent that it may have left
leads out of the program. -/
theorem State.RunsAlone.step_sentTo {s w : State} {i : Instr} {inst inst' : Instance} {fn : StageFn} {next : Stage}
    {pc : Word} (h : s.RunsAlone i inst) (hfn : stageFnOf i inst.stage = some fn)
    (hdone : fn (s.loneView inst) inst = .done inst' w) (hnext : inst.stage.next = some next)
    (hpc : inst'.pcFrom (s.pc + 4) = pc) (hout : s.imem.length ≤ wordIndex pc) :
    step (s.loneRun inst) = .next (((s.withStores w).sentTo pc).loneRun (inst'.spent.completing next)) ∧
      ((s.withStores w).sentTo pc).RunsAlone i (inst'.spent.completing next) := by
  obtain ⟨wires, hunstalled, hevents, hsweep⟩ := h.sweep_eq hfn hdone hnext
  obtain ⟨hs, hstalled, hpast, rfl, hseq, hfetched⟩ := h
  obtain ⟨hunretired, hnextfetched⟩ := Stage.next_eq_some hnext
  obtain ⟨hinstr, -, -, hseq'⟩ := (stage_done hfn hdone).named
  have halone : (s.loneRun inst).Alone inst := ⟨hs, if_neg hunretired, decide_eq_false (Nat.not_lt.2 hpast)⟩
  have hreach : wordIndex pc = wordIndex (pc - 4 + 4) := by rw [BitVec.sub_add_cancel]
  rw [hpc] at hsweep
  refine ⟨halone.step_eq.trans ((afterIssue_of_finished (u := { s.loneRun inst with wires := Wires.idle }) hs hsweep
    hs).trans ?_), hs, hstalled, hreach ▸ hout, hinstr, hseq'.trans hseq, hnextfetched⟩
  rw [State.finish_of_lone_past rfl (decide_eq_false (Nat.not_lt.2 hout)), State.loneRun_sentTo]
  simp only [State.loneRun, State.withStores, Instance.completing, hstalled, hunstalled, hevents, hseq,
    Stage.rank_next hnext, loneTrace_take_rank_succ s.nextSeq hfetched hnext, List.append_assoc, Nat.add_assoc]
  rfl

/-- A further cycle that has no intent left to honor. -/
theorem State.RunsAlone.step_honored {s w : State} {i : Instr} {inst inst' : Instance} {fn : StageFn} {next : Stage}
    (h : s.RunsAlone i inst) (hfn : stageFnOf i inst.stage = some fn)
    (hdone : fn (s.loneView inst) inst = .done inst' w) (hjump : inst'.Honored)
    (hnext : inst.stage.next = some next) :
    step (s.loneRun inst) = .next ((s.withStores w).loneRun (inst'.completing next)) ∧
      (s.withStores w).RunsAlone i (inst'.completing next) := by
  have hcycle := h.step_sentTo hfn hdone hnext (hjump.pcFrom_eq _) h.past
  rwa [hjump.spent_eq, show (s.withStores w).sentTo (s.pc + 4) = s.withStores w from State.sentTo_self _] at hcycle

/-! ## The five cycles of a jump out of the program (R160, R187) -/

/-- The instance of a jump behind its decode stage, with its intent honored. -/
def Instance.jumped (decoded : Instance) : Instance := decoded.spent.completing .D

/-- The five cycles of a jump: `d` is the state its decode stage leaves, `w` the one its writeback leaves. -/
theorem State.drained.runSteps_jump {s d m w : State} {i : Instr} {j : JumpIntent} {target : Word}
    {decoded executed retired : Instance} (hd : s.drained) (hat : s.at i) (hend : s.programEndsAfter 1)
    (hdecode : decodeOf i (s.loneView (.fetched s i)) (.fetched s i) = .done decoded d)
    (hjump : decoded.jump = some j) (htaken : j.taken = true) (hpc : j.pcFrom (s.pc + 4) = target)
    (hout : s.imem.length ≤ wordIndex target) (hm : m = (s.withStores d).sentTo target)
    (hexecute : executeOf i (m.loneView decoded.jumped) decoded.jumped = .done executed (m.loneView decoded.jumped))
    (hhonored : executed.Honored) (hmemory : memoryOf i = idleStage)
    (hwriteback : writebackOf i (m.loneView (executed.completing .M)) (executed.completing .M) = .done retired w) :
    runSteps 5 s = .next ((s.withStores w).afterLoneRun target) := by
  have hwindow : s.window = [] := hd.2.1
  have hretired : retired.Honored := fun j' hj' =>
    hhonored j' (((stage_done (i := i) rfl hwriteback).jump_eq nofun nofun).symm.trans hj')
  obtain ⟨hF, rF⟩ := hd.step_loneRun hat hend
  obtain ⟨hD, rD⟩ := rF.step_sentTo (next := .D) rfl hdecode rfl ((decoded.pcFrom_of_taken _ hjump htaken).trans hpc)
    hout
  rw [← hm] at hD rD
  obtain ⟨hE, rE⟩ := rD.step_honored (next := .E) rfl hexecute hhonored rfl
  rw [State.withStores_loneView] at hE rE
  obtain ⟨hM, rM⟩ := rE.step_honored (next := .M) rfl (congrFun₂ hmemory _ _) hhonored rfl
  rw [State.withStores_loneView] at hM rM
  obtain ⟨hW, -⟩ := rM.step_honored (next := .W) rfl hwriteback hretired rfl
  have hstores : m.withStores w = (s.withStores w).sentTo target := by rw [hm]; rfl
  rw [runSteps_of_step hF, runSteps_of_step hD, runSteps_of_step hE, runSteps_of_step hM, runSteps_of_step hW, hstores,
    State.loneRun_sentTo, State.loneRun_of_retired (s := s.withStores w) hwindow rfl]
  rfl

/-- The five cycles of a jump that writes no register: every stage but decode is idle. -/
theorem State.drained.runSteps_jump_idle {s d : State} {i : Instr} {kind : JumpKind} {target : Word}
    (hd : s.drained) (hat : s.at i) (hend : s.programEndsAfter 1)
    (hdecode : decodeOf i (s.loneView (.fetched s i)) (.fetched s i) =
      .done ((Instance.fetched s i).setJump kind target) d)
    (hpc : JumpIntent.pcFrom ⟨kind, target, true⟩ (s.pc + 4) = target) (hout : s.imem.length ≤ wordIndex target)
    (hexecute : executeOf i = idleStage) (hmemory : memoryOf i = idleStage) :
    runSteps 5 s = .next ((s.withStores d).afterLoneRun target) := by
  rw [hd.runSteps_jump hat hend hdecode rfl rfl hpc hout rfl (congrFun₂ hexecute _ _)
    ((Instance.fetched s i).setJump kind target).spent_honored hmemory (writebackOf_no_dest i _ rfl)]
  rfl

/-- The `jal` behind its decode stage, before its intent is honored. -/
def Instance.jalDecoded (s : State) (target : Word) : Instance :=
  { Instance.fetched s (.jal target) with link := s.pc + 4 }.setJump .masked target

/-- The `jal` behind its execute stage. -/
def Instance.jalExecuted (s : State) (target : Word) : Instance :=
  { (Instance.jalDecoded s target).jumped with dest := some 31, result := s.pc + 4, fwd := some (s.pc + 4) }

/-- The five cycles of `jal`, whose execute stage gives it register 31 as its destination (R152). -/
theorem State.drained.runSteps_jal {s : State} {target : Word} (hd : s.drained) (hat : s.at (.jal target))
    (hend : s.programEndsAfter 1) (hpc : JumpIntent.pcFrom ⟨.masked, target, true⟩ (s.pc + 4) = target)
    (hout : s.imem.length ≤ wordIndex target) :
    runSteps 5 s = .next ((s.setReg 31 (s.pc + 4)).afterLoneRun target) := by
  obtain ⟨retired, hwriteback⟩ := writebackOf_commits (.jal target)
    ((s.sentTo target).loneView ((Instance.jalExecuted s target).completing .M))
    (inst := (Instance.jalExecuted s target).completing .M) rfl (by decide) (by decide)
  exact hd.runSteps_jump hat hend (d := s.loneView _) (decoded := .jalDecoded s target) rfl rfl rfl hpc hout rfl rfl
    (Instance.jalDecoded s target).spent_honored rfl hwriteback

theorem toNat_add_four_lt {p : Word} (h : p.toNat / 4 + 1 < 2 ^ 26) : (p + 4).toNat < 2 ^ 28 := by
  have hfour : (4 : Word).toNat = 4 := rfl
  rw [BitVec.toNat_add, hfour]
  omega

/-- Settles O52: decode sets the intent, and of the later stages only execute and writeback of `jal` do anything. -/
theorem loneJumpRetires : Obligations.LoneJumpRetires := by
  unfold Obligations.LoneJumpRetires
  intro s rs target a older hd hend hlow hout hhigh houta
  have hmasked : JumpIntent.pcFrom ⟨.masked, target, true⟩ (s.pc + 4) = target :=
    JumpIntent.pcFrom_masked_of_lt true (toNat_add_four_lt hlow) hhigh
  refine ⟨fun hat => ?_, fun hat => ?_, fun hat hrs ha => ?_, fun hat hroom => ?_, fun hat hras => ?_⟩
  · exact hd.runSteps_jump_idle hat hend (d := s.loneView _) rfl hmasked hout rfl rfl
  · exact hd.runSteps_jal hat hend hmasked hout
  · have hgives : (s.loneView (.fetched s (.jr rs))).gives rs a := ha ▸ s.loneView_gives _ hrs
    exact hd.runSteps_jump_idle hat hend (d := s.loneView _) (jrDecode_of_gives _ hgives) rfl houta rfl rfl
  · exact hd.runSteps_jump_idle hat hend (callDecode_of_not_full target _ hroom) hmasked hout rfl rfl
  · exact hd.runSteps_jump_idle hat hend (retDecode_of_append _ hras) rfl houta rfl rfl

end Sys2Proof.Machine

/-! PROOFS. The pc stays four above the instance that waits for decode (R188): the sweep takes the pc it began with as
the fetched instance's own, and a jump, which only an older instance can make, squashes that instance. -/

namespace Sys2Proof.Machine

/-! ## The pc in the sweep -/

/-- Where the fetched instance stands to the pc `p` that a sweep began with, when the instances `advanced` are past it
and `left` still to visit. Before a jump the pc is still `p`, and it was read by the instance that completed its fetch,
within the program; a jump leaves none that did up to the cut. -/
structure State.FetchStands (p : Word) (advanced left : List Instance) (s : State) : Prop where
  unjumped : s.wires.jumped = false → s.pc = p ∧
    ∀ inst ∈ advanced, inst.stage = .F → inst.pcSnap = p ∧ wordIndex p < s.imem.length
  jumped : s.wires.jumped = true → ∃ c, s.wires.cut = some c ∧ c < advanced.length ∧
    ∀ inst ∈ advanced.take (c + 1), inst.stage ≠ .F
  unfetched : ∀ inst ∈ left, inst.stage = .PF → wordIndex p < s.imem.length
  waiting : ∀ inst ∈ left, inst.stage = .F → p = inst.pcSnap + 4

/-- The instances past the sweep are more than a stage ahead of those still to visit. -/
theorem State.SweepStands.rank_gap {w advanced left : List Instance} {s : State} (h : s.SweepStands w advanced left)
    (hw : StagesFall w) {a b : Instance} (ha : a ∈ advanced) (hb : b ∈ left) : b.stage.rank + 1 < a.stage.rank :=
  (List.pairwise_append.1 (h.due_fall hw)).2.2 _ (List.mem_map_of_mem ha) _
    (List.mem_map_of_mem (f := fun inst : Instance => inst.stage.rank + 1) hb)

theorem Stage.rank_eq_one {a : Stage} : a.rank = 1 ↔ a = .F := by
  cases a <;> decide

/-- The instance that a sweep has last come past is the one that was put into its place. -/
theorem State.SweepStands.last_eq {w advanced rest : List Instance} {inst last last' : Instance} {s t : State}
    (h : s.SweepStands w advanced (inst :: rest)) (hwindow : t.window = s.window.set advanced.length last)
    (ht : t.SweepStands w (advanced ++ [last']) rest) : last' = last := by
  have hplaced := hwindow.symm.trans ht.window
  rw [h.window] at hplaced
  simpa using hplaced.symm

/-- An intent that the sweep honors was set in this cycle, by a decode or an execute stage (R150, R177). -/
theorem State.SweepStands.taken_stage {w advanced rest : List Instance} {inst inst' : Instance} {s u : State}
    {j : JumpIntent} (h : s.SweepStands w advanced (inst :: rest)) (hs : s.wires.jumped = false)
    (hu : StageEffect inst.instr (s.visit inst) inst inst' u) (hj : inst'.jump = some j) (ht : j.taken = true) :
    inst.stage = .F ∨ inst.stage = .D := by
  rcases hu.intent with hsame | hst
  · have hhonored : inst.Honored := h.unjumped hs inst (by simp [h.window])
    exact absurd (hhonored j (hsame ▸ hj)) (by simp [ht])
  · exact hst

@[simp] theorem settle_stalled (s : State) (k : Nat) (inst : Instance) (next : Stage) :
    (settle s k inst next).wires.stalled = s.wires.stalled := by
  rcases settle_cases s k inst next with ⟨j, -, -, -, e⟩ | ⟨-, e⟩ <;> rw [e] <;> exact hazardUpdate_stalled _ _

/-- The next instance `inst` is put back as `last` and has honored its jump: neither it nor an older one has just been
fetched. -/
theorem State.FetchStands.jump {p : Word} {advanced rest : List Instance} {inst last : Instance} {s t : State}
    (h : s.FetchStands p advanced (inst :: rest)) (himem : t.imem = s.imem) (hjumped : t.wires.jumped = true)
    (hcut : t.wires.cut = some advanced.length) (hpast : ∀ a ∈ advanced ++ [last], a.stage ≠ .F) :
    t.FetchStands p (advanced ++ [last]) rest where
  unjumped := fun hno => absurd (hjumped.symm.trans hno) Bool.noConfusion
  jumped := fun _ => ⟨advanced.length, hcut, by simp, fun a ha => hpast a (List.mem_of_mem_take ha)⟩
  unfetched := fun a ha => himem ▸ h.unfetched a (List.mem_cons_of_mem _ ha)
  waiting := fun a ha => h.waiting a (List.mem_cons_of_mem _ ha)

/-- The next instance `inst` is put back as `last` and the pc stays: if it has just been fetched, it has read the pc. -/
theorem State.FetchStands.advance {p : Word} {advanced rest : List Instance} {inst last : Instance} {s t : State}
    (h : s.FetchStands p advanced (inst :: rest)) (himem : t.imem = s.imem) (hpc : t.pc = s.pc)
    (hjumped : t.wires.jumped = s.wires.jumped) (hcut : t.wires.cut = s.wires.cut)
    (hfetch : last.stage = .F → inst.stage = .PF ∧ last.pcSnap = s.pc) :
    t.FetchStands p (advanced ++ [last]) rest where
  unjumped := by
    intro hno
    obtain ⟨hp, hfetched⟩ := h.unjumped (hjumped ▸ hno)
    refine ⟨hpc.trans hp, fun a ha hF => ?_⟩
    rw [himem]
    rcases List.mem_append.1 ha with ha | ha
    · exact hfetched a ha hF
    · rw [List.mem_singleton.1 ha] at hF ⊢
      obtain ⟨hPF, hsnap⟩ := hfetch hF
      exact ⟨hsnap.trans hp, h.unfetched inst List.mem_cons_self hPF⟩
  jumped := by
    intro hyes
    obtain ⟨c, hc, hlt, hkept⟩ := h.jumped (hjumped ▸ hyes)
    exact ⟨c, hcut.trans hc, by simp; omega, by rwa [List.take_append_of_le_length hlt]⟩
  unfetched := fun a ha => himem ▸ h.unfetched a (List.mem_cons_of_mem _ ha)
  waiting := fun a ha => h.waiting a (List.mem_cons_of_mem _ ha)

/-- The bookkeeping of the next instance, whether its jump is honored or not. -/
theorem State.FetchStands.settle {p : Word} {w advanced rest : List Instance} {inst inst' : Instance} {s u : State}
    {next : Stage} (h : s.FetchStands p advanced (inst :: rest)) (hstands : s.SweepStands w advanced (inst :: rest))
    (hw : StagesFall w) (hu : StageEffect inst.instr (s.visit inst) inst inst' u)
    (hnext : inst.stage.next = some next) :
    ∃ last, (Machine.settle (u.visit inst') advanced.length inst' next).SweepStands w (advanced ++ [last]) rest ∧
      (Machine.settle (u.visit inst') advanced.length inst' next).FetchStands p (advanced ++ [last]) rest := by
  obtain ⟨last, hlast⟩ := hstands.settle hu hnext
  refine ⟨last, hlast, ?_⟩
  have hrank := Stage.rank_next hnext
  have hwindow : (u.visit inst').window = s.window := hu.window_eq
  have himem : (u.visit inst').imem = s.imem := hu.sameRun.imem
  have hwires : u.wires = (s.visit inst).wires := hu.wires_eq
  rcases settle_cases (u.visit inst') advanced.length inst' next with ⟨j, hj, ht, hno, e⟩ | ⟨-, e⟩
  · have hlastEq := hstands.last_eq (by rw [e, ← hwindow]) hlast
    refine h.jump ((settle_imem ..).trans himem) (by rw [e]) (by rw [e]) fun a ha hF => ?_
    have hst : 1 ≤ inst.stage.rank := by
      rcases hstands.taken_stage (by simpa [hwires] using hno) hu hj ht with hst | hst <;> rw [hst] <;> decide
    have hone := Stage.rank_eq_one.2 hF
    rcases List.mem_append.1 ha with ha | ha
    · have := hstands.rank_gap hw ha List.mem_cons_self
      omega
    · rw [List.mem_singleton.1 ha, hlastEq] at hone
      exact absurd (hone.symm.trans hrank) (by omega)
  · have hlastEq := hstands.last_eq (by rw [e, ← hwindow]) hlast
    refine h.advance ((settle_imem ..).trans himem) (by rw [e]; exact hu.pc_eq) (by simp [e, hwires])
      (by simp [e, hwires]) fun hF => ?_
    rw [hlastEq] at hF ⊢
    have hone : next.rank = 1 := Stage.rank_eq_one.2 hF
    have hPF : inst.stage = .PF := Stage.rank_eq_zero.1 (by omega)
    have hsnap := hu.pcSnap
    rw [if_pos hPF] at hsnap
    exact ⟨hPF, hsnap⟩

/-! ## The pc at the end of the cycle (R180, R181) -/

/-- A sweep that comes to its end leaves the fetched instance four below the pc that the cycle ends with. -/
theorem State.FetchStands.finish_pc {p : Word} {w advanced : List Instance} {s : State}
    (h : s.FetchStands p advanced []) (hstands : s.SweepStands w advanced []) (hstalled : s.wires.stalled = false) :
    ∀ inst ∈ s.squash.window, inst.stage = .F → s.finish.pc = inst.pcSnap + 4 := by
  intro inst hinst hF
  have hwindow : s.window = advanced := hstands.window.trans (List.append_nil _)
  cases hjumped : s.wires.jumped with
  | false =>
    obtain ⟨hp, hfetched⟩ := h.unjumped hjumped
    rw [State.squash_window_of_unjumped hjumped, hwindow] at hinst
    obtain ⟨hsnap, hin⟩ := hfetched inst hinst hF
    simp [State.finish_pc, hjumped, hstalled, fetchable, hp, hin, hsnap]
  | true =>
    obtain ⟨c, hcut, -, hkept⟩ := h.jumped hjumped
    rw [State.squash_window_of_jumped hjumped hcut, hwindow] at hinst
    exact absurd hF (hkept inst hinst)

/-- A sweep that stops at a stalled instance has not come to the unfetched one, and the pc stays (R175, R180). -/
theorem State.FetchStands.finish_pc_of_stalled {p : Word} {w advanced rest : List Instance} {inst : Instance}
    {s : State} (h : s.FetchStands p advanced (inst :: rest)) (hstands : s.SweepStands w advanced (inst :: rest))
    (hw : StagesFall w) (hstalled : s.wires.stalled = true) :
    ∀ a ∈ s.squash.window, a.stage = .F → s.finish.pc = a.pcSnap + 4 := by
  intro a ha hF
  cases hjumped : s.wires.jumped with
  | false =>
    obtain ⟨hp, -⟩ := h.unjumped hjumped
    rw [State.squash_window_of_unjumped hjumped, hstands.window] at ha
    rcases List.mem_append.1 ha with ha | ha
    · have := hstands.rank_gap hw ha List.mem_cons_self
      rw [Stage.rank_eq_one.2 hF] at this
      omega
    · simp [State.finish_pc, hstalled, hp, h.waiting a ha hF]
  | true =>
    obtain ⟨c, hcut, hlt, hkept⟩ := h.jumped hjumped
    rw [State.squash_window_of_jumped hjumped hcut, hstands.window, List.take_append_of_le_length hlt] at ha
    exact absurd hF (hkept a ha)

theorem sweep_finish_pc {p : Word} {w : List Instance} {s t : State} (hw : StagesFall w) (hs : s.fault = none)
    (hbegin : s.SweepStands w [] w) (hfetch : s.FetchStands p [] w) (hstalled : s.wires.stalled = false)
    (h : sweep w 0 s = .next t) (ht : t.fault = none) :
    ∀ inst ∈ t.squash.window, inst.stage = .F → t.finish.pc = inst.pcSnap + 4 := by
  refine sweep_induct_cases
    (P := fun left k u => ∃ advanced, advanced.length = k ∧ u.SweepStands w advanced left ∧
      u.FetchStands p advanced left ∧ u.wires.stalled = false)
    (Q := fun v => v.fault = none → ∀ inst ∈ v.squash.window, inst.stage = .F → v.finish.pc = inst.pcSnap + 4)
    ?_ ?_ ?_ ?_ w 0 s t ⟨[], rfl, hbegin, hfetch, hstalled⟩ hs h ht
  · rintro k u ⟨advanced, -, hstands, hu, hno⟩ - -
    exact hu.finish_pc hstands hno
  · rintro inst rest k u fn f - - - - hnone
    cases hnone
  · rintro inst rest k u ⟨advanced, -, hstands, hu, -⟩ - - -
    exact State.FetchStands.finish_pc_of_stalled ⟨hu.unjumped, hu.jumped, hu.unfetched, hu.waiting⟩
      ⟨hstands.window, hstands.ranks, hstands.seqs, hstands.unjumped, hstands.jumped⟩ hw rfl
  · rintro inst rest k u inst' v next ⟨advanced, rfl, hstands, hu, hno⟩ - hv hnext
    obtain ⟨last, hstands', hu'⟩ := hu.settle hstands hw hv hnext
    have hwires : v.wires = (u.visit inst).wires := hv.wires_eq
    exact ⟨advanced ++ [last], by simp, hstands', hu', by simp [hwires, hno]⟩

/-! ## The step -/

/-- Behind the issue step an unfetched instance is one of the instruction at the pc, and one that waits for its decode
stage was there before (R172, R181). -/
theorem State.IssuesTo.fetchStands {s u : State} (h : s.IssuesTo u) (hs : s.fault = none) (hpred : s.PredictorInv)
    (hpc : s.PcFollowsFetch) : u.clearHazards.FetchStands s.pc [] u.window where
  unjumped := fun _ => ⟨by rcases h with ⟨rfl, -⟩ | ⟨i, -, -, rfl⟩ <;> rfl, by simp⟩
  jumped := fun hyes => by cases hyes
  unfetched := by
    intro inst hinst hPF
    have himem : u.clearHazards.imem = s.imem := by rcases h with ⟨rfl, -⟩ | ⟨i, -, -, rfl⟩ <;> rfl
    have hslot : ∃ slot, s.imem[wordIndex s.pc]? = some slot := by
      rcases h.mem_window hinst with hold | ⟨i, ⟨slot, hslot, -⟩, -⟩
      · have hprog := hpred.instances hs inst hold
        obtain ⟨slot, hslot, -⟩ := hprog.copied
        exact ⟨slot, hprog.unfetched hPF ▸ hslot⟩
      · exact ⟨slot, hslot⟩
    obtain ⟨slot, hslot⟩ := hslot
    rw [himem]
    exact (List.getElem?_eq_some_iff.1 hslot).1
  waiting := by
    intro inst hinst hF
    rcases h.mem_window hinst with hold | ⟨i, -, rfl⟩
    · exact hpc hs inst hold hF
    · cases hF

/-- Settles O10: the pc of a cycle's end is four above what the fetched instance has read in this cycle, or above what
it had read when the cycle left it waiting. -/
theorem stepKeepsPcBehindFetch : Obligations.StepKeepsPcBehindFetch := by
  unfold Obligations.StepKeepsPcBehindFetch
  intro s t hinv hpred hpc h
  have hs : s.fault = none := (step_next h).1
  have hbetween := hinv.between hs
  obtain ⟨-, -, -, -, hordered, -⟩ := (State.inv_iff s).1 hinv
  apply step_elim h
  · exact fun _ => hpc
  · exact fun _ w hnone => by cases hnone
  intro _ u hu hissue v hv
  refine ⟨fun hraised hnone => absurd hnone hraised, fun hnone _ inst hinst hF => ?_⟩
  rw [State.finish_window] at hinst
  exact sweep_finish_pc (s := u.clearHazards) (hissue.windowOrdered hordered hbetween).stages_fall hu
    (State.sweepStands_clearHazards (hissue.honored hbetween)) (hissue.fetchStands hs hpred hpc) rfl hv hnone inst
    (v.squash.retire_window_sublist.subset hinst) hF

end Sys2Proof.Machine

/-! PROOFS. The engine function by function (R172 to R182): the issue of the decoded instruction, one instance of the
sweep, its bookkeeping and its jump, and the end of the cycle. -/

namespace Sys2Proof.Machine

/-! ## The issue step (R172) -/

/-- Settles O38: with no stall before, the cycle of an instruction at the pc begins with its creation. -/
theorem stepRunsTheDecodedInstruction : Obligations.StepRunsTheDecodedInstruction := by
  unfold Obligations.StepRunsTheDecodedInstruction
  intro s i hs hstalled hat
  exact ⟨_, Instance.fresh i (wordIndex s.pc) s.nextSeq, exec_not_visiting rfl, step_of_at hs hstalled hat, rfl, rfl,
    rfl, rfl, rfl⟩

theorem State.drained.underWay_at {s : State} {i : Instr} (hd : s.drained) (hat : s.at i) :
    (s.underWay 0 [] false []).at i := hd.underWay_zero ▸ hat

/-- The first step of a run makes the wires idle before it does anything else (R49). -/
theorem State.drained.step_eq_underWay {s : State} {i : Instr} (hd : s.drained) (hat : s.at i) :
    step s = step (s.underWay 0 [] false []) := by
  have ⟨hs, _, hstalled⟩ := hd
  rw [step_of_at hs hstalled hat, hd.underWay_zero]
  exact (step_of_at (s := s.underWay 0 [] false []) hs rfl (hd.underWay_at hat)).symm

/-- Settles O39: the lone new instance completes its fetch stage, and the pc, at an instruction, advances. -/
theorem firstStepFetchesTheInstruction : Obligations.FirstStepFetchesTheInstruction := by
  unfold Obligations.FirstStepFetchesTheInstruction
  intro s i hd hat
  have ⟨hs, _, hstalled⟩ := hd
  have hfetch := State.underWay_step_fetch hs (hd.underWay_at hat)
  rw [← hd.step_eq_underWay hat, Instance.fetchedBehind_zero] at hfetch
  refine ⟨_, .fetched s i, hfetch, rfl, rfl, rfl, rfl, rfl, rfl, ?_⟩
  simp [State.underWay, hstalled]

/-! ## One instance of the sweep (R174 to R176) -/

/-- Settles O45, by what the stage call has left in the status. -/
theorem sweepStopsAtTheFirstStall : Obligations.SweepStopsAtTheFirstStall := by
  unfold Obligations.SweepStopsAtTheFirstStall
  intro inst younger k s t h ht
  refine ⟨fun hstatus => ?_, fun inst' next hstatus hvisiting hnext => ?_⟩
  · simp [sweep, h, ht, hstatus, State.markStalled]
  · simp [sweep, h, ht, hstatus, hvisiting, hnext]

/-! ## The bookkeeping of an advanced instance (R176, R177) -/

theorem honor_of_taken {s : State} {inst : Instance} {j : JumpIntent} (k : Nat) (hj : inst.jump = some j)
    (ht : j.taken = true) (hs : s.wires.jumped = false) : honor s k inst = { s with
      pc := (applyJump s j).pc
      window := s.window.set k { inst with jump := some { j with taken := false } }
      wires := { s.wires with jumped := true, cut := some k } } := by
  simp only [honor, hj, ht, hs, Bool.not_false, Bool.and_self, if_true, applyJump_window, applyJump_wires]
  rw [applyJump_eq]

theorem honor_of_ignored {s : State} {inst : Instance} (k : Nat)
    (h : ∀ j, inst.jump = some j → j.taken = true → s.wires.jumped = true) : honor s k inst = s := by
  unfold honor
  split
  next => rfl
  next j hj =>
    cases ht : j.taken with
    | false => simp
    | true => simp [h j hj ht]

/-- Settles O47: honored or ignored, by the intent and by whether a jump was honored before. -/
theorem firstTakenIntentIsHonored : Obligations.FirstTakenIntentIsHonored := by
  unfold Obligations.FirstTakenIntentIsHonored
  intro s k inst j hj
  refine ⟨honor_of_taken k hj, fun hs => honor_of_ignored k fun _ _ _ => hs, fun ht => honor_of_ignored k ?_⟩
  intro j' hj' ht'
  cases hj.symm.trans hj'
  cases ht.symm.trans ht'

/-- The hazard state behind the bookkeeping is that of `hazardUpdate`, whatever the intent. -/
theorem settle_hazards (s : State) (k : Nat) (inst : Instance) (next : Stage) :
    (settle s k inst next).wires.awaiting = (hazardUpdate s.wires { inst with stage := next }).awaiting ∧
    (settle s k inst next).wires.forward = (hazardUpdate s.wires { inst with stage := next }).forward := by
  rcases settle_cases s k inst next with ⟨j, -, -, -, e⟩ | ⟨-, e⟩ <;> rw [e] <;> exact ⟨rfl, rfl⟩

theorem hazardUpdate_of_no_dest (w : Wires) {inst : Instance} (h : inst.dest = none) : hazardUpdate w inst = w := by
  simp [hazardUpdate, h]

/-- Without cleanup the destination is pending, with its value if it is published (R176). -/
theorem hazardUpdate_of_pending (w : Wires) {inst : Instance} {d : Nat} (hd : inst.dest = some d)
    (hclean : inst.cleanup = false) (r : Nat) :
    (r ∈ (hazardUpdate w inst).awaiting ↔ r = d ∨ r ∈ w.awaiting) ∧
    (hazardUpdate w inst).forward.lookup r = if r = d ∧ inst.fwd.isSome then inst.fwd else w.forward.lookup r := by
  simp only [hazardUpdate, hd, hclean, Bool.false_eq_true, if_false]
  refine ⟨?_, ?_⟩
  · by_cases hr : r = d <;> simp [hr]
  · cases hfwd : inst.fwd with
    | none => simp
    | some v => simp [lookup_forwardSet]

/-- With cleanup the destination is neither pending nor forwarded (R176). -/
theorem hazardUpdate_of_cleanup (w : Wires) {inst : Instance} {d : Nat} (hd : inst.dest = some d)
    (hclean : inst.cleanup = true) (r : Nat) :
    (r ∈ (hazardUpdate w inst).awaiting ↔ r ≠ d ∧ r ∈ w.awaiting) ∧
    (hazardUpdate w inst).forward.lookup r = if r = d then none else w.forward.lookup r := by
  simp only [hazardUpdate, hd, hclean, if_true, lookup_forwardClear, and_true]
  simp [and_comm]

/-- Of the machine only the pc and the window, and of the wires only those named, are written (R176, R177). -/
theorem settle_frame (s : State) (k : Nat) (inst : Instance) (next : Stage) :
    settle s k inst next = { s with
      pc := (settle s k inst next).pc
      window := (settle s k inst next).window
      wires := { s.wires with
        awaiting := (settle s k inst next).wires.awaiting
        forward := (settle s k inst next).wires.forward
        jumped := (settle s k inst next).wires.jumped
        cut := (settle s k inst next).wires.cut
        events := s.wires.events ++ [⟨next, inst.seq⟩]
        visiting := none } } := by
  rcases settle_cases s k inst next with ⟨j, -, -, -, e⟩ | ⟨-, e⟩ <;> rw [e] <;> simp

/-- Settles O46: the frame, the hazard state by destination and cleanup, the jump by `settle_cases`. -/
theorem bookkeepingOfAnAdvance : Obligations.BookkeepingOfAnAdvance := by
  unfold Obligations.BookkeepingOfAnAdvance
  intro s k inst next
  obtain ⟨hawaiting, hforward⟩ := settle_hazards s k inst next
  refine ⟨settle_frame s k inst next, fun hd => ?_, fun d r hd hclean => ?_, fun d r hd hclean => ?_,
    fun hignored => ?_, fun j hj ht hs => ?_⟩
  · rw [hawaiting, hforward, hazardUpdate_of_no_dest _ (by exact hd)]
    exact ⟨rfl, rfl⟩
  · rw [hawaiting, forwarded, hforward]
    exact hazardUpdate_of_pending s.wires hd hclean r
  · rw [hawaiting, forwarded, hforward]
    exact hazardUpdate_of_cleanup s.wires hd hclean r
  · rcases settle_cases s k inst next with ⟨j, hj, ht, hs, -⟩ | ⟨-, e⟩
    · exact absurd (hs.symm.trans (hignored j hj ht)) Bool.noConfusion
    · rw [e]
      exact ⟨rfl, rfl, hazardUpdate_jumped _ _, hazardUpdate_cut _ _⟩
  · rcases settle_cases s k inst next with ⟨j', hj', -, -, e⟩ | ⟨hignored, -⟩
    · cases hj.symm.trans hj'
      rw [e]
      exact ⟨rfl, rfl, rfl, rfl⟩
    · exact absurd (hs.symm.trans (hignored j hj ht)) Bool.noConfusion

/-! ## The end of the cycle (R178 to R182) -/

/-- The squash keeps the oldest instance, and behind it those up to the honoring one (R178). -/
theorem State.squash_window_cons {s : State} {k : Nat} {oldest : Instance} {rest : List Instance}
    (hcut : s.wires.cut = if s.wires.jumped then some k else none) (hwindow : s.window = oldest :: rest) :
    s.squash.window = oldest :: if s.wires.jumped then rest.take k else rest := by
  cases hjumped : s.wires.jumped with
  | false => rw [State.squash_window_of_unjumped hjumped, hwindow, if_neg Bool.false_ne_true]
  | true =>
    rw [hjumped, if_pos rfl] at hcut
    rw [State.squash_window_of_jumped hjumped hcut, hwindow, List.take_succ_cons, if_pos rfl]

theorem add_four_eq_ofNat (p : Word) : p + 4 = BitVec.ofNat 32 (p.toNat + 4) := BitVec.add_def p 4

/-- Settles O48: squash and retirement by the head of the window, the pc by `State.finish_pc`, the rest is the frame of
`State.finish`. -/
theorem endOfCycle : Obligations.EndOfCycle := by
  unfold Obligations.EndOfCycle
  intro s k oldest rest hcut hwindow
  refine ⟨?_, ?_, s.finish_stalledPrev, s.finish_trace, s.finish_cycle, s.finish_wires, s.finish_regs, s.finish_dmem,
    s.finish_ras, s.finish_btb, s.finish_nextSeq⟩
  · rw [State.finish_window, State.retire_window_cons (State.squash_window_cons hcut hwindow)]
    cases s.wires.jumped <;> rfl
  · have hadvance : (!s.wires.jumped && !s.wires.stalled && fetchable s) = true ↔
        s.wires.jumped = false ∧ s.wires.stalled = false ∧ s.pc.toNat / 4 < s.imem.length := by
      rw [Bool.and_eq_true, Bool.and_eq_true, Bool.not_eq_true', Bool.not_eq_true', and_assoc, fetchable,
        decide_eq_true_iff, wordIndex_eq]
    rw [State.finish_pc, add_four_eq_ofNat, if_congr hadvance rfl rfl]

end Sys2Proof.Machine

/-! PROOFS. A cycle in which a branch at execute corrects its prediction (R156, R177, R178): the older instances, which
are past execute, neither wait nor jump; the branch is the honoring one, and what stands behind it is squashed with its
stall (R181, R189). -/

namespace Sys2Proof.Machine

/-! ## A sweep in parts (R174) -/

/-- A sweep over the older instances that neither raises nor stalls goes on with the younger ones. -/
theorem sweep_append {l : List Instance} (rest : List Instance) {k : Nat} {s v : State} (h : sweep l k s = .next v)
    (hv : v.fault = none) (hstalled : v.wires.stalled = false) :
    sweep (l ++ rest) k s = sweep rest (k + l.length) v := by
  induction l generalizing k s with
  | nil =>
    cases h
    rfl
  | cons inst l ih =>
    unfold sweep at h
    split at h
    next t ht =>
      split at h
      next f hf =>
        cases h
        cases hf.symm.trans hv
      next hf hst =>
        cases h
        cases hstalled
      next inst' next hf hst hvisiting hnext =>
        rw [List.cons_append, sweep, ht]
        simp only [hf, hst, hvisiting, hnext]
        rw [ih h, List.length_cons, Nat.add_right_comm, Nat.add_assoc]
      next => cases h
    next => cases h
    next => cases h

/-- The events of the cycle are of the instances that the sweep is past. -/
def State.EventsOf (s : State) (advanced : List Instance) : Prop :=
  ∀ e ∈ s.wires.events, e.seq ∈ advanced.map (·.seq)

theorem State.EventsOf.settle {s u : State} {advanced : List Instance} {inst inst' last : Instance} {next : Stage}
    (h : s.EventsOf advanced) (hu : StageEffect inst.instr (s.visit inst) inst inst' u) (hlast : last.seq = inst'.seq)
    (k : Nat) : (Machine.settle (u.visit inst') k inst' next).EventsOf (advanced ++ [last]) := by
  intro e he
  rw [settle_frame] at he
  have hwires : u.wires = (s.visit inst).wires := hu.wires_eq
  simp only [State.visit_wires, hwires, List.mem_append, List.mem_singleton] at he
  rw [List.map_append, List.mem_append]
  rcases he with he | rfl
  · exact .inl (h e he)
  · exact .inr (by simp [hlast])

/-! ## Past the older instances (R174, R209) -/

/-- A sweep over the snapshot `w` is past the instances `advanced`, of which none has waited or jumped. -/
structure State.PastOlder (w advanced left : List Instance) (s : State) : Prop where
  stands : s.SweepStands w advanced left
  unjumped : s.wires.jumped = false
  unstalled : s.wires.stalled = false
  events : s.EventsOf advanced

/-- An instance past its execute stage is put back without a jump. -/
theorem State.PastOlder.settle {w advanced rest : List Instance} {inst inst' : Instance} {s u : State} {next : Stage}
    (h : s.PastOlder w advanced (inst :: rest)) (hlate : 3 ≤ inst.stage.rank)
    (hu : StageEffect inst.instr (s.visit inst) inst inst' u) (hnext : inst.stage.next = some next) :
    ∃ last, (Machine.settle (u.visit inst') advanced.length inst' next).PastOlder w (advanced ++ [last]) rest := by
  obtain ⟨last, hlast⟩ := h.stands.settle hu hnext
  have hwindow : (u.visit inst').window = s.window := hu.window_eq
  have hwires : u.wires = (s.visit inst).wires := hu.wires_eq
  rcases settle_cases (u.visit inst') advanced.length inst' next with ⟨j, hj, ht, -, -⟩ | ⟨-, e⟩
  · rcases h.stands.taken_stage h.unjumped hu hj ht with hst | hst <;> rw [hst] at hlate <;>
      exact absurd hlate (by decide)
  · have hlastEq := h.stands.last_eq (by rw [e, ← hwindow]) hlast
    exact ⟨last, hlast, by simp [e, hwires, h.unjumped], by simp [hwires, h.unstalled],
      h.events.settle hu (by rw [hlastEq]) _⟩

/-- The sweep comes past instances that are all behind their execute stage, if none of them raises. -/
theorem sweep_pastOlder {w older younger : List Instance} {s v : State} (hlate : ∀ inst ∈ older, 3 ≤ inst.stage.rank)
    (hs : s.fault = none) (hbegin : s.PastOlder w [] (older ++ younger)) (h : sweep older 0 s = .next v)
    (hv : v.fault = none) : ∃ advanced, advanced.length = older.length ∧ v.PastOlder w advanced younger := by
  refine sweep_induct_cases
    (P := fun left k u => (∀ inst ∈ left, 3 ≤ inst.stage.rank) ∧ ∃ advanced, advanced.length = k ∧
      advanced.length + left.length = older.length ∧ u.PastOlder w advanced (left ++ younger))
    (Q := fun v => v.fault = none → ∃ advanced, advanced.length = older.length ∧ v.PastOlder w advanced younger)
    ?_ ?_ ?_ ?_ older 0 s v ⟨hlate, [], rfl, Nat.zero_add _, hbegin⟩ hs h hv
  · rintro k u ⟨-, advanced, -, hlength, hu⟩ - -
    exact ⟨advanced, hlength, hu⟩
  · rintro inst rest k u fn f - - - - hnone
    cases hnone
  · rintro inst rest k u ⟨hlate, -⟩ - hst -
    have hinst := hlate inst List.mem_cons_self
    rcases hst with hst | hst <;> rw [hst] at hinst <;> exact absurd hinst (by decide)
  · rintro inst rest k u inst' u' next ⟨hlate, advanced, rfl, hlength, hu⟩ - hu' hnext
    obtain ⟨hinst, hrest⟩ := List.forall_mem_cons.1 hlate
    obtain ⟨last, hlast⟩ := hu.settle hinst hu' hnext
    refine ⟨hrest, advanced ++ [last], by simp, ?_, hlast⟩
    simp only [List.length_cons, List.length_append, List.length_nil] at hlength ⊢
    omega

/-! ## The branch that corrects its prediction (R156, R177) -/

/-- A sweep over the snapshot `w` is past `advanced` and past `last`, which has honored its jump to `target`. -/
structure State.PastJump (w advanced : List Instance) (last : Instance) (left : List Instance) (target : Word)
    (s : State) : Prop where
  stands : s.SweepStands w (advanced ++ [last]) left
  events : s.EventsOf (advanced ++ [last])
  jumped : s.wires.jumped = true
  cut : s.wires.cut = some advanced.length
  pc : s.pc = target

/-- The instance whose stage has left the first taken intent is put back with this intent honored. -/
theorem State.PastOlder.settle_taken {w advanced rest : List Instance} {inst inst' : Instance} {s u : State}
    {next : Stage} {j : JumpIntent} (h : s.PastOlder w advanced (inst :: rest))
    (hu : StageEffect inst.instr (s.visit inst) inst inst' u) (hnext : inst.stage.next = some next)
    (hj : inst'.jump = some j) (ht : j.taken = true) :
    ∃ last, last.seq = inst.seq ∧ last.stage = next ∧
      (Machine.settle (u.visit inst') advanced.length inst' next).PastJump w advanced last rest (j.pcFrom s.pc) := by
  obtain ⟨last, hlast⟩ := h.stands.settle hu hnext
  have hwindow : (u.visit inst').window = s.window := hu.window_eq
  have hwires : u.wires = (s.visit inst).wires := hu.wires_eq
  obtain ⟨-, -, -, hseq⟩ := hu.named
  rcases settle_cases (u.visit inst') advanced.length inst' next with ⟨j', hj', -, -, e⟩ | ⟨hignored, -⟩
  · cases hj.symm.trans hj'
    have hlastEq := h.stands.last_eq (by rw [e, ← hwindow]) hlast
    refine ⟨last, by rw [hlastEq]; exact hseq, by rw [hlastEq], hlast, h.events.settle hu (by rw [hlastEq]) _,
      by rw [e], by rw [e], ?_⟩
    rw [e, applyJump_pc, State.visit_pc, hu.pc_eq, State.visit_pc]
  · have hjumped := hignored j hj ht
    rw [State.visit_wires, hwires, State.visit_wires] at hjumped
    exact absurd (h.unjumped.symm.trans hjumped) Bool.noConfusion

/-- What `Acquire` reads (R112). -/
theorem acquire_congr {s t : State} (hawaiting : t.wires.awaiting = s.wires.awaiting)
    (hforward : t.wires.forward = s.wires.forward) (hregs : t.regs = s.regs) (r : Nat) : acquire t r = acquire s r := by
  simp only [acquire, forwarded, regRead, State.reg, hawaiting, hforward, hregs]

/-- Behind the bookkeeping of an instance without a destination every register is acquired as before (R176). -/
theorem acquire_settle_of_no_dest (s : State) (k : Nat) {inst : Instance} (next : Stage) (h : inst.dest = none)
    (r : Nat) : acquire (settle s k inst next) r = acquire s r := by
  obtain ⟨hawaiting, hforward⟩ := settle_hazards s k inst next
  have hsame := hazardUpdate_of_no_dest s.wires (inst := { inst with stage := next }) h
  exact acquire_congr (hawaiting.trans (congrArg Wires.awaiting hsame)) (hforward.trans (congrArg Wires.forward hsame))
    (settle_regs ..) r

/-- Execute of a `ble` that was predicted not taken and is taken: the sweep goes on behind its jump, and since a `ble`
has no destination every register is acquired as before. -/
theorem State.PastOlder.sweep_correction {w advanced rest : List Instance} {branch : Instance} {v : State} {rs rt : Nat}
    {imm a b : Word} (h : v.PastOlder w advanced (branch :: rest)) (hv : v.fault = none) (hst : branch.stage = .D)
    (hinstr : branch.instr = .ble rs rt imm) (hpred : branch.pred = false) (hdest : branch.dest = none)
    (ha : v.gives rs a) (hb : v.gives rt b) (hle : a.toInt ≤ b.toInt) :
    ∃ x last, sweep (branch :: rest) advanced.length v = sweep rest (advanced.length + 1) x ∧ x.fault = none ∧
      x.PastJump w advanced last rest branch.btarget ∧ last.seq = branch.seq ∧ last.stage = .E ∧
      ∀ r, acquire x r = acquire v r := by
  have hfn : stageFnOf branch.instr branch.stage = some (bleExecute rs rt) := by rw [hst, hinstr]; rfl
  have hdone := bleExecute_of_gives (s := v.visit branch) branch ha hb
  rw [signedLessEq_of_le hle, bleCorrected_of_missed hpred] at hdone
  have hnext : branch.stage.next = some .E := by rw [hst]; rfl
  have hfault := (btbUpdate_fault (v.visit branch) branch.pcSnap branch.btarget true).trans hv
  obtain ⟨last, hseq, hlast, hjump⟩ := h.settle_taken (stage_done hfn hdone) hnext rfl rfl
  refine ⟨_, last, sweep_cons_of_done rest _ hfn hdone hfault hnext, (settle_fault ..).trans hfault, hjump, hseq, hlast,
    fun r => ?_⟩
  rw [acquire_settle_of_no_dest (inst := branch.setJump .direct branch.btarget) _ _ _ hdest]
  exact acquire_congr (by simp) (by simp) (by simp) r

/-! ## The end of the cycle behind a jump (R178 to R181) -/

/-- With falling stages the retirement removes what has completed writeback and nothing else. -/
theorem State.retire_window_eq_filter {s : State} (hfall : StagesFall s.window) :
    s.retire.window = s.window.filter fun inst => inst.stage ≠ .W := by
  have hnone := State.retire_none_retired hfall
  cases hwindow : s.window with
  | nil =>
    have hsub := s.retire_window_sublist
    rw [hwindow] at hsub
    exact List.sublist_nil.1 hsub
  | cons oldest rest =>
    rw [State.retire_window_cons hwindow] at hnone ⊢
    by_cases hW : oldest.stage = .W
    · rw [if_pos hW] at hnone ⊢
      rw [List.filter_cons_of_neg (by simpa using hW)]
      exact (List.filter_eq_self.2 fun a ha => by simpa using hnone a ha).symm
    · rw [if_neg hW] at hnone ⊢
      exact (List.filter_eq_self.2 fun a ha => by simpa using hnone a ha).symm

/-- Behind a jump the window ends with the honoring instance, the pc is the target, and a stall is forgotten. -/
theorem State.PastJump.finish {w advanced left : List Instance} {last : Instance} {target : Word} {s : State}
    (h : s.PastJump w advanced last left target) (hw : StagesFall w) (hlast : last.stage ≠ .W) :
    s.finish.window = (advanced.filter fun inst => inst.stage ≠ .W) ++ [last] ∧ s.finish.pc = target ∧
      s.finish.stalledPrev = false := by
  have hsquash : s.squash.window = advanced ++ [last] := by
    rw [State.squash_window_of_jumped h.jumped h.cut, h.stands.window, List.take_left' (by simp)]
  have hfall : StagesFall s.squash.window := (h.stands.stagesFall hw).sublist s.squash_window_sublist
  refine ⟨?_, ?_, ?_⟩
  · rw [State.finish_window, State.retire_window_eq_filter hfall, hsquash]
    simp [hlast]
  · simp [State.finish_pc, h.jumped, h.pc]
  · simp [h.jumped]

/-- An instance that waits behind the jump changes nothing of this (R175). -/
theorem State.PastJump.stall {w advanced left : List Instance} {last : Instance} {target : Word} {s : State}
    (h : s.PastJump w advanced last left target) : State.PastJump w advanced last left target
      { s with wires := { s.wires with stalled := true, visiting := none, status := .notReady } } where
  stands := ⟨h.stands.window, h.stands.ranks, h.stands.seqs, h.stands.unjumped, h.stands.jumped⟩
  events := h.events
  jumped := h.jumped
  cut := h.cut
  pc := h.pc

theorem Stage.rank_eq_four {a : Stage} : a.rank = 4 ↔ a = .M := by
  cases a <;> decide

/-- The advanced instances that are not retired are those that were not before their writeback. -/
theorem map_seq_filter_retired {advanced older : List Instance} (hseqs : advanced.map (·.seq) = older.map (·.seq))
    (hranks : advanced.map (fun inst => inst.stage.rank) = older.map fun inst => inst.stage.rank + 1) :
    (advanced.filter fun inst => inst.stage ≠ .W).map (·.seq) =
      (older.filter fun inst => inst.stage ≠ .M).map (·.seq) := by
  have hretired : ∀ a o : Instance, a.stage.rank = o.stage.rank + 1 → (a.stage = .W ↔ o.stage = .M) := by
    intro a o h
    rw [← Stage.rank_eq_five, ← Stage.rank_eq_four, h, Nat.succ_inj]
  induction advanced generalizing older with
  | nil =>
    rw [List.map_eq_nil_iff.1 hseqs.symm]
    rfl
  | cons a advanced ih =>
    cases older with
    | nil => cases hseqs
    | cons o older =>
      simp only [List.map_cons, List.cons.injEq] at hseqs hranks
      obtain ⟨hseq, hseqs⟩ := hseqs
      obtain ⟨hrank, hranks⟩ := hranks
      have hrest := ih hseqs hranks
      by_cases hW : a.stage = .W
      · simpa [hW, (hretired a o hrank).1 hW] using hrest
      · simpa [hW, mt (hretired a o hrank).2 hW, hseq] using hrest

theorem State.PastOlder.map_seq {older younger advanced : List Instance} {v : State}
    (h : v.PastOlder (older ++ younger) advanced younger) : advanced.map (·.seq) = older.map (·.seq) := by
  have hseqs := h.stands.seqs
  rw [h.stands.window, List.map_append, List.map_append] at hseqs
  exact List.append_cancel_right hseqs

theorem State.PastOlder.map_rank {older younger advanced : List Instance} {v : State}
    (h : v.PastOlder (older ++ younger) advanced younger) :
    advanced.map (fun inst => inst.stage.rank) = older.map fun inst => inst.stage.rank + 1 := by
  have hranks := h.stands.ranks
  rw [dueRanks, dueRanks, List.map_nil, List.nil_append, List.map_append] at hranks
  exact List.append_cancel_right hranks

/-! ## The cycle (R183) -/

theorem State.IssuesTo.window_append {s u : State} (h : s.IssuesTo u) : ∃ issued, u.window = s.window ++ issued := by
  rcases h with ⟨rfl, -⟩ | ⟨i, -, -, rfl⟩
  · exact ⟨[], (List.append_nil _).symm⟩
  · exact ⟨_, rfl⟩

theorem State.issuesTo_of_issueStep {s u : State} (h : issueStep { s with wires := Wires.idle } = .next u)
    (hu : u.fault = none) : s.IssuesTo u := by
  rcases issueStep_next rfl h with hissue | hissue | ⟨w, -, -, -, rfl⟩
  · exact .inl hissue
  · exact .inr hissue
  · cases hu

/-- A cycle that comes past the `older` instances, all behind their execute stage, with the state `v`: where its sweep
then stands, and that the step is the rest of this sweep and the end of the cycle. -/
theorem State.sweepsPast.cycle {s v : State} {older younger : List Instance} (h : s.sweepsPast older v) (hinv : s.Inv)
    (hs : s.fault = none) (hwindow : s.window = older ++ younger) (hyounger : younger ≠ [])
    (hlate : ∀ inst ∈ older, 3 ≤ inst.stage.rank) :
    ∃ issued advanced, StagesFall (older ++ (younger ++ issued)) ∧
      v.PastOlder (older ++ (younger ++ issued)) advanced (younger ++ issued) ∧ v.fault = none ∧
      ∀ x, sweep (younger ++ issued) advanced.length v = .next x → x.fault = none →
        step s = .next x.finish ∧ x.trace = s.trace := by
  obtain ⟨u, hu, huf, hv, hvf⟩ := h
  have hissue := State.issuesTo_of_issueStep hu huf
  have hbetween := hinv.between hs
  obtain ⟨-, -, -, -, hordered, -⟩ := (State.inv_iff s).1 hinv
  obtain ⟨issued, huw⟩ := hissue.window_append
  rw [hwindow, List.append_assoc] at huw
  have hbegin := State.sweepStands_clearHazards (hissue.honored hbetween)
  have hfall := (hissue.windowOrdered hordered hbetween).stages_fall
  rw [huw] at hbegin hfall
  obtain ⟨advanced, hlength, hpast⟩ := sweep_pastOlder hlate (s := u.clearHazards) huf
    ⟨hbegin, rfl, rfl, by simp [State.EventsOf, Wires.idle]⟩ hv hvf
  refine ⟨issued, advanced, hfall, hpast, hvf, fun x hx hxf => ?_⟩
  have hsweep : sweep u.window 0 u.clearHazards = .next x := by
    rw [huw, sweep_append _ hv hvf hpast.unstalled, Nat.zero_add, ← hlength, hx]
  obtain ⟨-, -, -, htrace⟩ := hissue.sweep_frame huf hsweep
  have hwork : hasWork s = true := (hasWork_iff s).2 (.inr (by simp [hwindow, hyounger]))
  exact ⟨(step_of_issue hs hwork hu).trans (afterIssue_of_finished huf hsweep hxf), htrace⟩

/-- The instances before one that waits for execute are past their own. -/
theorem StagesFall.late_of_append {older younger : List Instance} {inst : Instance}
    (h : StagesFall (older ++ inst :: younger)) (hst : inst.stage = .D) : ∀ o ∈ older, 3 ≤ o.stage.rank := by
  intro o ho
  have hlt := (List.pairwise_append.1 h).2.2 o ho inst List.mem_cons_self
  rwa [hst] at hlt

theorem State.Inv.seq_not_mem_older {s : State} {older younger : List Instance} {inst : Instance} (h : s.Inv)
    (hwindow : s.window = older ++ inst :: younger) : inst.seq ∉ older.map (·.seq) := by
  have hrise := h.seqs_rise
  rw [hwindow, List.pairwise_append] at hrise
  obtain ⟨-, -, hrise⟩ := hrise
  intro hmem
  obtain ⟨o, ho, hseq⟩ := List.mem_map.1 hmem
  exact absurd hseq (hrise o ho inst List.mem_cons_self).ne

/-- Settles O58: behind the branch's jump the `jr` finds its register as the branch did, not ready, and is squashed
before it has completed a stage. -/
theorem stallForgottenWhenSquashed : Obligations.StallForgottenWhenSquashed := by
  unfold Obligations.StallForgottenWhenSquashed
  intro s v older branch follower rs rt r imm a b hinv hs _ hwindow hbst hbinstr hpred hdest hfst hfinstr hsweeps ha hb
    hle hwait
  have hwfall : StagesFall (older ++ [branch, follower]) := hwindow ▸ hinv.stages_fall
  obtain ⟨issued, advanced, hfall, hpast, hvf, hstep⟩ :=
    hsweeps.cycle hinv hs hwindow (List.cons_ne_nil _ _) (hwfall.late_of_append hbst)
  obtain ⟨x, last, hbranch, hxf, hjump, hseq, hlast, hacquire⟩ :=
    hpast.sweep_correction hvf hbst hbinstr hpred hdest ha hb hle
  have hfn : stageFnOf follower.instr follower.stage = some (jrDecode r) := by rw [hfst, hfinstr]; rfl
  have hstall := sweep_cons_of_notReady issued (advanced.length + 1) hxf hfn
    (withReg_of_notReady follower _ ((hacquire r).trans hwait))
  obtain ⟨ht, htrace⟩ := hstep _ (hbranch.trans hstall) hxf
  obtain ⟨hkept, hpc, hprev⟩ := hjump.stall.finish hfall (by rw [hlast]; decide)
  refine ⟨_, _, last, x.wires.events, ht, (State.finish_fault _).trans hxf, hpc, hprev, hkept, hseq, hlast,
    map_seq_filter_retired hpast.map_seq hpast.map_rank, by rw [State.finish_trace, htrace], fun e he hfollower => ?_⟩
  have hmem := hjump.events e he
  rw [List.map_append, hpast.map_seq, List.map_singleton, hseq, hfollower] at hmem
  exact hinv.seq_not_mem_older (hwindow.trans (List.append_cons ..)) (by rwa [List.map_append])

end Sys2Proof.Machine

/-! PROOFS. A program of `nop`s (R135, R187, R291): the pipeline fills, one instance a cycle, and drains again. The
window is followed by the ranks of its instances, which are consecutive. -/

namespace Sys2Proof.Machine

/-! ## A window of `nop`s in the sweep -/

/-- An instance of `nop` holds no destination and no intent (R135). -/
structure Instance.IdleNop (inst : Instance) : Prop where
  instr : inst.instr = .nop
  dest : inst.dest = none
  jump : inst.jump = none

/-- The instances of the window are `nop`s that have completed as many stages as `ranks` says. -/
def NopsAt (ranks : List Nat) (window : List Instance) : Prop :=
  List.Forall₂ (fun rank inst => inst.stage.rank = rank ∧ inst.IdleNop) ranks window

theorem NopsAt.ne_nil {rank : Nat} {ranks : List Nat} {window : List Instance} (h : NopsAt (rank :: ranks) window) :
    window ≠ [] := by
  cases h
  exact List.cons_ne_nil _ _

/-- Every stage of a `nop` is done and leaves the state as it is (R135). -/
theorem Instance.IdleNop.stage_done {inst : Instance} (h : inst.IdleNop) (hrank : inst.stage.rank < 5) :
    ∃ fn next, stageFnOf inst.instr inst.stage = some fn ∧ inst.stage.next = some next ∧
      ∀ s, ∃ inst', fn s inst = .done inst' s ∧ inst'.IdleNop := by
  obtain ⟨hinstr, hdest, hjump⟩ := h
  rw [hinstr]
  cases hst : inst.stage with
  | PF => exact ⟨_, _, rfl, rfl, fun s => ⟨_, rfl, hinstr, hdest, hjump⟩⟩
  | F => exact ⟨_, _, rfl, rfl, fun s => ⟨_, rfl, hinstr, hdest, hjump⟩⟩
  | D => exact ⟨_, _, rfl, rfl, fun s => ⟨_, rfl, hinstr, hdest, hjump⟩⟩
  | E => exact ⟨_, _, rfl, rfl, fun s => ⟨_, rfl, hinstr, hdest, hjump⟩⟩
  | M => exact ⟨_, _, rfl, rfl, fun s => ⟨_, writebackOf_no_dest .nop s hdest, hinstr, hdest, hjump⟩⟩
  | W => exact absurd hrank (by rw [hst]; decide)

/-- A sweep over `nops` advances each by a stage and writes the window and the wires only. -/
theorem NopsAt.sweep {ranks : List Nat} {nops : List Instance} (h : NopsAt ranks nops) (hlt : ∀ rank ∈ ranks, rank < 5)
    {advanced : List Instance} {s : State} (hs : s.fault = none) (hwindow : s.window = advanced ++ nops) :
    ∃ nops' wires, NopsAt (ranks.map (· + 1)) nops' ∧ wires.jumped = s.wires.jumped ∧
      wires.stalled = s.wires.stalled ∧
      Machine.sweep nops advanced.length s = .next { s with window := advanced ++ nops', wires := wires } := by
  induction h generalizing advanced s with
  | nil =>
    refine ⟨[], s.wires, .nil, rfl, rfl, ?_⟩
    rw [← hwindow]
    rfl
  | @cons rank inst ranks nops hinst _ ih =>
    obtain ⟨hrank, hnop⟩ := hinst
    obtain ⟨hlt, hrest⟩ := List.forall_mem_cons.1 hlt
    obtain ⟨fn, next, hfn, hnext, hdone⟩ := hnop.stage_done (hrank ▸ hlt)
    obtain ⟨inst', hdone, hnop'⟩ := hdone (s.visit inst)
    obtain ⟨nops', wires, hnops', hjumped, hstalled, hsweep⟩ :=
      ih hrest (advanced := advanced ++ [inst'.completing next])
        (s := s.advanced (s.visit inst) advanced.length inst' next) hs (by simp [hwindow])
    refine ⟨inst'.completing next :: nops', wires, .cons ⟨?_, hnop'.instr, hnop'.dest, hnop'.jump⟩ hnops',
      hjumped.trans (State.advanced_jumped ..), hstalled.trans (State.advanced_stalled ..), ?_⟩
    · exact hrank ▸ Stage.rank_next hnext
    · rw [sweep_cons_of_advance nops advanced.length hs hfn hdone hnop'.jump hnext]
      simpa [State.advanced, State.withStores] using hsweep

/-! ## The ranks of the window -/

/-- The numbers from `hi` down to `lo`. -/
def fallingRanks (lo hi : Nat) : List Nat := (List.range' lo (hi + 1 - lo)).reverse

theorem mem_fallingRanks {lo hi rank : Nat} (h : rank ∈ fallingRanks lo hi) : rank ≤ hi := by
  rw [fallingRanks, List.mem_reverse, List.mem_range'_1] at h
  omega

theorem fallingRanks_of_lt {lo hi : Nat} (h : hi < lo) : fallingRanks lo hi = [] := by
  rw [fallingRanks, Nat.sub_eq_zero_of_le h]
  rfl

theorem fallingRanks_succ {lo hi : Nat} (h : lo ≤ hi + 1) :
    fallingRanks lo (hi + 1) = (hi + 1) :: fallingRanks lo hi := by
  rw [fallingRanks, fallingRanks, Nat.succ_sub h, List.range'_1_concat, List.reverse_append, Nat.add_sub_cancel' h]
  rfl

theorem map_succ_fallingRanks (lo hi : Nat) : (fallingRanks lo hi).map (· + 1) = fallingRanks (lo + 1) (hi + 1) := by
  rw [fallingRanks, fallingRanks, List.map_reverse, Nat.add_sub_add_right, List.range'_succ_left]

theorem fallingRanks_zero (hi : Nat) : fallingRanks 0 hi = fallingRanks 1 hi ++ [0] := by
  rw [fallingRanks, fallingRanks, Nat.sub_zero, Nat.add_sub_cancel, List.range'_succ, List.reverse_cons]

/-! ## A cycle of a window of `nop`s (R174 to R182) -/

/-- Every instance advances, and the oldest one leaves when it has completed its writeback. -/
theorem NopsAt.afterIssue {u : State} {lo hi : Nat} (h : NopsAt (fallingRanks lo hi) u.window) (hu : u.fault = none)
    (hlo : lo ≤ hi) (hhi : hi ≤ 4) :
    ∃ window e, NopsAt (fallingRanks (lo + 1) (min (hi + 1) 4)) window ∧
      Machine.afterIssue u = .next (u.cycled window false e) := by
  obtain ⟨nops, wires, hnops, hjumped, hstalled, hsweep⟩ :=
    h.sweep (fun rank hrank => by have := mem_fallingRanks hrank; omega) (advanced := []) (s := u.clearHazards) hu rfl
  rw [map_succ_fallingRanks, fallingRanks_succ (by omega)] at hnops
  cases hnops with
  | @cons _ oldest _ rest holdest hrest =>
    have hcycle := afterIssue_of_unjumped hu hsweep hu hjumped rfl
    rw [hstalled] at hcycle
    obtain ⟨hrank, hnop⟩ := holdest
    refine ⟨_, wires.events, ?_, hcycle⟩
    split
    next hW =>
      have hfive := Stage.rank_eq_five.2 hW
      rwa [Nat.min_eq_right (by omega), show 4 = hi by omega]
    next hW =>
      have hfive := mt Stage.rank_eq_five.1 hW
      have := oldest.stage.rank_le
      rw [Nat.min_eq_left (by omega), fallingRanks_succ (by omega)]
      exact .cons ⟨hrank, hnop⟩ hrest

/-! ## The run (R187, R291) -/

theorem runSteps_succ_of_next {s t u : State} {n : Nat} (h : runSteps n s = .next t) (hstep : step t = .next u) :
    runSteps (n + 1) s = .next u := by
  induction n generalizing s with
  | zero =>
    cases h
    exact runSteps_of_step hstep 0
  | succ n ih =>
    rw [runSteps] at h
    split at h
    next r hr => rw [runSteps_of_step hr, ih h]
    next => cases h
    next => cases h

theorem runSteps_congr {s t : State} (h : step s = step t) (n : Nat) : runSteps (n + 1) s = runSteps (n + 1) t := by
  rw [runSteps, runSteps, h]

section Nops

variable {s : State} {n c : Nat} {window : List Instance} {events : List (List Event)}

/-- What is left of a program of `n` `nop`s that began at address 0 with nothing in flight. -/
structure State.RunsNops (s : State) (n : Nat) : Prop where
  fault : s.fault = none
  pc : s.pc = 0
  bound : n < 2 ^ 30
  imem : s.imem = List.replicate n (.word 0)

theorem State.RunsNops.at_nop (h : s.RunsNops n) (hc : c < n) : (s.underWay c window false events).at .nop := by
  refine ⟨.word 0, ?_, rfl⟩
  have hbound := h.bound
  have hindex : wordIndex (s.pc + BitVec.ofNat 32 (4 * c)) = c := by
    rw [wordIndex_add_four_mul (by rw [h.pc]; exact (Nat.zero_add c).trans_lt (hc.trans hbound)), h.pc]
    exact Nat.zero_add c
  change s.imem[wordIndex (s.pc + BitVec.ofNat 32 (4 * c))]? = _
  rw [hindex, h.imem, List.getElem?_replicate, if_pos hc]

theorem State.RunsNops.pastEnd (h : s.RunsNops n) : s.PastEnd n := by
  have hends : s.programEndsAfter n := by
    have hzero : wordIndex s.pc = 0 := by rw [h.pc]; rfl
    rw [State.programEndsAfter, h.imem, hzero, List.length_replicate, Nat.zero_add]
    exact ⟨rfl, h.bound⟩
  exact hends.pastEnd h.fault

/-- In cycle `c + 1` of the run an instance is brought in, if there is one left, and all in flight advance. -/
theorem State.RunsNops.step (h : s.RunsNops n) (hn : 1 ≤ n) (hc : c < n + 4)
    (hwindow : NopsAt (fallingRanks (c - n + 1) (min c 4)) window) :
    ∃ window' e, NopsAt (fallingRanks (c + 1 - n + 1) (min (c + 1) 4)) window' ∧
      Machine.step (s.underWay (min c n) window false events) =
        .next (s.underWay (min (c + 1) n) window' false (events ++ [e])) := by
  have hmin : min (c + 1) 4 = min (min c 4 + 1) 4 := by omega
  rw [hmin]
  by_cases hcn : c < n
  · have hat := h.at_nop (window := window) (events := events) hcn
    have hissued : NopsAt (fallingRanks 0 (min c 4)) ((s.underWay c window false events).issue .nop).window := by
      rw [fallingRanks_zero]
      rw [Nat.sub_eq_zero_of_le hcn.le] at hwindow
      exact List.rel_append hwindow (.cons ⟨rfl, rfl, rfl, rfl⟩ .nil)
    obtain ⟨window', e, hwindow', hcycle⟩ := hissued.afterIssue h.fault (Nat.zero_le _) (Nat.min_le_right _ _)
    rw [State.issue_cycled hat] at hcycle
    rw [Nat.min_eq_left hcn.le, Nat.min_eq_left hcn, Nat.sub_eq_zero_of_le hcn]
    exact ⟨window', e, hwindow', (step_of_at (s := s.underWay c window false events) h.fault rfl hat).trans hcycle⟩
  · have hlo : c - n + 1 ≤ min c 4 := by omega
    have hne : window ≠ [] := by
      obtain ⟨hi, hhi⟩ : ∃ hi, min c 4 = hi + 1 := ⟨min c 4 - 1, by omega⟩
      rw [hhi, fallingRanks_succ (hhi ▸ hlo)] at hwindow
      exact hwindow.ne_nil
    obtain ⟨window', e, hwindow', hcycle⟩ := NopsAt.afterIssue (u := s.underWay n window false events) hwindow h.fault
      hlo (Nat.min_le_right _ _)
    rw [h.pastEnd.cycled] at hcycle
    rw [show min c n = n by omega, show min (c + 1) n = n by omega, show c + 1 - n = c - n + 1 by omega]
    exact ⟨window', e, hwindow', (h.pastEnd.step_eq hne).trans hcycle⟩

/-- The state after `c` cycles. -/
theorem State.RunsNops.runSteps (h : s.RunsNops n) (hn : 1 ≤ n) (hc : c ≤ n + 4) :
    ∃ window events, events.length = c ∧ NopsAt (fallingRanks (c - n + 1) (min c 4)) window ∧
      Machine.runSteps c (s.underWay 0 [] false []) = .next (s.underWay (min c n) window false events) := by
  induction c with
  | zero =>
    refine ⟨[], [], rfl, ?_, by rw [Nat.zero_min]; rfl⟩
    rw [fallingRanks_of_lt (by omega)]
    exact .nil
  | succ c ih =>
    obtain ⟨window, events, hevents, hwindow, hrun⟩ := ih (Nat.le_of_succ_le hc)
    obtain ⟨window', e, hwindow', hstep⟩ := h.step hn hc hwindow
    exact ⟨window', events ++ [e], by simp [hevents], hwindow', runSteps_succ_of_next hrun hstep⟩

end Nops

/-- Settles O54: after N + 4 cycles the ranks left to the window run from 4 down to 5, so that it is empty. -/
theorem nopsTakeNPlusFourCycles : Obligations.NopsTakeNPlusFourCycles := by
  unfold Obligations.NopsTakeNPlusFourCycles
  intro s n hd hpc hn hbound himem
  have ⟨hs, _, _⟩ := hd
  have h : s.RunsNops n := ⟨hs, hpc, hbound, himem⟩
  have hat : s.at .nop := by
    refine ⟨.word 0, ?_, rfl⟩
    rw [hpc, himem]
    exact (List.getElem?_replicate ..).trans (if_pos hn)
  obtain ⟨window, events, hlength, hwindow, hrun⟩ := h.runSteps hn le_rfl
  rw [fallingRanks_of_lt (by omega)] at hwindow
  cases hwindow
  rw [Nat.min_eq_right (Nat.le_add_right n 4), ← runSteps_congr (hd.step_eq_underWay hat)] at hrun
  refine ⟨_, hrun, h.pastEnd.drained, ?_, rfl, ?_, rfl, rfl, h.pastEnd.no_work⟩
  · exact (congrArg (s.cycle + ·) hlength).trans (Nat.add_assoc ..).symm
  · exact (congrArg (· + BitVec.ofNat 32 (4 * n)) hpc).trans (BitVec.zero_add _)

end Sys2Proof.Machine

/-! PROOFS. The back-to-back pair of two `add`s, of which the second reads what the first one has published in the same
cycle (R203, R205, R206). -/

namespace Sys2Proof.Machine

section BackToBack

variable {s : State} {r rs rt rd : Nat} {v : Word} (events : List (List Event))

/-- The first `add` behind its execute stage, with the sum `v`. -/
def Instance.sumExecuted (s : State) (r rs rt : Nat) (v : Word) : Instance :=
  { Instance.decoded s (.add r rs rt) with result := v, dest := some r }.completing .E

/-- The first `add` behind its memory stage, which has published the sum. -/
def Instance.sumPublished (s : State) (r rs rt : Nat) (v : Word) : Instance :=
  { Instance.sumExecuted s r rs rt v with fwd := some v }.completing .M

/-- Behind the bookkeeping of an instance that has published `v` for its destination `r`, a read of `r` takes `v` from
the forward map (R112, R176). -/
theorem State.advanced_gives_published (u w : State) (k : Nat) {inst : Instance} (next : Stage) (visited : Instance)
    (hdest : inst.dest = some r) (hcleanup : inst.cleanup = false) (hfwd : inst.fwd = some v) :
    ((u.advanced w k inst next).visit visited).gives r v := by
  obtain ⟨hpending, hlookup⟩ := hazardUpdate_of_pending u.wires (inst := inst.completing next) hdest hcleanup r
  rw [if_pos ⟨rfl, hfwd ▸ rfl⟩] at hlookup
  exact acquire_of_forwarded (hpending.2 (.inl rfl)) (hlookup.trans hfwd)

/-- Nothing is pending when the first `add` acquires its operands; the second one has an idle decode stage. -/
theorem State.PastEnd.step_sumExecuted (h : s.PastEnd 2) (hrs : rs < 32) (hrt : rt < 32) :
    step (s.underWay 2 [.decoded s (.add r rs rt), .fetchedBehind s 1 (.add rd r r)] false events) =
      .next (s.underWay 2 [.sumExecuted s r rs rt (s.reg rs + s.reg rt), .useDecoded s rd r] false
        (events ++ [[⟨.E, s.nextSeq⟩, ⟨.D, s.nextSeq + 1⟩]])) :=
  h.step_pair (gn := idleStage) (next := .E) (next' := .D) rfl rfl
    (addExecute_of_gives r _ (State.gives_of_none_awaiting rfl rfl hrs) (State.gives_of_none_awaiting rfl rfl hrt))
    rfl rfl rfl rfl rfl ((s.withStores_advanced ..).trans (s.withStores_underWay ..)) rfl

/-- No stall: the first `add` publishes its sum before the second one is visited, which doubles it. -/
theorem State.PastEnd.step_sumPublished (h : s.PastEnd 2) :
    step (s.underWay 2 [.sumExecuted s r rs rt v, .useDecoded s rd r] false events) =
      .next (s.underWay 2 [.sumPublished s r rs rt v, .useExecuted s rd r v] false
        (events ++ [[⟨.M, s.nextSeq⟩, ⟨.E, s.nextSeq + 1⟩]])) := by
  have hgives := fun u w => State.advanced_gives_published u w 0 (inst := .sumPublished s r rs rt v) .M
    (.useDecoded s rd r) rfl rfl rfl
  exact h.step_pair (fn := publishResult) (gn := addExecute rd r r) (next := .M) (next' := .E) rfl rfl rfl
    (addExecute_of_gives rd _ (hgives _ _) (hgives _ _)) rfl rfl rfl rfl
    ((s.withStores_advanced ..).trans (s.withStores_underWay ..)) rfl

/-- The first `add` commits its sum while the second one publishes its own. -/
theorem State.PastEnd.step_sumRetired (h : s.PastEnd 2) (hr0 : r ≠ 0) (hr : r < 32) :
    step (s.underWay 2 [.sumPublished s r rs rt v, .useExecuted s rd r v] false events) =
      .next ((s.setReg r v).underWay 2 [.usePublished s rd r v] false
        (events ++ [[⟨.W, s.nextSeq⟩, ⟨.M, s.nextSeq + 1⟩]])) :=
  h.step_pair (fn := writebackStage) (gn := publishResult) rfl rfl
    (writebackStage_ok rfl (regWrite_of_lt _ _ hr0 hr)) rfl rfl rfl rfl rfl
    ((s.withStores_advanced ..).trans (s.withStores_underWay_setReg ..)) rfl

end BackToBack

/-- The trace of a back-to-back pair (R205): from its fetch on the second instruction completes a stage in every
cycle. -/
def backToBackTrace (seq : Nat) : List (List Event) :=
  [[⟨.F, seq⟩], [⟨.D, seq⟩, ⟨.F, seq + 1⟩], [⟨.E, seq⟩, ⟨.D, seq + 1⟩], [⟨.M, seq⟩, ⟨.E, seq + 1⟩],
    [⟨.W, seq⟩, ⟨.M, seq + 1⟩], [⟨.W, seq + 1⟩]]

/-- The run of a back-to-back pair, as a whole state. -/
theorem State.drained.runSteps_backToBack {s : State} {r rs rt rd : Nat} {v : Word} (hd : s.drained)
    (hend : s.programEndsAfter 2) (hsum : s.at (.add r rs rt)) (huse : (s.underWay 1 [] false []).at (.add rd r r))
    (hr0 : r ≠ 0) (hr : r < 32) (hrs : rs < 32) (hrt : rt < 32) (hrd0 : rd ≠ 0) (hrd : rd < 32)
    (hv : s.reg rs + s.reg rt = v) :
    runSteps 6 s = .next (((s.setReg r v).setReg rd (v + v)).underWay 2 [] false (backToBackTrace s.nextSeq)) := by
  have h : s.PastEnd 2 := hend.pastEnd hd.1
  rw [hd.runSteps_fetch_pair hsum huse rfl, runSteps_of_step (h.step_sumExecuted _ hrs hrt), hv,
    runSteps_of_step (h.step_sumPublished _), runSteps_of_step (h.step_sumRetired _ hr0 hr),
    runSteps_of_step ((h.setReg r v).step_useRetired _ hrd0 hrd)]
  rfl

/-- Settles O56: the run of the pair as a whole state has its six cycles, the two register writes, nothing in flight
and the pc past the program. -/
theorem backToBackAddsDoNotStall : Obligations.BackToBackAddsDoNotStall := by
  unfold Obligations.BackToBackAddsDoNotStall
  intro s r rs rt rd slot hd hend hsum hslot huse hr0 hr hrs hrt hrd0 hrd
  generalize hv : s.reg rs + s.reg rt = v
  have hat : (s.underWay 1 [] false []).at (.add rd r r) := hend.at_second hslot huse
  have h : s.PastEnd 2 := hend.pastEnd hd.1
  have hover := (h.setReg r v).setReg rd (v + v)
  exact ⟨_, hd.runSteps_backToBack hend hsum hat hr0 hr hrs hrt hrd0 hrd hv, hover.drained, rfl, hover.no_work, rfl⟩

end Sys2Proof.Machine

/-! PROOFS. The primitives of the predictor and of the pc (R216 to R218, R221, R225): what a lookup answers when one
entry has been stored, and the masks of a masked jump as arithmetic. -/

namespace Sys2Proof.Machine

/-! ## The predictor table -/

theorem btbIndex_lt {s : State} (p : Word) (hentries : 1 ≤ s.params.btbEntries)
    (hlength : s.btb.length = s.params.btbEntries) : btbIndex s p < s.btb.length :=
  hlength ▸ Nat.mod_lt _ hentries

/-- The state with an entry stored at the index of `p`. -/
def State.storeEntry (s : State) (p : Word) (e : BtbEntry) : State := { s with btb := s.btb.set (btbIndex s p) e }

/-- An address of the same index is answered by the stored entry alone, every other as before (R216, R217). -/
theorem btbLookup_storeEntry {s : State} {p : Word} (q : Word) (e : BtbEntry) (hp : btbIndex s p < s.btb.length) :
    btbLookup (s.storeEntry p e) q =
      if btbIndex s q = btbIndex s p then if e.valid && decide (e.tag = q) then some e else none
      else btbLookup s q := by
  have hindex : btbIndex (s.storeEntry p e) q = btbIndex s q := rfl
  have hentry : btbEntry (s.storeEntry p e) (btbIndex s q) =
      if btbIndex s q = btbIndex s p then e else btbEntry s (btbIndex s q) := by
    split
    next hsame => simp [btbEntry, State.storeEntry, List.getD, hsame, hp]
    next hother => simp [btbEntry, State.storeEntry, List.getD, Ne.symm hother]
  unfold btbLookup
  rw [hindex, hentry]
  split <;> rfl

/-- A taken branch, or one that hits, stores its entry (R218). -/
theorem btbUpdate_of_stored {s : State} {p : Word} (t : Word) {taken : Bool}
    (h : taken = true ∨ btbLookup s p ≠ none) :
    btbUpdate s p t taken = s.storeEntry p { valid := true, tag := p, target := t, taken := taken } :=
  if_pos (by simpa [Option.isSome_iff_ne_none] using h)

/-- A branch that is not taken and misses stores nothing (R218). -/
theorem btbUpdate_of_miss {s : State} {p : Word} (t : Word) (h : btbLookup s p = none) :
    btbUpdate s p t false = s := by
  simp [btbUpdate, h]

theorem btbLookup_btbUpdate_same {s : State} {p : Word} (t : Word) {taken : Bool} (hp : btbIndex s p < s.btb.length)
    (h : taken = true ∨ btbLookup s p ≠ none) :
    btbLookup (btbUpdate s p t taken) p = some { valid := true, tag := p, target := t, taken := taken } := by
  rw [btbUpdate_of_stored t h, btbLookup_storeEntry p _ hp]
  simp

theorem btbLookup_btbUpdate_other {s : State} {p q : Word} (t : Word) (taken : Bool)
    (hp : btbIndex s p < s.btb.length) (hq : btbIndex s q ≠ btbIndex s p) :
    btbLookup (btbUpdate s p t taken) q = btbLookup s q := by
  by_cases h : taken = true ∨ btbLookup s p ≠ none
  · rw [btbUpdate_of_stored t h, btbLookup_storeEntry q _ hp, if_neg hq]
  · obtain ⟨htaken, hmiss⟩ := not_or.1 h
    rw [Bool.eq_false_of_not_eq_true htaken, btbUpdate_of_miss t (not_not.1 hmiss)]

/-- A stored entry evicts that of another address with the same index (R225). -/
theorem btbLookup_btbUpdate_evicted {s : State} {p q : Word} (t : Word) (hp : btbIndex s p < s.btb.length)
    (hne : q ≠ p) (hq : btbIndex s q = btbIndex s p) : btbLookup (btbUpdate s p t true) q = none := by
  rw [btbUpdate_of_stored t (.inl rfl), btbLookup_storeEntry q _ hp, if_pos hq]
  simp [Ne.symm hne]

/-- Settles O17: the stored entry answers for the addresses of its index, and nothing else of the table changes. -/
theorem predictorLookupAfterUpdate : Obligations.PredictorLookupAfterUpdate := by
  unfold Obligations.PredictorLookupAfterUpdate
  intro s p q t hentries hlength
  have hp := btbIndex_lt p hentries hlength
  exact ⟨btbLookup_btbUpdate_same t hp (.inl rfl), btbUpdate_of_miss t,
    fun hhit => btbLookup_btbUpdate_same t hp (.inr hhit), fun b hq => btbLookup_btbUpdate_other t b hp hq,
    fun hne hq => btbLookup_btbUpdate_evicted t hp hne hq⟩

/-! ## The masks of a masked jump -/

theorem toNat_and_lowMask (p : Word) : (p &&& 0x0FFFFFFF).toNat = p.toNat % 2 ^ 28 := by
  have hmask : (0x0FFFFFFF : Word).toNat = 2 ^ 28 - 1 := rfl
  rw [BitVec.toNat_and, hmask, Nat.and_two_pow_sub_one_eq_mod]

/-- Nothing carries between the upper four bits and the lower 28. -/
theorem highMask_or_lowMask_eq_add (p q : Word) :
    (p &&& 0xF0000000) ||| (q &&& 0x0FFFFFFF) = (p &&& 0xF0000000) + (q &&& 0x0FFFFFFF) := by
  have hmasks : (0xF0000000 : Word) &&& 0x0FFFFFFF = 0 := by decide
  have hdisjoint : (p &&& 0xF0000000) &&& (q &&& 0x0FFFFFFF) = 0 := by
    calc (p &&& 0xF0000000) &&& (q &&& 0x0FFFFFFF)
        = (p &&& q) &&& ((0xF0000000 : Word) &&& 0x0FFFFFFF) := by ac_rfl
      _ = 0 := by rw [hmasks]; exact BitVec.and_zero
  exact (BitVec.add_eq_or_of_and_eq_zero _ _ hdisjoint).symm

theorem highMask_add_lowMask (p : Word) : (p &&& 0xF0000000) + (p &&& 0x0FFFFFFF) = p := by
  have hmasks : (0xF0000000 : Word) ||| 0x0FFFFFFF = BitVec.allOnes 32 := by decide
  rw [← highMask_or_lowMask_eq_add, ← BitVec.and_or_distrib_left, hmasks, BitVec.and_allOnes]

theorem toNat_and_highMask (p : Word) : (p &&& 0xF0000000).toNat = p.toNat / 2 ^ 28 * 2 ^ 28 := by
  have hsplit := congrArg BitVec.toNat (eq_sub_of_add_eq (highMask_add_lowMask p))
  rw [BitVec.toNat_sub, toNat_and_lowMask] at hsplit
  omega

/-- Settles O18: the two masked parts are the two summands, and they do not carry. -/
theorem applyJumpDirectAndMasked : Obligations.ApplyJumpDirectAndMasked := by
  unfold Obligations.ApplyJumpDirectAndMasked
  intro s target taken
  have hpc : (s.pc &&& 0xF0000000) ||| (target &&& 0x0FFFFFFF) =
      BitVec.ofNat 32 (s.pc.toNat / 2 ^ 28 * 2 ^ 28 + target.toNat % 2 ^ 28) := by
    rw [highMask_or_lowMask_eq_add, BitVec.add_def, toNat_and_highMask, toNat_and_lowMask]
  exact ⟨rfl, congrArg (fun pc => { s with pc := pc }) hpc⟩

end Sys2Proof.Machine

/-! PROOFS. Every valid predictor entry holds the computed target of the branch at its tag (R224). An instance reads the
pc that the cycle began with, unless an older one has jumped; then the squash removes it (R177, R178), and only a `ble`
that was decoded before this cycle writes the predictor (R156). -/

namespace Sys2Proof.Machine

/-! ## What an instance owes to the program -/

theorem InstanceOfProgram.congr {s t : State} {inst : Instance} (h : InstanceOfProgram s inst)
    (himem : t.imem = s.imem) (hpc : t.pc = s.pc) : InstanceOfProgram t inst where
  copied := himem ▸ h.copied
  unfetched := hpc ▸ h.unfetched
  fetched := h.fetched
  target := h.target

/-- An instance that owes nothing to the pc any more, only to the program (R111). -/
structure FetchedOfProgram (s : State) (inst : Instance) : Prop where
  program : InstanceOfProgram s inst
  past_fetch : inst.stage ≠ .PF

theorem FetchedOfProgram.of_imem_eq {s t : State} {inst : Instance} (h : FetchedOfProgram s inst)
    (himem : t.imem = s.imem) : InstanceOfProgram t inst where
  copied := himem ▸ h.program.copied
  unfetched := fun hPF => absurd hPF h.past_fetch
  fetched := h.program.fetched
  target := h.program.target

theorem FetchedOfProgram.withJump {s : State} {inst : Instance} (h : FetchedOfProgram s inst)
    (jump : Option JumpIntent) : FetchedOfProgram s { inst with jump := jump } :=
  ⟨⟨h.program.copied, h.program.unfetched, h.program.fetched, h.program.target⟩, h.past_fetch⟩

/-- The issue step copies the instruction at the pc (R43, R172). -/
theorem InstanceOfProgram.fresh {s : State} {i : Instr} (hat : s.at i) (seq : Nat) :
    InstanceOfProgram s (Instance.fresh i (wordIndex s.pc) seq) where
  copied := hat
  unfetched := fun _ => rfl
  fetched := fun hne => absurd rfl hne
  target := fun _ _ _ _ hne => absurd rfl hne

/-! ## One stage -/

/-- An instance that advances while the pc is still that of `b`: fetch reads this pc, decode of a `ble` latches its
target, and no other stage writes either (R89, R111, R156). -/
theorem StageEffect.fetchedOfProgram {b s u : State} {inst inst' : Instance} {next : Stage}
    (hu : StageEffect inst.instr (s.visit inst) inst inst' u) (h : InstanceOfProgram b inst) (hpc : s.pc = b.pc)
    (hnext : inst.stage.next = some next) : FetchedOfProgram b { inst' with stage := next } := by
  obtain ⟨hinstr, hindex, -, -⟩ := hu.named
  have hcopied := h.copied
  rw [← hinstr, ← hindex] at hcopied
  have hnextne := (Stage.next_eq_some hnext).2
  have hsnap := hu.pcSnap
  refine ⟨⟨hcopied, fun hPF => absurd hPF hnextne, fun _ => ?_, fun rs rt imm hble _ hneF => ?_⟩, hnextne⟩
  · change inst'.index = wordIndex inst'.pcSnap
    rw [hindex, hsnap]
    split
    next hPF => exact (h.unfetched hPF).trans (congrArg wordIndex hpc.symm)
    next hne => exact h.fetched hne
  · change inst'.btarget = branchTarget inst'.pcSnap imm
    have hble' : inst.instr = .ble rs rt imm := hinstr.symm.trans hble
    have hne : inst.stage ≠ .PF := by
      intro hPF
      rw [hPF] at hnext
      cases hnext
      exact hneF rfl
    rw [hsnap, if_neg hne]
    by_cases hF : inst.stage = .F
    · exact hu.branch rs rt imm hble' hF
    · rw [hu.btarget.resolve_right hF]
      exact h.target rs rt imm hble' hne hF

/-- The one stage that writes the predictor stores the target of a `ble` past decode under its own address (R218). -/
theorem StageEffect.entries_sound {b s u : State} {inst inst' : Instance}
    (hu : StageEffect inst.instr (s.visit inst) inst inst' u) (h : InstanceOfProgram b inst)
    (hs : ∀ e ∈ s.btb, e.sound b.imem) : ∀ e ∈ u.btb, e.sound b.imem := by
  rcases hu.btb with hsame | ⟨hst, ⟨rs, rt, imm, hble⟩, taken, hset⟩
  · rw [hsame]
    exact hs
  · intro e he
    rw [hset] at he
    rcases List.mem_or_eq_of_mem_set he with he | rfl
    · exact hs e he
    · intro _
      have hne : inst.stage ≠ .PF := by simp [hst]
      obtain ⟨slot, hslot, hlegal⟩ := h.copied
      exact ⟨slot, rs, rt, imm, h.fetched hne ▸ hslot, hlegal.trans (congrArg _ hble),
        h.target rs rt imm hble hne (by simp [hst])⟩

/-! ## The sweep -/

/-- Where a sweep of a cycle that began in `b` stands, when the instances `advanced` are past it and `left` still to
visit. Before a jump every advanced instance is a fetched one of the program, after it those up to the cut. -/
structure State.ProgramStands (b : State) (advanced left : List Instance) (s : State) : Prop where
  window : s.window = advanced ++ left
  imem : s.imem = b.imem
  entries : ∀ e ∈ s.btb, e.sound b.imem
  unjumped : s.wires.jumped = false → s.pc = b.pc ∧ ∀ inst ∈ advanced, FetchedOfProgram b inst
  jumped : s.wires.jumped = true → ∃ c, s.wires.cut = some c ∧ c < advanced.length ∧
    ∀ inst ∈ advanced.take (c + 1), FetchedOfProgram b inst
  waiting : ∀ inst ∈ left, InstanceOfProgram b inst

/-- The next instance is put back as `last`, which owes anything only if no older one has jumped. -/
theorem State.ProgramStands.advance {b s t : State} {advanced rest : List Instance} {inst last : Instance}
    (h : b.ProgramStands advanced (inst :: rest) s) (hwindow : t.window = s.window.set advanced.length last)
    (himem : t.imem = s.imem) (hentries : ∀ e ∈ t.btb, e.sound b.imem)
    (hlast : s.wires.jumped = false → FetchedOfProgram b last)
    (hunjumped : t.wires.jumped = false → s.wires.jumped = false ∧ t.pc = s.pc)
    (hjumped : t.wires.jumped = true →
      s.wires.jumped = true ∧ t.wires.cut = s.wires.cut ∨
      s.wires.jumped = false ∧ t.wires.cut = some advanced.length) :
    b.ProgramStands (advanced ++ [last]) rest t where
  window := by simp [hwindow, h.window]
  imem := himem.trans h.imem
  entries := hentries
  unjumped := by
    intro hno
    obtain ⟨hno', hpc⟩ := hunjumped hno
    obtain ⟨hp, hadvanced⟩ := h.unjumped hno'
    exact ⟨hpc.trans hp, List.forall_mem_append.2 ⟨hadvanced, List.forall_mem_singleton.2 (hlast hno')⟩⟩
  jumped := by
    intro hyes
    rcases hjumped hyes with ⟨hyes', hcut⟩ | ⟨hno', hcut⟩
    · obtain ⟨c, hc, hlt, hkept⟩ := h.jumped hyes'
      exact ⟨c, hcut.trans hc, by simp; omega, by rwa [List.take_append_of_le_length hlt]⟩
    · obtain ⟨-, hadvanced⟩ := h.unjumped hno'
      exact ⟨advanced.length, hcut, by simp, fun a ha => List.forall_mem_append.2
        ⟨hadvanced, List.forall_mem_singleton.2 (hlast hno')⟩ a (List.mem_of_mem_take ha)⟩
  waiting := fun a ha => h.waiting a (List.mem_cons_of_mem _ ha)

/-- The bookkeeping of the next instance, whether its jump is honored or not. -/
theorem State.ProgramStands.settle {b s u : State} {advanced rest : List Instance} {inst inst' : Instance}
    {next : Stage} (h : b.ProgramStands advanced (inst :: rest) s)
    (hu : StageEffect inst.instr (s.visit inst) inst inst' u) (hnext : inst.stage.next = some next) :
    ∃ last, b.ProgramStands (advanced ++ [last]) rest
      (Machine.settle (u.visit inst') advanced.length inst' next) := by
  have hinst := h.waiting inst List.mem_cons_self
  have hwindow : (u.visit inst').window = s.window := hu.window_eq
  have himem : (Machine.settle (u.visit inst') advanced.length inst' next).imem = s.imem :=
    (settle_imem ..).trans hu.sameRun.imem
  have hwires : u.wires = (s.visit inst).wires := hu.wires_eq
  have hentries : ∀ e ∈ (Machine.settle (u.visit inst') advanced.length inst' next).btb, e.sound b.imem := by
    rw [settle_btb]
    exact hu.entries_sound hinst h.entries
  have hput : s.wires.jumped = false → FetchedOfProgram b { inst' with stage := next } :=
    fun hno => hu.fetchedOfProgram hinst (h.unjumped hno).1 hnext
  rcases settle_cases (u.visit inst') advanced.length inst' next with ⟨j, -, -, hno, e⟩ | ⟨-, e⟩
  · have hno' : s.wires.jumped = false := by simpa [hwires] using hno
    exact ⟨_, h.advance (by rw [e, ← hwindow]) himem hentries (fun _ => (hput hno').withJump _)
      (fun hno => by rw [e] at hno; cases hno) fun _ => .inr ⟨hno', by rw [e]⟩⟩
  · have hjumped : (Machine.settle (u.visit inst') advanced.length inst' next).wires.jumped = s.wires.jumped := by
      simp [e, hwires]
    exact ⟨_, h.advance (by rw [e, ← hwindow]) himem hentries hput
      (fun hno => ⟨hjumped ▸ hno, by rw [e]; exact hu.pc_eq⟩)
      fun hyes => .inl ⟨hjumped ▸ hyes, by simp [e, hwires]⟩⟩

/-- What the cycle leaves in flight: fetched instances, and behind a stall those that still wait for the pc, which then
stays (R175, R180). -/
theorem State.ProgramStands.finish_instances {b s : State} {advanced left : List Instance}
    (h : b.ProgramStands advanced left s) (hleft : ∀ inst ∈ left, s.wires.stalled = true) :
    ∀ inst ∈ s.finish.window, InstanceOfProgram s.finish inst := by
  intro inst hinst
  have himem : s.finish.imem = b.imem := (State.finish_imem s).trans h.imem
  rw [State.finish_window] at hinst
  have hkept := s.squash.retire_window_sublist.subset hinst
  cases hjumped : s.wires.jumped with
  | false =>
    obtain ⟨hp, hadvanced⟩ := h.unjumped hjumped
    rw [State.squash_window_of_unjumped hjumped, h.window] at hkept
    rcases List.mem_append.1 hkept with hpast | hwaits
    · exact (hadvanced inst hpast).of_imem_eq himem
    · have hpc : s.finish.pc = b.pc := by simp [State.finish_pc, hleft inst hwaits, hp]
      exact (h.waiting inst hwaits).congr himem hpc
  | true =>
    obtain ⟨c, hcut, hlt, hfetched⟩ := h.jumped hjumped
    rw [State.squash_window_of_jumped hjumped hcut, h.window, List.take_append_of_le_length hlt] at hkept
    exact (hfetched inst hkept).of_imem_eq himem

theorem State.ProgramStands.sweep {b s t : State} {w : List Instance} (h : b.ProgramStands [] w s)
    (hs : s.fault = none) (hsweep : Machine.sweep w 0 s = .next t) :
    (∀ e ∈ t.btb, e.sound b.imem) ∧
    (t.fault = none → ∀ inst ∈ t.finish.window, InstanceOfProgram t.finish inst) := by
  refine sweep_induct_cases (P := fun left k u => ∃ advanced, advanced.length = k ∧ b.ProgramStands advanced left u)
    (Q := fun v => (∀ e ∈ v.btb, e.sound b.imem) ∧
      (v.fault = none → ∀ inst ∈ v.finish.window, InstanceOfProgram v.finish inst))
    ?_ ?_ ?_ ?_ w 0 s t ⟨[], rfl, h⟩ hs hsweep
  · rintro k u ⟨advanced, -, hu⟩ -
    exact ⟨hu.entries, fun _ => hu.finish_instances (by simp)⟩
  · rintro inst rest k u fn f ⟨advanced, -, hu⟩ - - -
    exact ⟨hu.entries, fun hnone => by cases hnone⟩
  · rintro inst rest k u ⟨advanced, -, hu⟩ - -
    exact ⟨hu.entries, fun _ => State.ProgramStands.finish_instances
      ⟨hu.window, hu.imem, hu.entries, hu.unjumped, hu.jumped, hu.waiting⟩ fun _ _ => rfl⟩
  · rintro inst rest k u inst' v next ⟨advanced, rfl, hu⟩ - hv hnext
    obtain ⟨last, hlast⟩ := hu.settle hv hnext
    exact ⟨advanced ++ [last], by simp, hlast⟩

/-! ## The step -/

theorem State.IssuesTo.programStands {s u : State} (h : s.IssuesTo u) (hs : s.fault = none) (hpred : s.PredictorInv) :
    s.ProgramStands [] u.window u.clearHazards where
  window := rfl
  imem := by rcases h with ⟨rfl, -⟩ | ⟨i, -, -, rfl⟩ <;> rfl
  entries := by rcases h with ⟨rfl, -⟩ | ⟨i, -, -, rfl⟩ <;> exact hpred.entries
  unjumped := fun _ => ⟨by rcases h with ⟨rfl, -⟩ | ⟨i, -, -, rfl⟩ <;> rfl, by simp⟩
  jumped := fun hyes => by cases hyes
  waiting := by
    intro inst hinst
    rcases h.mem_window hinst with hold | ⟨i, hat, rfl⟩
    · exact hpred.instances hs inst hold
    · exact .fresh hat _

/-- Settles O9: the sweep stores sound entries only, and what the end of the cycle leaves in flight is of the
program. -/
theorem stepKeepsPredictorSound : Obligations.StepKeepsPredictorSound := by
  unfold Obligations.StepKeepsPredictorSound
  intro s t hpred h
  have hs : s.fault = none := (step_next h).1
  apply step_elim h
  · exact fun _ => hpred
  · exact fun _ w => ⟨hpred.entries, fun hnone => by cases hnone⟩
  intro _ u hu hissue v hv
  have hstands := hissue.programStands hs hpred
  obtain ⟨hentries, hinstances⟩ := hstands.sweep hu hv
  have himem : v.imem = s.imem := (hissue.sweep_frame hu hv).1
  exact ⟨fun hraised => ⟨himem ▸ hentries, fun hnone => absurd hnone hraised⟩,
    fun hnone => ⟨by rw [State.finish_btb, State.finish_imem, himem]; exact hentries, fun _ => hinstances hnone⟩⟩

end Sys2Proof.Machine

/-! PROOFS. The host's accessors as the pipeline's own primitives (R232 to R235, R36), and a step of the reset state
(R271). -/

namespace Sys2Proof.Machine

/-! ## The accessors (R232 to R235) -/

/-- What the host reads from a register, with register 0 named (R21, R232). -/
theorem hostReadReg_of_lt (s : State) {i : Nat} (hi : i < 32) :
    hostReadReg s i = .done (if i = 0 then 0 else s.reg i) := by
  have hzero : (if i = 0 then 0 else s.reg i) = s.reg i := by
    split
    next h0 => rw [h0, State.reg_zero]
    next => rfl
  rw [hzero, hostReadReg, regRead_of_lt s hi, HostReply.ofPrimitive]

/-- Settles O59: an accessor is the host's view of a primitive's answer, and the primitives' laws say what that is. -/
theorem hostAccessors : Obligations.HostAccessors := by
  unfold Obligations.HostAccessors
  intro s i a v
  refine ⟨hostReadReg_of_lt s, fun h0 hi => congrArg HostReply.ofPrimitive (regWrite_of_lt s v h0 hi),
    congrArg HostReply.ofPrimitive (regWrite_zero s v), fun hi => ⟨?readReg, ?writeReg⟩,
    fun ha => ⟨?readMem, ?writeMem⟩, fun ha => ⟨?readMemOut, ?writeMemOut⟩, rfl, rfl, rfl,
    fun older hras => ⟨?pop, ?peek⟩, fun hnil => ⟨?popEmpty, ?peekEmpty⟩,
    fun hroom => congrArg HostReply.ofPrimitive (rasPush_of_not_full v hroom),
    fun hfull => congrArg HostReply.ofPrimitive (rasPush_of_full v hfull)⟩
  case readReg => exact congrArg HostReply.ofPrimitive (regRead_of_ge s hi)
  case writeReg => exact congrArg HostReply.ofPrimitive (regWrite_of_ge s v hi)
  case readMem => exact congrArg HostReply.ofPrimitive (memRead_of_lt ha)
  case writeMem => exact congrArg HostReply.ofPrimitive (memWrite_of_lt v ha)
  case readMemOut => exact congrArg HostReply.ofPrimitive (memRead_of_ge ha)
  case writeMemOut => exact congrArg HostReply.ofPrimitive (memWrite_of_ge v ha)
  case pop => exact congrArg HostReply.ofPrimitive (rasPop_of_append hras)
  case peek => exact congrArg HostReply.ofPrimitive (rasPeek_of_append hras)
  case popEmpty => exact congrArg HostReply.ofPrimitive (rasPop_of_nil hnil)
  case peekEmpty => exact congrArg HostReply.ofPrimitive (rasPeek_of_nil hnil)

/-! ## A step before a load (R271) -/

/-- Settles O6: the reset state has an empty program and an empty window, so the step finds no work. -/
theorem stepBeforeLoadChangesNothing : Obligations.StepBeforeLoadChangesNothing := by
  unfold Obligations.StepBeforeLoadChangesNothing
  intro p
  have hprogram : (State.resetWith p).imem.length ≤ (State.resetWith p).pc.toNat / 4 := Nat.zero_le _
  exact (cyclesAndTraceCountTheWork (State.resetWith p) rfl).1 hprogram rfl

end Sys2Proof.Machine

/-! PROOFS. What a cycle does behind the instance that honors a jump (R177, R178, R285): the younger instances run their
stages, their own jumps are ignored and the squash drops them; what a `return` among them took from the RAS stays
taken. -/

namespace Sys2Proof.Machine

/-! ## The sweep behind a jump -/

/-- The instance at position `c` has honored its jump to `target`, and `kept` is the window up to it (R177, R178). -/
structure State.BehindJump (c : Nat) (kept : List Instance) (target : Word) (s : State) : Prop where
  jumped : s.wires.jumped = true
  cut : s.wires.cut = some c
  kept : s.window.take (c + 1) = kept
  pc : s.pc = target

theorem State.PastJump.behindJump {w advanced left : List Instance} {last : Instance} {target : Word} {s : State}
    (h : s.PastJump w advanced last left target) : s.BehindJump advanced.length (advanced ++ [last]) target where
  jumped := h.jumped
  cut := h.cut
  kept := by rw [h.stands.window, List.take_left' (by simp)]
  pc := h.pc

/-- The bookkeeping of an instance further back honors no second jump and writes behind the cut. -/
theorem State.BehindJump.settle {c k : Nat} {kept : List Instance} {target : Word} {s u : State} {inst inst' : Instance}
    (h : s.BehindJump c kept target) (hk : c < k) (hu : StageEffect inst.instr (s.visit inst) inst inst' u)
    (next : Stage) : (Machine.settle (u.visit inst') k inst' next).BehindJump c kept target := by
  have hwires : u.wires = (s.visit inst).wires := hu.wires_eq
  rcases settle_cases (u.visit inst') k inst' next with ⟨j, -, -, hno, -⟩ | ⟨-, e⟩
  · rw [State.visit_wires, hwires, State.visit_wires] at hno
    exact absurd (h.jumped.symm.trans hno) Bool.noConfusion
  · rw [e]
    refine ⟨by simp [hwires, h.jumped], by simp [hwires, h.cut], ?_, hu.pc_eq.trans h.pc⟩
    rw [State.visit_window, hu.window_eq, State.visit_window, List.take_set_of_le hk, h.kept]

/-- Whatever the sweep meets behind the jump, it leaves the pc and the window up to the cut. -/
theorem State.BehindJump.sweep {c k : Nat} {kept l : List Instance} {target : Word} {s t : State}
    (h : s.BehindJump c kept target) (hk : c < k) (hs : s.fault = none) (ht : sweep l k s = .next t) :
    t.BehindJump c kept target := by
  refine sweep_induct_cases (P := fun _ k u => c < k ∧ u.BehindJump c kept target) ?_ ?_ ?_ ?_ l k s t ⟨hk, h⟩ hs ht
  · exact fun _ _ hP _ => hP.2
  · exact fun _ _ _ _ _ _ hP _ _ _ => ⟨hP.2.jumped, hP.2.cut, hP.2.kept, hP.2.pc⟩
  · exact fun _ _ _ _ hP _ _ => ⟨hP.2.jumped, hP.2.cut, hP.2.kept, hP.2.pc⟩
  · rintro inst rest k u inst' v next ⟨hk, hu⟩ - hv -
    exact ⟨Nat.lt_succ_of_lt hk, hu.settle hk hv next⟩

/-- The cycle then ends with `kept`, less what is retired, at the target, and forgets a stall (R178 to R181). -/
theorem State.BehindJump.finish {c : Nat} {kept : List Instance} {target : Word} {s : State}
    (h : s.BehindJump c kept target) (hfall : StagesFall kept) :
    s.finish.window = (kept.filter fun inst => inst.stage ≠ .W) ∧ s.finish.pc = target ∧
      s.finish.stalledPrev = false := by
  have hsquash : s.squash.window = kept := (State.squash_window_of_jumped h.jumped h.cut).trans h.kept
  refine ⟨?_, ?_, ?_⟩
  · rw [State.finish_window, State.retire_window_eq_filter (hsquash ▸ hfall), hsquash]
  · simp [State.finish_pc, h.jumped, h.pc]
  · simp [h.jumped]

/-! ## The RAS in the parts of the sweep (R37) -/

/-- Instances past their decode stage leave the RAS. -/
theorem sweep_ras_of_late {l : List Instance} {k : Nat} {s t : State} (hlate : ∀ inst ∈ l, 3 ≤ inst.stage.rank)
    (hs : s.fault = none) (h : sweep l k s = .next t) : t.ras = s.ras := by
  refine sweep_induct_cases (P := fun left _ u => (∀ inst ∈ left, 3 ≤ inst.stage.rank) ∧ u.ras = s.ras)
    (Q := fun t => t.ras = s.ras) ?_ ?_ ?_ ?_ l k s t ⟨hlate, rfl⟩ hs h
  · exact fun _ _ hP _ => hP.2
  · exact fun _ _ _ _ _ _ hP _ _ _ => hP.2
  · exact fun _ _ _ _ hP _ _ => hP.2
  · rintro inst rest k u inst' v next ⟨hlate, hras⟩ - hv -
    obtain ⟨hinst, hrest⟩ := List.forall_mem_cons.1 hlate
    have hstage : inst.stage ≠ .F := fun hst => absurd (hst ▸ hinst) (by decide)
    exact ⟨hrest, by rw [settle_ras, State.visit_ras, hv.ras_eq fun hst => absurd hst hstage, State.visit_ras, hras]⟩

theorem State.sweepsPast.ras_eq {s v : State} {older : List Instance} (h : s.sweepsPast older v)
    (hlate : ∀ inst ∈ older, 3 ≤ inst.stage.rank) : v.ras = s.ras := by
  obtain ⟨u, hu, huf, hv, -⟩ := h
  have hissued : u.ras = s.ras := by
    rcases State.issuesTo_of_issueStep hu huf with ⟨rfl, -⟩ | ⟨i, -, -, rfl⟩ <;> rfl
  exact (sweep_ras_of_late (s := u.clearHazards) hlate huf hv).trans hissued

/-- An instance whose stage is done hands the sweep on with the RAS that the stage has left. -/
theorem sweep_cons_ras {inst inst' : Instance} {s u : State} {fn : StageFn} {next : Stage} (rest : List Instance)
    (k : Nat) (hfn : stageFnOf inst.instr inst.stage = some fn) (hdone : fn (s.visit inst) inst = .done inst' u)
    (hu : u.fault = none) (hnext : inst.stage.next = some next) :
    ∃ y, sweep (inst :: rest) k s = sweep rest (k + 1) y ∧ y.fault = none ∧ y.ras = u.ras :=
  ⟨_, sweep_cons_of_done rest k hfn hdone hu hnext, (settle_fault ..).trans hu, settle_ras ..⟩

/-- Instances that are fetched in this cycle end the sweep without a fault and leave the RAS (R111). -/
theorem sweep_of_unfetched {l : List Instance} {k : Nat} {s : State} (hl : ∀ inst ∈ l, inst.stage = .PF)
    (hs : s.fault = none) : ∃ t, sweep l k s = .next t ∧ t.fault = none ∧ t.ras = s.ras := by
  induction l generalizing k s with
  | nil => exact ⟨s, rfl, hs, rfl⟩
  | cons inst rest ih =>
    obtain ⟨hst, hrest⟩ := List.forall_mem_cons.1 hl
    have hfn : stageFnOf inst.instr inst.stage = some fetchStage := by rw [hst]; rfl
    have hnext : inst.stage.next = some .F := by rw [hst]; rfl
    obtain ⟨y, hy, hyf, hyras⟩ := sweep_cons_ras (s := s) rest k hfn rfl hs hnext
    obtain ⟨t, ht, htf, htras⟩ := ih hrest hyf
    exact ⟨t, hy.trans ht, htf, htras.trans hyras⟩

/-- The instances behind one that waits for decode are not fetched yet. -/
theorem StagesFall.unfetched_of_append {older younger : List Instance} {inst : Instance}
    (h : StagesFall (older ++ inst :: younger)) (hst : inst.stage = .F) : ∀ y ∈ younger, y.stage = .PF := by
  intro y hy
  have hlt := List.rel_of_pairwise_cons (List.pairwise_append.1 h).2.1 hy
  rw [hst] at hlt
  exact Stage.rank_eq_zero.1 (Nat.lt_one_iff.1 hlt)

/-! ## The `return` behind a branch that corrects its prediction (R285) -/

/-- Execute of a `ble` that was predicted not taken and is taken: the jump is honored and the RAS is left, whatever
the destination the instance holds. -/
theorem State.PastOlder.sweep_correction_ras {w advanced rest : List Instance} {branch : Instance} {v : State}
    {rs rt : Nat} {imm a b : Word} (h : v.PastOlder w advanced (branch :: rest)) (hv : v.fault = none)
    (hst : branch.stage = .D) (hinstr : branch.instr = .ble rs rt imm) (hpred : branch.pred = false)
    (ha : v.gives rs a) (hb : v.gives rt b) (hle : a.toInt ≤ b.toInt) :
    ∃ x last, sweep (branch :: rest) advanced.length v = sweep rest (advanced.length + 1) x ∧ x.fault = none ∧
      x.PastJump w advanced last rest branch.btarget ∧ last.seq = branch.seq ∧ last.stage = .E ∧ x.ras = v.ras := by
  have hfn : stageFnOf branch.instr branch.stage = some (bleExecute rs rt) := by rw [hst, hinstr]; rfl
  have hdone := bleExecute_of_gives (s := v.visit branch) branch ha hb
  rw [signedLessEq_of_le hle, bleCorrected_of_missed hpred] at hdone
  have hnext : branch.stage.next = some .E := by rw [hst]; rfl
  have hfault := (btbUpdate_fault (v.visit branch) branch.pcSnap branch.btarget true).trans hv
  obtain ⟨last, hseq, hlast, hjump⟩ := h.settle_taken (stage_done hfn hdone) hnext rfl rfl
  exact ⟨_, last, sweep_cons_of_done rest _ hfn hdone hfault hnext, (settle_fault ..).trans hfault, hjump, hseq, hlast,
    by simp⟩

/-- Decode of a `return` takes the newest entry of the RAS, and what is fetched behind it changes neither that nor
raises. -/
theorem sweep_of_return {issued : List Instance} {k : Nat} {s : State} {follower : Instance} {older : List Word}
    {c : Word} (hs : s.fault = none) (hst : follower.stage = .F) (hinstr : follower.instr = .ret)
    (hras : s.ras = older ++ [c]) (hissued : ∀ inst ∈ issued, inst.stage = .PF) :
    ∃ t, sweep (follower :: issued) k s = .next t ∧ t.fault = none ∧ t.ras = older := by
  have hfn : stageFnOf follower.instr follower.stage = some retDecode := by rw [hst, hinstr]; rfl
  have hnext : follower.stage.next = some .D := by rw [hst]; rfl
  have hdone := retDecode_of_append (s := s.visit follower) follower hras
  obtain ⟨y, hy, hyf, hyras⟩ := sweep_cons_ras issued k hfn hdone hs hnext
  obtain ⟨t, ht, htf, htras⟩ := sweep_of_unfetched hissued hyf
  exact ⟨t, hy.trans ht, htf, htras.trans hyras⟩

/-- Settles O57: the RAS comes unchanged to the `return`, which pops it behind the branch's jump; the squash drops the
instance and not the pop. -/
theorem wrongPathReturnPopsTheRas : Obligations.WrongPathReturnPopsTheRas := by
  unfold Obligations.WrongPathReturnPopsTheRas
  intro s v older branch follower rs rt imm a b c rest hinv hs _ hwindow hbst hbinstr hpred hfst hfinstr hras hsweeps ha
    hb hle
  have hlate : ∀ o ∈ older, 3 ≤ o.stage.rank := by
    have hwfall : StagesFall (older ++ [branch, follower]) := hwindow ▸ hinv.stages_fall
    exact hwfall.late_of_append hbst
  obtain ⟨issued, advanced, hfall, hpast, hvf, hstep⟩ := hsweeps.cycle hinv hs hwindow (List.cons_ne_nil _ _) hlate
  obtain ⟨x, last, hbranch, hxf, hjump, hseq, hlast, hxras⟩ :=
    hpast.sweep_correction_ras hvf hbst hbinstr hpred ha hb hle
  have hunfetched : ∀ inst ∈ issued, inst.stage = .PF :=
    StagesFall.unfetched_of_append (older := older ++ [branch]) (by simpa using hfall) hfst
  have hcome : x.ras = rest ++ [c] := hxras.trans ((hsweeps.ras_eq hlate).trans hras)
  obtain ⟨y, hy, hyf, hyras⟩ := sweep_of_return (k := advanced.length + 1) hxf hfst hfinstr hcome hunfetched
  obtain ⟨ht, -⟩ := hstep y (hbranch.trans hy) hyf
  have hkeptFall : StagesFall (advanced ++ [last]) := by
    have hxfall := hjump.stands.stagesFall hfall
    rw [hjump.stands.window] at hxfall
    exact hxfall.sublist (List.sublist_append_left _ _)
  obtain ⟨hkept, hpc, hprev⟩ := (hjump.behindJump.sweep (Nat.lt_succ_self _) hxf hy).finish hkeptFall
  exact ⟨_, advanced.filter fun inst => inst.stage ≠ .W, last, ht, (State.finish_fault _).trans hyf,
    (State.finish_ras _).trans hyras, hpc, hprev, by rw [hkept]; simp [hlast], hseq, hlast,
    map_seq_filter_retired hpast.map_seq hpast.map_rank⟩

end Sys2Proof.Machine
